-- ==== Sys2Proof/Word.lean ====
section
/-!
DEFINITION. The two word types of RBFS: the byte that items, packets, frames and the serial
line are made of, and the sixteen-bit command word of 30_encoding.md R72.
-/

namespace Sys2Proof

/-- One byte of an item, a packet, a frame or the serial stream (00_scope.md R9). -/
abbrev Byte := BitVec 8

/-- The command word `cw[15:0]` (30_encoding.md R72). -/
abbrev Word := BitVec 16

end Sys2Proof
end

