-- ==== Sys2Proof/Config.lean ====
section
/-!
DEFINITION. The parameters of RBFS (00_scope.md R5): the sizes and the two frame constants.
They never change (70_reset_and_hazards.md R222, R224); State carries them so that every
statement about a state speaks of every choice of them (log 1).
-/

namespace Sys2Proof

/-- Four bytes in wire order, byte 0 first: the shape of `PRE[0..3]` and `POST[0..3]`
(00_scope.md R5, 20_memory.md R51). -/
structure Quad where
  b0 : Byte
  b1 : Byte
  b2 : Byte
  b3 : Byte
deriving DecidableEq, Repr

/-- The byte string of a frame constant, in wire order (20_memory.md R50). -/
def Quad.toList (q : Quad) : List Byte := [q.b0, q.b1, q.b2, q.b3]

/-- The little-endian 32-bit numeral view of a frame constant, byte 0 in bits `[7:0]`
(20_memory.md R51). No rule depends on it. -/
def Quad.numeral (q : Quad) : Nat :=
  q.b0.toNat + 2 ^ 8 * q.b1.toNat + 2 ^ 16 * q.b2.toNat + 2 ^ 24 * q.b3.toNat

/-- The implementation parameters (00_scope.md R5). `F` is not free: see `Params.F`. -/
structure Params where
  /-- log2 of the capacity of `RB0`. -/
  K0 : Nat
  /-- Item size of `RB0` in bytes. -/
  S0 : Nat
  /-- Packet size in bytes. -/
  P : Nat
  /-- log2 of the capacity of `RXQ` and of `TXQ`. -/
  KQ : Nat
  /-- The preamble `PRE[0..3]`. -/
  pre : Quad
  /-- The postamble `POST[0..3]`. -/
  post : Quad
deriving DecidableEq, Repr

/-- Frame size in bytes, `F = P + 8` (00_scope.md R5, 30_encoding.md R70). -/
def Params.F (c : Params) : Nat := c.P + 8

/-- The legal values of the parameters and the first constraint of R6: `POST` differs from
`PRE` in at least one byte (00_scope.md R5, R6). -/
abbrev Params.legal (c : Params) : Prop :=
  c.K0 ≤ 7 ∧ 1 ≤ c.S0 ∧ 1 ≤ c.P ∧ c.KQ ≤ 7 ∧ c.post ≠ c.pre

/-- A byte string of which no proper suffix is also a beginning of it: for every `j` in
`1..3`, `PRE[j..3] ≠ PRE[0..3-j]` (00_scope.md R6, recommended of the preamble). -/
abbrev Quad.bifixFree (q : Quad) : Prop :=
  [q.b1, q.b2, q.b3] ≠ [q.b0, q.b1, q.b2] ∧ [q.b2, q.b3] ≠ [q.b0, q.b1] ∧ [q.b3] ≠ [q.b0]

/-- Both nodes of a link use the same `P`, `PRE` and `POST` (60_exceptions.md R205,
70_reset_and_hazards.md R224). -/
abbrev Params.sameFrames (c d : Params) : Prop := c.P = d.P ∧ c.pre = d.pre ∧ c.post = d.post

/-- The spec's test instance `TV` (00_scope.md R5; 92_eei_decisions.md D13, D14, D15, D29).
DESIGN CHOICE (log 1): the instance that `State.reset` carries. -/
def Params.testInstance : Params where
  K0 := 2
  S0 := 1
  P := 2
  KQ := 2
  pre := ⟨0xA5, 0x5A, 0xC3, 0x3C⟩
  post := ⟨0x5A, 0xA5, 0x3C, 0xC3⟩

/-- The `u8` result of the host's `run()` when it has processed more than 255 events. The spec
gives no value (91_not_in_source.md N23): a free value, no body (log 19). -/
opaque Config.runResultBeyondU8 : Nat → BitVec 8

end Sys2Proof
end

