-- ==== Sys2Proof/Machine/Operands.lean ====
section
/-!
DEFINITION. The operand forms of RBFS: the bit fields of the command word (30_encoding.md R72,
R86) and the byte lanes of the data ports (20_memory.md R52, 30_encoding.md R74).
-/

namespace Sys2Proof

/-! ### Bit fields of the command word (30_encoding.md R72, R86) -/

/-- `op = cw[15:12]` (30_encoding.md R72). -/
def opField (cw : Word) : BitVec 4 := cw.extractLsb' 12 4

/-- `cw[11:9]`, always zero in a legal word (30_encoding.md R72, R80). -/
def subHighField (cw : Word) : BitVec 3 := cw.extractLsb' 9 3

/-- `cw[8]`: the operand `m` of `PUT`, `dv` of `POP` (30_encoding.md R72, R86). -/
def flagField (cw : Word) : Bool := cw.getLsbD 8

/-- `imm8 = cw[7:0]`: `n` of `PEEK`, `b` of `RXBYTE`, unsigned (30_encoding.md R72, R86). -/
def immField (cw : Word) : BitVec 8 := cw.extractLsb' 0 8

/-! ### Byte lanes of the data ports (20_memory.md R52) -/

/-- Byte `i` of a data port: bits `[8i+7:8i]` (20_memory.md R52, 30_encoding.md R74). -/
def lane (port i : Nat) : Byte := BitVec.ofNat 8 (port >>> (8 * i))

/-- The `n`-byte operand on a data port; bits above it are ignored (30_encoding.md R74). -/
def unpackLanes (n port : Nat) : List Byte := (List.range n).map (lane port)

/-- The value of a data port that carries the bytes `bs`, byte `i` in bits `[8i+7:8i]`
(20_memory.md R52). -/
def packLanes : List Byte → Nat
  | [] => 0
  | b :: bs => b.toNat + 2 ^ 8 * packLanes bs

end Sys2Proof
end

