-- ==== Sys2Proof/Syntax.lean ====
section
/-!
DEFINITION. The nine commands of RBFS with their operands (30_encoding.md R72 to R75, R86),
one constructor per row of the opcode table, and the opcode table's own types.
-/

namespace Sys2Proof

/-- A command with its operands. `item` and `pkt` are byte strings, byte 0 first
(20_memory.md R52); `n` and `b` are the eight-bit immediate (30_encoding.md R86). -/
inductive Instr where
  /-- `PUT item, m` (40_ring_buffer.md R100): `m` is the mode bit `cw[8]`. -/
  | put (m : Bool) (item : List Byte)
  /-- `POP dv` (R101): `dv` is `cw[8]`, true when the caller gives a destination. -/
  | pop (dv : Bool)
  /-- `PEEK n` (R102): `n` is the age of the item wanted, 0 the oldest. -/
  | peek (n : BitVec 8)
  /-- `RXBYTE b` (41_transport_receive.md R120): `b` is the received byte. -/
  | rxbyte (b : Byte)
  /-- `TXDONE` (42_transport_transmit.md R142). -/
  | txdone
  /-- `TX pkt` (R141): `pkt` is the packet to send. -/
  | tx (pkt : List Byte)
  /-- `TXNEXT` (R143). -/
  | txnext
  /-- `RXNEXT` (41_transport_receive.md R125). -/
  | rxnext
  /-- `RESET` (43_system.md R160). -/
  | reset
deriving DecidableEq, Repr

/-- The nine mnemonics of the opcode map (30_encoding.md R75). -/
inductive Mnemonic where
  | put | pop | peek | rxbyte | txdone | tx | txnext | rxnext | reset
deriving DecidableEq, Repr

/-- One row of the table of exact bit patterns (30_encoding.md R87): a word `cw` selects the
row when `cw & mask = pattern` (the table's column "match"). -/
structure OpRow where
  op : Mnemonic
  pattern : Word
  mask : Word
deriving DecidableEq, Repr

/-- The four operand formats (30_encoding.md R73). -/
inductive Format where
  /-- No operand. -/
  | N
  /-- The one-bit flag `cw[8]`. -/
  | B
  /-- The immediate `imm8`. -/
  | I
  /-- The data operand `wdata`, and `cw[8]` for `PUT`. -/
  | D
deriving DecidableEq, Repr

/-- Why a word is no command: the three classes of 30_encoding.md R80, by name. The block
answers each of them the same way, `ILLEGAL` (R194). -/
inductive Illegal where
  /-- `op` is one of the reserved values `0, 4, 5, 6, 7, D, E`. -/
  | reservedOp
  /-- One of `cw[11:9]` is set, or `cw[8]` in a command other than `PUT` and `POP`. -/
  | reservedSub
  /-- `imm8` is not zero in a command other than `PEEK` and `RXBYTE`. -/
  | nonzeroImm
deriving DecidableEq, Repr

/-- The mnemonic of a command. -/
def Instr.mnemonic : Instr → Mnemonic
  | .put _ _ => .put
  | .pop _ => .pop
  | .peek _ => .peek
  | .rxbyte _ => .rxbyte
  | .txdone => .txdone
  | .tx _ => .tx
  | .txnext => .txnext
  | .rxnext => .rxnext
  | .reset => .reset

end Sys2Proof
end

