-- ==== Sys2Proof/WellFormed.lean ====
section
/-!
DEFINITION. Which terms of `Instr` are commands of an RBFS with given parameters
(30_encoding.md R74): the data operand has exactly the size the parameters give it.
-/

namespace Sys2Proof

/-- The checks on a command: the item of `PUT` is exactly `S0` bytes and the packet of `TX`
exactly `P` bytes (30_encoding.md R74, 10_state.md R25). The immediates of `PEEK` and
`RXBYTE` are any eight bits (R86) and the other commands have no operand to check. -/
def Instr.WellFormed (c : Params) : Instr → Bool
  | .put _ item => item.length == c.S0
  | .pop _ => true
  | .peek _ => true
  | .rxbyte _ => true
  | .txdone => true
  | .tx pkt => pkt.length == c.P
  | .txnext => true
  | .rxnext => true
  | .reset => true

end Sys2Proof
end

