-- ==== Sys2Proof/Decode.lean ====
section
/-!
DEFINITION. The table of exact bit patterns (30_encoding.md R87), the total decoder (R81) with
its named rejections (R80), and the encoder written from the same table.
-/

namespace Sys2Proof

/-! ### The opcode table (30_encoding.md R73, R75, R87) -/

/-- The table of exact bit patterns, row by row (30_encoding.md R87). -/
def opRows : List OpRow :=
  [ ⟨.put,    0x1000, 0xFEFF⟩,
    ⟨.pop,    0x2000, 0xFEFF⟩,
    ⟨.peek,   0x3000, 0xFF00⟩,
    ⟨.rxbyte, 0x8000, 0xFF00⟩,
    ⟨.txdone, 0x9000, 0xFFFF⟩,
    ⟨.tx,     0xA000, 0xFFFF⟩,
    ⟨.txnext, 0xB000, 0xFFFF⟩,
    ⟨.rxnext, 0xC000, 0xFFFF⟩,
    ⟨.reset,  0xF000, 0xFFFF⟩ ]

/-- A word selects the row for which `(cw & mask) = match` (30_encoding.md R87). -/
def OpRow.selects (r : OpRow) (cw : Word) : Bool := cw &&& r.mask == r.pattern

/-- The operand format of each command (30_encoding.md R73, R75). -/
def Mnemonic.format : Mnemonic → Format
  | .put => .D
  | .pop => .B
  | .peek => .I
  | .rxbyte => .I
  | .txdone => .N
  | .tx => .D
  | .txnext => .N
  | .rxnext => .N
  | .reset => .N

/-! ### Decoding (30_encoding.md R80, R81) -/

/-- The command a row stands for, with its operands taken from the word and the data port
(30_encoding.md R74, R81, R86). -/
def operandsOf (c : Params) (cw : Word) (wdata : Nat) : Mnemonic → Instr
  | .put => .put (flagField cw) (unpackLanes c.S0 wdata)
  | .pop => .pop (flagField cw)
  | .peek => .peek (immField cw)
  | .rxbyte => .rxbyte (immField cw)
  | .txdone => .txdone
  | .tx => .tx (unpackLanes c.P wdata)
  | .txnext => .txnext
  | .rxnext => .rxnext
  | .reset => .reset

/-- Whether `op` is a reserved opcode value (30_encoding.md R75, R80). -/
def isReservedOp (op : BitVec 4) : Bool :=
  op ∈ ([0x0, 0x4, 0x5, 0x6, 0x7, 0xD, 0xE] : List (BitVec 4))

/-- Whether an opcode value has the one-bit operand `cw[8]`: `PUT` and `POP`
(30_encoding.md R72). -/
def hasFlag (op : BitVec 4) : Bool := op == 0x1 || op == 0x2

/-- The class of 30_encoding.md R80 that a word matching no row belongs to, in the order in
which R80 lists the classes (log 21). -/
def illegalReason (cw : Word) : Illegal :=
  if isReservedOp (opField cw) then .reservedOp
  else if subHighField cw ≠ 0 ∨ (flagField cw ∧ ¬ hasFlag (opField cw)) then .reservedSub
  else .nonzeroImm

/-- The total decoder (30_encoding.md R81): a command with its operands, or why there is
none. `wdata` is the value on the port `cmd_wdata`. -/
def decode (c : Params) (cw : Word) (wdata : Nat) : Except Illegal Instr :=
  match opRows.find? (fun r => r.selects cw) with
  | some r => .ok (operandsOf c cw wdata r.op)
  | none => .error (illegalReason cw)

/-! ### Encoding -/

/-- The command word of a command (30_encoding.md R84, R87). -/
def encodeWord : Instr → Word
  | .put m _ => 0x1000 ||| (if m then 0x0100 else 0)
  | .pop dv => 0x2000 ||| (if dv then 0x0100 else 0)
  | .peek n => 0x3000 ||| n.setWidth 16
  | .rxbyte b => 0x8000 ||| b.setWidth 16
  | .txdone => 0x9000
  | .tx _ => 0xA000
  | .txnext => 0xB000
  | .rxnext => 0xC000
  | .reset => 0xF000

/-- The value on `cmd_wdata` that goes with a command: its data operand in the low lanes,
zero where the command has none (30_encoding.md R73, R74). -/
def encodeData : Instr → Nat
  | .put _ item => packLanes item
  | .pop _ => 0
  | .peek _ => 0
  | .rxbyte _ => 0
  | .txdone => 0
  | .tx pkt => packLanes pkt
  | .txnext => 0
  | .rxnext => 0
  | .reset => 0

/-- The pair `(cw, wdata)` of a command (30_encoding.md R72). -/
def encode (i : Instr) : Word × Nat := (encodeWord i, encodeData i)

/-! ### The table's numbering of a command's bits -/

/-- A command given as one number in the numbering of the opcode table, `nbits` bits of which
count: the command word in bits 15 to 0, the data port from bit 16 on (log 2). -/
def tableCommand (nbits w : Nat) : Word × Nat :=
  (BitVec.ofNat 16 (w % 2 ^ nbits), (w % 2 ^ nbits) >>> 16)

/-- The command the decoder reads from an instruction whose bits are `w`, numbered as the
opcode table numbers them, with the parameters that `State.reset` carries (log 1). -/
def decodeTableWord (nbits w : Nat) : Option Instr :=
  (decode Params.testInstance (tableCommand nbits w).1 (tableCommand nbits w).2).toOption

end Sys2Proof
end

