-- ==== Sys2Proof/Machine/State.lean ====
section
/-!
DEFINITION. The architectural state of RBFS (10_state.md R20, R26), its ports (30_encoding.md
R76 to R79, R88), the model's stops, and the state after reset (10_state.md R39).
-/

namespace Sys2Proof.Machine

/-- A storage of bytes by index, as (index, byte) cells with strictly rising indices. A cell
that is not listed holds no value: its content is unspecified until something writes it
(10_state.md R39; 93_implementation_defined.md U3; log 5). -/
abbrev Memory := List Host.Cell

/-- The constants of a ring buffer `RB(K, S)`: `K` is log2 of its capacity, `S` its item size
`isize` in bytes (10_state.md R20). -/
structure Shape where
  K : Nat
  S : Nat
deriving DecidableEq, Repr

/-- The state elements of a ring buffer (10_state.md R20). -/
structure RingBuf where
  /-- `wcur`, the slot the next successful `put` writes. -/
  wcur : Nat
  /-- `count`, the number of items held. -/
  count : Nat
  /-- `slot[0 .. cap-1]`: byte `j` of slot `i` is cell `i * S + j` (log 6). -/
  slot : Memory
deriving DecidableEq, Repr

/-- The kinds of a receive failure (30_encoding.md R79). -/
inductive FailKind where
  /-- Postamble mismatch (60_exceptions.md R191). -/
  | framing
  /-- `RXQ` full (60_exceptions.md R192). -/
  | bufferFull
  /-- Kept for the taxonomy, never produced (60_exceptions.md R193). -/
  | parity
  /-- Kept for the taxonomy, never produced (60_exceptions.md R193). -/
  | overrun
deriving DecidableEq, Repr

/-- An event output, its packet carried by value (10_state.md R40). -/
inductive Event where
  | rxOk (pkt : List Byte)
  | rxFail (kind : FailKind)
  | txOk (pkt : List Byte)
deriving DecidableEq, Repr

/-- One entry of a command's ordered output list (00_scope.md R9, 30_encoding.md R77). -/
inductive Output where
  | event (e : Event)
  | serOut (b : Byte)
deriving DecidableEq, Repr

/-- The response of a command (30_encoding.md R76). Only `okData` carries `rdata`; elsewhere
it is unspecified and the model has no value for it (93_implementation_defined.md U5). -/
inductive Response where
  /-- `OK` with no meaningful `rdata`. -/
  | ok
  /-- `OK` of a `PEEK`, or of a `POP` with `dv = 1`. -/
  | okData (rdata : List Byte)
  /-- `FAIL`: refused, no state changed. -/
  | fail
  /-- `ILLEGAL`: not a command word, no state changed. -/
  | illegal
deriving DecidableEq, Repr

/-- What the outside presents to the block for one transaction (30_encoding.md R88; log 2). -/
inductive Input where
  /-- The `rst` input is asserted (70_reset_and_hazards.md R220). -/
  | rst
  /-- A command on the command port: `cmd_word` and `cmd_wdata` (30_encoding.md R72). -/
  | command (cw : Word) (wdata : Nat)
deriving DecidableEq, Repr

/-- The state of RBFS. -/
structure State where
  /-- The parameters (00_scope.md R5). Constants: no step changes them (R222; log 1). -/
  par : Params
  /-- `RB0`, the free-standing ring buffer (00_scope.md R2). -/
  rb0 : RingBuf
  /-- `RXQ`: received packets not yet delivered (10_state.md R26). -/
  rxq : RingBuf
  /-- `TXQ`: accepted packets not yet started (10_state.md R26). -/
  txq : RingBuf
  /-- `rxbuf[0 .. F-1]`, the receive frame buffer (10_state.md R26, R27). -/
  rxbuf : Memory
  /-- `txbuf[0 .. F-1]`, the transmit frame buffer (10_state.md R26, R27). -/
  txbuf : Memory
  /-- `rx_cursor`: number of bytes held in `rxbuf` (10_state.md R28). -/
  rxCursor : Nat
  /-- `tx_cursor`: bytes of `txbuf` already handed to the serial output (10_state.md R29). -/
  txCursor : Nat
  /-- `tx_in_progress`: a frame has been started and not yet retired (10_state.md R30). -/
  txInProgress : Bool
  /-- `tx_blocking`: a completed transmission awaiting pickup (10_state.md R30). -/
  txBlocking : Bool
  /-- `rx_armed`, the receive gate (10_state.md R30). -/
  rxArmed : Bool
  /-- `tx_armed`, the transmit gate (10_state.md R30). -/
  txArmed : Bool
  /-- Model's own: what is presented to the block, in the order in which it is taken
  (20_memory.md R56; log 2, log 3). -/
  inputs : List Input
  /-- Model's own: the response port of the transaction just made (30_encoding.md R76; log 4). -/
  rsp : Option Response
  /-- Model's own: the output list of the transaction just made (30_encoding.md R77; log 4). -/
  out : List Output
deriving DecidableEq, Repr

/-- Why the model stops. The block itself has no fault state (60_exceptions.md R204): neither
stop is reached from a state that meets the invariants of 10_state.md R21 and R38. -/
inductive Fault where
  /-- A read of a cell that holds no value, because nothing has written it (10_state.md R39).
  Raised by any command that would read such a cell. Safe (log 5). -/
  | unwrittenCell
  /-- A `MemWrite(q, i, S, v)` outside its domain `0 ≤ i < 2^K`, `v` of `S` bytes, or a frame
  started with a packet that is not `P` bytes (00_scope.md R9, 10_state.md R25). Raised by
  `PUT`, `TX`, `RXBYTE`, `TXDONE`, `TXNEXT`, and on the host's side by a `dispatch` of an event that
  does not fit an item (log 24). Safe (log 7). -/
  | outsideStorage
deriving DecidableEq, Repr

/-- Why the model has no meaning for a command. -/
inductive Refusal where
  /-- An instruction without a meaning yet, by its mnemonic. Raised by a dispatch arm only; no
  arm of this model does. Safe. -/
  | notModelled (mnemonic : String)
deriving DecidableEq, Repr

/-- The result of an internal step that may succeed or report failure (00_scope.md R9), or that
the model cannot carry out. -/
inductive Attempt (α : Type) where
  /-- `OK`, with what it gives. -/
  | done (a : α)
  /-- `FAIL`: nothing changed. -/
  | fail
  /-- The model stops. -/
  | stop (f : Fault)
deriving DecidableEq, Repr

/-- The state of a one-shot gate (10_state.md R32). -/
inductive Gate where
  | idle
  | armed
  | blocked
deriving DecidableEq, Repr

/-- The receiver's framing phase (41_transport_receive.md R127); `full` is the unreachable
case of the dead guard (R121). -/
inductive Phase where
  | huntFill
  | huntCompare
  | payload
  | lastByte
  | full
deriving DecidableEq, Repr

/-- The transmitter's line state (42_transport_transmit.md R144). -/
inductive Line where
  | off
  | sending
  | held
deriving DecidableEq, Repr

/-- An empty ring buffer none of whose slots holds a value (10_state.md R39). -/
def RingBuf.blank : RingBuf := { wcur := 0, count := 0, slot := [] }

/-- The state after reset of an RBFS with parameters `c` (10_state.md R39, 70_reset_and_hazards.md
R221), with nothing presented to it and nothing on its outputs. -/
def State.initial (c : Params) : State where
  par := c
  rb0 := RingBuf.blank
  rxq := RingBuf.blank
  txq := RingBuf.blank
  rxbuf := []
  txbuf := []
  rxCursor := 0
  txCursor := 0
  txInProgress := false
  txBlocking := false
  rxArmed := false
  txArmed := false
  inputs := []
  rsp := none
  out := []

/-- The machine right after reset (10_state.md R39), on the spec's test instance (log 1). -/
def State.reset : State := State.initial Params.testInstance

end Sys2Proof.Machine
end

