-- ==== Sys2Proof/Machine/Flags.lean ====
section
/-!
DEFINITION. Signals and control states derived from the four flags, the cursors and the queue
counts (10_state.md R32, R33; 41_transport_receive.md R127; 42_transport_transmit.md R144).
-/

namespace Sys2Proof.Machine

/-- `tx_irq_en = tx_in_progress and not tx_blocking` (10_state.md R33). -/
def State.txIrqEn (s : State) : Bool := s.txInProgress && !s.txBlocking

/-- The gate of the receive direction as a state machine (10_state.md R32). -/
def State.rxGate (s : State) : Gate :=
  if s.rxArmed then .armed else if s.rxq.count = 0 then .idle else .blocked

/-- The gate of the transmit direction as a state machine (10_state.md R32). -/
def State.txGate (s : State) : Gate :=
  if s.txArmed then .armed else if s.txBlocking then .blocked else .idle

/-- The framing phase of the receiver, read off `rx_cursor` (41_transport_receive.md R127).
A cursor at or beyond `F` is the dead guard's case (R121). -/
def State.rxPhase (s : State) : Phase :=
  if s.rxCursor ≤ 2 then .huntFill
  else if s.rxCursor = 3 then .huntCompare
  else if s.rxCursor + 1 < s.par.F then .payload
  else if s.rxCursor + 1 = s.par.F then .lastByte
  else .full

/-- The line state of the transmitter (42_transport_transmit.md R144). -/
def State.txLine (s : State) : Line :=
  if s.txInProgress then (if s.txBlocking then .held else .sending) else .off

end Sys2Proof.Machine
end

