-- ==== Sys2Proof/Machine/Ops.lean ====
section
/-!
DEFINITION. The shared operations of RBFS: storage cells, the three ring-buffer operations
(40_ring_buffer.md R100, R101, R102), answering a command, signalling a failure (60_exceptions.md
R201), and starting and retiring a frame (42_transport_transmit.md R140, R142, R143).
-/

namespace Sys2Proof.Machine

/-! ### Storage cells (00_scope.md R9) -/

/-- The byte in cell `a`, if it holds one. -/
def Memory.read : Memory → Nat → Option Byte
  | [], _ => none
  | (a', b) :: m, a => if a = a' then some b else Memory.read m a

/-- The storage after byte `b` is written to cell `a`, the list kept in rising order. -/
def Memory.write : Memory → Nat → Byte → Memory
  | [], a, b => [(a, b)]
  | (a', b') :: m, a, b =>
    if a < a' then (a, b) :: (a', b') :: m
    else if a = a' then (a, b) :: m
    else (a', b') :: Memory.write m a b

/-- The `n` bytes from cell `a` on, if all of them hold a value. -/
def Memory.readBytes (m : Memory) (a : Nat) : Nat → Option (List Byte)
  | 0 => some []
  | n + 1 =>
    match m.read a, Memory.readBytes m (a + 1) n with
    | some b, some bs => some (b :: bs)
    | _, _ => none

/-- The storage after the bytes `bs` are written from cell `a` on. -/
def Memory.writeBytes (m : Memory) (a : Nat) : List Byte → Memory
  | [] => m
  | b :: bs => Memory.writeBytes (m.write a b) (a + 1) bs

/-- The canonical form: indices strictly rising, so that equal contents are equal lists. An
unlisted cell holds no value and a listed one holds a byte, so no entry is superfluous. -/
abbrev Memory.wf (m : Memory) : Prop := m.Pairwise (fun x y => x.1 < y.1)

/-! ### Ring buffers (10_state.md R20, R22) -/

/-- `cap = 2^K` (10_state.md R20). -/
def Shape.cap (g : Shape) : Nat := 2 ^ g.K

/-- `mask = 2^K - 1` (10_state.md R20). -/
def Shape.mask (g : Shape) : Nat := g.cap - 1

/-- The shape of `RB0 = RB(K0, S0)` (00_scope.md R2). -/
def rb0Shape (c : Params) : Shape := { K := c.K0, S := c.S0 }

/-- The shape of `RXQ` and of `TXQ`, `RB(KQ, P)` (00_scope.md R2). -/
def queueShape (c : Params) : Shape := { K := c.KQ, S := c.P }

/-- The slot of the `n`-th oldest item, `(wcur - count + n) mod cap` with the non-negative
remainder (10_state.md R22, 00_scope.md R9). -/
def RingBuf.slotIndex (g : Shape) (q : RingBuf) (n : Nat) : Nat :=
  (((q.wcur : Int) - (q.count : Int) + (n : Int)) % (g.cap : Int)).toNat

/-- `MemRead(q, i, S)`: the content of slot `i`, if it holds one (00_scope.md R9). -/
def RingBuf.readSlot (g : Shape) (q : RingBuf) (i : Nat) : Option (List Byte) :=
  q.slot.readBytes (i * g.S) g.S

/-- The items held, oldest first (10_state.md R22, 20_memory.md R58); `none` stands for an item
whose slot holds no value. -/
def RingBuf.items (g : Shape) (q : RingBuf) : List (Option (List Byte)) :=
  (List.range q.count).map (fun n => q.readSlot g (q.slotIndex g n))

/-- `MemWrite(q, i, S, v)`: defined for a slot `i < 2^K` and `S` bytes `v` (00_scope.md R9). -/
def RingBuf.writeSlot (g : Shape) (q : RingBuf) (i : Nat) (v : List Byte) : Option Memory :=
  if i < g.cap ∧ v.length = g.S then some (q.slot.writeBytes (i * g.S) v) else none

/-- `q.put(v)` (40_ring_buffer.md R100): insert at the write cursor, or `FAIL` when full. -/
def RingBuf.put (g : Shape) (q : RingBuf) (v : List Byte) : Attempt RingBuf :=
  if q.count ≤ g.cap - 1 then
    match q.writeSlot g q.wcur v with
    | some m => .done { wcur := (q.wcur + 1) % g.cap, count := q.count + 1, slot := m }
    | none => .stop .outsideStorage
  else .fail

/-- `q.peek(n)` (40_ring_buffer.md R102): the `n`-th oldest item, or `FAIL` when there is none.
The ring buffer does not change. -/
def RingBuf.peek (g : Shape) (q : RingBuf) (n : Nat) : Attempt (List Byte) :=
  if n < q.count then
    match q.readSlot g (q.slotIndex g n) with
    | some v => .done v
    | none => .stop .unwrittenCell
  else .fail

/-- `q.pop()` (40_ring_buffer.md R101): the oldest item and the ring buffer without it, or
`FAIL` when empty. Neither `wcur` nor any slot changes. -/
def RingBuf.pop (g : Shape) (q : RingBuf) : Attempt (List Byte × RingBuf) :=
  if q.count ≥ 1 then
    match q.readSlot g (q.slotIndex g 0) with
    | some v => .done (v, { q with count := q.count - 1 })
    | none => .stop .unwrittenCell
  else .fail

/-- The ring buffer emptied, its slots left as they are (43_system.md R160). -/
def RingBuf.clear (q : RingBuf) : RingBuf := { q with wcur := 0, count := 0 }

/-! ### Answering (30_encoding.md R76, R77) -/

/-- The state with the response `r` and the output list `o` on its ports. -/
def State.answer (s : State) (r : Response) (o : List Output) : State :=
  { s with rsp := some r, out := o }

/-- The state with nothing on its output ports. -/
def State.quiet (s : State) : State := { s with rsp := none, out := [] }

/-- What signalling a receive failure does, in place of a trap entry (60_exceptions.md R201):
`rx_cursor` becomes 0 and the event leaves in the same command, whose response is `OK`. -/
def State.signalRxFail (s : State) (kind : FailKind) : State :=
  { s with rxCursor := 0 }.answer .ok [.event (.rxFail kind)]

/-- The reset of R160 and R220: counts, cursors and flags to their reset values, all storage
left as it is, nothing emitted (70_reset_and_hazards.md R222; log 8). -/
def State.toReset (s : State) : State :=
  { s with
    rb0 := s.rb0.clear
    rxq := s.rxq.clear
    txq := s.txq.clear
    rxCursor := 0
    txCursor := 0
    txInProgress := false
    txBlocking := false
    rxArmed := false
    txArmed := false
    rsp := none
    out := [] }

/-! ### Frames (30_encoding.md R70, R71) -/

/-- `Frame(pkt) = PRE ∥ pkt ∥ POST` (30_encoding.md R71). -/
def frameOf (c : Params) (pkt : List Byte) : List Byte :=
  c.pre.toList ++ pkt ++ c.post.toList

/-- The packet of the frame in `txbuf`, `txbuf[4 .. 4+P-1]` (10_state.md R27, R37). -/
def State.sentPacket (s : State) : Option (List Byte) := s.txbuf.readBytes 4 s.par.P

/-- The state after `StartFrame(pkt)`, whose serial byte is `PRE[0]` (42_transport_transmit.md
R140); defined for a packet of `P` bytes (10_state.md R25). -/
def State.startFrame (s : State) (pkt : List Byte) : Option State :=
  if pkt.length = s.par.P then
    some { s with
      txbuf := s.txbuf.writeBytes 0 (frameOf s.par pkt)
      txCursor := 1
      txInProgress := true }
  else none

/-- The serial output of `StartFrame`: its first byte (42_transport_transmit.md R140). -/
def firstByte (c : Params) : Output := .serOut c.pre.b0

/-- Deliver `TX_OK(pkt)`, then start the next queued packet if there is one, else go idle: the
common end of an armed completion and of a `TXNEXT` on a held one (42_transport_transmit.md
R142, R143, R148). -/
def State.retireFrame (s : State) (pkt : List Byte) : Host.Outcome State Fault Refusal :=
  match s.txq.pop (queueShape s.par) with
  | .done (v, q) =>
    match State.startFrame { s with txq := q } v with
    | some t => .next (t.answer .ok [.event (.txOk pkt), firstByte s.par])
    | none => .fault .outsideStorage
  | .fail => .next ({ s with txInProgress := false }.answer .ok [.event (.txOk pkt)])
  | .stop f => .fault f

end Sys2Proof.Machine
end

