-- ==== Sys2Proof/Machine/Receive.lean ====
section
/-!
DEFINITION. The receive direction of the transport: `RXBYTE` and `RXNEXT`
(41_transport_receive.md).
-/

namespace Sys2Proof.Machine

/-- Receive step 1 (41_transport_receive.md R121): append the byte at `rx_cursor`. -/
def State.storeRxByte (s : State) (b : Byte) : State :=
  { s with rxbuf := s.rxbuf.write s.rxCursor b, rxCursor := s.rxCursor + 1 }

/-- Receive step 2 (41_transport_receive.md R122): when the fourth byte has just been stored,
compare the preamble region with `PRE`; on a mismatch slide the window by one byte.
`rxbuf[3]` keeps its old value (log 11). -/
def State.checkPreamble (s : State) : Option State :=
  if s.rxCursor = 4 then
    match s.rxbuf.readBytes 0 4 with
    | some w =>
      if w = s.par.pre.toList then some s
      else some { s with rxbuf := s.rxbuf.writeBytes 0 (w.drop 1), rxCursor := 3 }
    | none => none
  else some s

/-- The end of a well-formed frame with packet `pkt` (41_transport_receive.md R120 step 3,
R123): try the queue, and deliver at once if the gate is armed. The `FAIL` of the inner `pop`
does not occur, since the `put` just succeeded. -/
def State.acceptPacket (s : State) (pkt : List Byte) : Host.Outcome State Fault Refusal :=
  match s.rxq.put (queueShape s.par) pkt with
  | .fail => .next (s.signalRxFail .bufferFull)
  | .stop f => .fault f
  | .done q =>
    if s.rxArmed then
      match q.pop (queueShape s.par) with
      | .done (v, q') =>
        .next ({ s with rxq := q', rxArmed := false, rxCursor := 0 }.answer .ok
          [.event (.rxOk v)])
      | .fail => .next ({ s with rxq := q, rxCursor := 0 }.answer .ok [])
      | .stop f => .fault f
    else .next ({ s with rxq := q, rxCursor := 0 }.answer .ok [])

/-- Receive step 3 (41_transport_receive.md R123): at a full frame, check the postamble. -/
def State.endOfFrame (s : State) : Host.Outcome State Fault Refusal :=
  if s.rxCursor = s.par.F then
    match s.rxbuf.readBytes (s.par.F - 4) 4 with
    | some t =>
      if t = s.par.post.toList then
        match s.rxbuf.readBytes 4 s.par.P with
        | some pkt => s.acceptPacket pkt
        | none => .fault .unwrittenCell
      else .next (s.signalRxFail .framing)
    | none => .fault .unwrittenCell
  else .next (s.answer .ok [])

/-- `RXBYTE b` (41_transport_receive.md R120), with the dead guard of R121 (log 13). -/
def execRxbyte (b : Byte) (s : State) : Host.Outcome State Fault Refusal :=
  if s.rxCursor ≥ s.par.F then .next (s.answer .ok [])
  else
    match (s.storeRxByte b).checkPreamble with
    | some t => t.endOfFrame
    | none => .fault .unwrittenCell

/-- `RXNEXT` (41_transport_receive.md R125): deliver the oldest queued packet, or arm the gate
when `RXQ` is empty. -/
def execRxnext (s : State) : Host.Outcome State Fault Refusal :=
  match s.rxq.pop (queueShape s.par) with
  | .done (v, q) =>
    .next ({ s with rxq := q, rxArmed := false }.answer .ok [.event (.rxOk v)])
  | .fail => .next ({ s with rxArmed := true }.answer .ok [])
  | .stop f => .fault f

end Sys2Proof.Machine
end

