-- ==== Sys2Proof/Machine/RingBuffer.lean ====
section
/-!
DEFINITION. The ring-buffer commands `PUT`, `POP`, `PEEK`, all on `RB0` (40_ring_buffer.md).
-/

namespace Sys2Proof.Machine

/-- `PUT item, m` (40_ring_buffer.md R100). The mode `m` has no effect (R107; log 9). -/
def execPut (_m : Bool) (item : List Byte) (s : State) : Host.Outcome State Fault Refusal :=
  match s.rb0.put (rb0Shape s.par) item with
  | .done q => .next ({ s with rb0 := q }.answer .ok [])
  | .fail => .next (s.answer .fail [])
  | .stop f => .fault f

/-- `POP dv` (40_ring_buffer.md R101): with a null destination the item is dropped. -/
def execPop (dv : Bool) (s : State) : Host.Outcome State Fault Refusal :=
  match s.rb0.pop (rb0Shape s.par) with
  | .done (v, q) => .next ({ s with rb0 := q }.answer (if dv then .okData v else .ok) [])
  | .fail => .next (s.answer .fail [])
  | .stop f => .fault f

/-- `PEEK n` (40_ring_buffer.md R102; log 10). -/
def execPeek (n : BitVec 8) (s : State) : Host.Outcome State Fault Refusal :=
  match s.rb0.peek (rb0Shape s.par) n.toNat with
  | .done v => .next (s.answer (.okData v) [])
  | .fail => .next (s.answer .fail [])
  | .stop f => .fault f

end Sys2Proof.Machine
end

