-- ==== Sys2Proof/Machine/System.lean ====
section
/-!
DEFINITION. What belongs to the whole block: the `RESET` command (43_system.md R160), the `rst`
input (70_reset_and_hazards.md R220), an illegal word (60_exceptions.md R194), a transaction in
which nothing is presented, and how a command comes to be presented (log 2).
-/

namespace Sys2Proof.Machine

/-- `RESET` (43_system.md R160): the reset state with storage left as it is; answers `OK`. -/
def execReset (s : State) : Host.Outcome State Fault Refusal :=
  .next (s.toReset.answer .ok [])

/-- The `rst` input (70_reset_and_hazards.md R220): the same effect on every state element; no
command is taken, so there is no response. -/
def takeRst (s : State) : Host.Outcome State Fault Refusal := .next s.toReset

/-- An illegal word (60_exceptions.md R194): response `ILLEGAL`, nothing changes. -/
def answerIllegal (s : State) : Host.Outcome State Fault Refusal :=
  .next (s.answer .illegal [])

/-- Nothing is presented: the block does nothing until a command arrives
(70_reset_and_hazards.md R221, 00_scope.md R8; log 3). -/
def stayIdle (s : State) : Host.Outcome State Fault Refusal := .next s.quiet

/-- The state in which the command of the opcode table's number `w`, of `nbits` bits, is the
next thing presented to the block (log 2). -/
def presentTableWord (s : State) (nbits w : Nat) : State :=
  { s with inputs := .command (tableCommand nbits w).1 (tableCommand nbits w).2 :: s.inputs }

end Sys2Proof.Machine
end

