-- ==== Sys2Proof/Machine/Transmit.lean ====
section
/-!
DEFINITION. The transmit direction of the transport: `TX`, `TXDONE` and `TXNEXT`
(42_transport_transmit.md).
-/

namespace Sys2Proof.Machine

/-- `TX pkt` (42_transport_transmit.md R141): queue the packet while a frame is in progress,
else start its frame. -/
def execTx (pkt : List Byte) (s : State) : Host.Outcome State Fault Refusal :=
  if s.txInProgress then
    match s.txq.put (queueShape s.par) pkt with
    | .done q => .next ({ s with txq := q }.answer .ok [])
    | .fail => .next (s.answer .fail [])
    | .stop f => .fault f
  else
    match s.startFrame pkt with
    | some t => .next (t.answer .ok [firstByte s.par])
    | none => .fault .outsideStorage

/-- `TXDONE` (42_transport_transmit.md R142): nothing while the source is idle (R146), else the
next byte of the frame, else the completion (R147; log 14). -/
def execTxdone (s : State) : Host.Outcome State Fault Refusal :=
  if s.txIrqEn = false then .next (s.answer .ok [])
  else if s.txCursor < s.par.F then
    match s.txbuf.read s.txCursor with
    | some b => .next ({ s with txCursor := s.txCursor + 1 }.answer .ok [.serOut b])
    | none => .fault .unwrittenCell
  else if s.txArmed then
    match s.sentPacket with
    | some pkt => State.retireFrame { s with txArmed := false } pkt
    | none => .fault .unwrittenCell
  else .next ({ s with txBlocking := true }.answer .ok [])

/-- `TXNEXT` (42_transport_transmit.md R143): deliver the held completion, or arm the gate. -/
def execTxnext (s : State) : Host.Outcome State Fault Refusal :=
  if s.txBlocking then
    match s.sentPacket with
    | some pkt => State.retireFrame { s with txBlocking := false } pkt
    | none => .fault .unwrittenCell
  else .next ({ s with txArmed := true }.answer .ok [])

end Sys2Proof.Machine
end

