-- ==== Sys2Proof/Machine/Dispatch.lean ====
section
/-! DEFINITION. The meaning of each command, one arm per constructor of `Instr`. -/

namespace Sys2Proof.Machine

def exec (i : Instr) (s : State) : Host.Outcome State Fault Refusal :=
  match i with
  | .put m item => Sys2Proof.Machine.execPut m item s
  | .pop dv => Sys2Proof.Machine.execPop dv s
  | .peek n => Sys2Proof.Machine.execPeek n s
  | .rxbyte b => Sys2Proof.Machine.execRxbyte b s
  | .txdone => Sys2Proof.Machine.execTxdone s
  | .tx pkt => Sys2Proof.Machine.execTx pkt s
  | .txnext => Sys2Proof.Machine.execTxnext s
  | .rxnext => Sys2Proof.Machine.execRxnext s
  | .reset => Sys2Proof.Machine.execReset s

end Sys2Proof.Machine
end

