-- ==== Sys2Proof/Machine/Step.lean ====
section
/-!
DEFINITION. One step of RBFS is one transaction (00_scope.md R7, 20_memory.md R56): the block
takes what is presented first. The decode check precedes everything (60_exceptions.md R200).
-/

namespace Sys2Proof.Machine

/-- The state with what was presented first taken off the input port. -/
def State.takeInput (s : State) : State := { s with inputs := s.inputs.tail }

/-- One transaction of the block. -/
def step (s : State) : Host.Outcome State Fault Refusal :=
  match s.inputs with
  | [] => stayIdle s
  | .rst :: _ => takeRst s.takeInput
  | .command cw wdata :: _ =>
    match decode s.par cw wdata with
    | .ok i => exec i s.takeInput
    | .error _ => answerIllegal s.takeInput

/-- `s` with the command numbered `w` in the opcode table's numbering presented next (log 2). -/
def State.withFetchWord (s : State) (nbits w : Nat) : State := presentTableWord s nbits w

end Sys2Proof.Machine
end

