-- ==== Sys2Proof/Machine/EventCore.lean ====
section
/-!
DEFINITION. The environment at the application side: the Event Dispatch Core
(44_host_event_dispatch.md). It is not part of the block (00_scope.md R4, R170), has no opcode
and is not in State; it is modelled beside it because it decides what becomes of an event
after the block has emitted it (log 19, log 24, log 25).
-/

namespace Sys2Proof.Machine

/-- An event of the dispatch core: a code and an argument, which is an opaque reference or null,
carried by value (44_host_event_dispatch.md R171). -/
structure HostEvent where
  code : Byte
  /-- The bytes of the reference, `none` for null. -/
  arg : Option (List Byte)
deriving DecidableEq, Repr

/-- A handler table entry; the callable is a parameter of `EventCore.run` (R172). -/
structure HandlerEntry where
  id : Byte
  code : Byte
  enabled : Bool
deriving DecidableEq, Repr

/-- The dispatch core: the global event queue `EVQ = RB(KE, SE)` (R173) and the handler table,
in registration order (R172). -/
structure EventCore where
  shape : Shape
  evq : RingBuf
  table : List HandlerEntry
deriving DecidableEq, Repr

/-- The dispatch core before its first operation: `EVQ` is an empty ring buffer, the table is the
one fixed at build time, each entry with the flag it is given there (R172, R173; log 25). -/
def EventCore.initial (g : Shape) (table : List HandlerEntry) : EventCore :=
  { shape := g, evq := RingBuf.blank, table := table }

/-- The bytes that stand for a null reference of `n` bytes (log 24). -/
def nullReference (n : Nat) : List Byte := List.replicate n 0

/-- The events that an item of `SE` bytes can carry: every null argument, and every reference of
`SE - 1` bytes other than the null one (R171, R173; log 24). -/
abbrev HostEvent.fits (SE : Nat) (e : HostEvent) : Prop :=
  1 ≤ SE ∧ ∀ r, e.arg = some r → r.length + 1 = SE ∧ r ≠ nullReference (SE - 1)

/-- An event as an item of `EVQ`: its code, then its argument, `SE` bytes together (log 24). -/
def HostEvent.toItem (SE : Nat) (e : HostEvent) : List Byte :=
  e.code :: e.arg.getD (nullReference (SE - 1))

/-- The event an item of `EVQ` stands for (log 24). -/
def HostEvent.ofItem : List Byte → HostEvent
  | [] => { code := 0, arg := none }
  | c :: a => { code := c, arg := if a = nullReference a.length then none else some a }

/-- `dispatch(code, arg) -> ok|dropped` (R174): put the event, or drop it when `EVQ` is full.
`done (true, _)` is `ok`, `done (false, _)` is `dropped`, nothing else changed. An event that does
not fit an item stops, as any item of the wrong size does (log 7). -/
def EventCore.dispatch (h : EventCore) (e : HostEvent) : Attempt (Bool × EventCore) :=
  match h.evq.put h.shape (e.toItem h.shape.S) with
  | .done q => .done (true, { h with evq := q })
  | .fail => .done (false, h)
  | .stop f => .stop f

/-- The table with the flag of the first entry that has the id set to `b`. -/
def enableFirst (id : Byte) (b : Bool) : List HandlerEntry → List HandlerEntry
  | [] => []
  | e :: t => if e.id = id then { e with enabled := b } :: t else e :: enableFirst id b t

/-- `set_enabled(id, b)` (R175, 90_conflicts.md C5): sets the flag of the one entry with that
id; with duplicate ids, of the first (93_implementation_defined.md U7); with none, nothing
(log 19). -/
def EventCore.setEnabled (h : EventCore) (id : Byte) (b : Bool) : EventCore :=
  { h with table := enableFirst id b h.table }

/-- `set_enabled_by_code(code, b)` (R175, 90_conflicts.md C5): every entry whose code matches. -/
def EventCore.setEnabledByCode (h : EventCore) (code : Byte) (b : Bool) : EventCore :=
  { h with table := h.table.map (fun e => if e.code = code then { e with enabled := b } else e) }

/-- What a handler body does, as a sequence of calls that ends with its result. The dispatch core
owns its queue and its table (R172, R173), so a body has its three operations and no other access
to them. A body runs with interrupts enabled (R177): a `dispatch` in it may be the body's own or an
interrupt's, and the rest of the world `σ`, the block among it, is the body's to change. -/
inductive HandlerRun (σ : Type) where
  /-- The body returns: whether to stop scanning, and the world after it. -/
  | finish (stop : Bool) (world : σ)
  /-- `dispatch`, whose result, true for `ok`, the rest depends on (R174). -/
  | dispatch (e : HostEvent) (rest : Bool → HandlerRun σ)
  /-- `set_enabled` (R175). -/
  | setEnabled (id : Byte) (b : Bool) (rest : HandlerRun σ)
  /-- `set_enabled_by_code` (R175). -/
  | setEnabledByCode (code : Byte) (b : Bool) (rest : HandlerRun σ)

/-- The handlers of a table, `handler(id, code, arg)`, each run on the world as it finds it
(R172). -/
abbrev HandlerBody (σ : Type) := Byte → HostEvent → σ → HandlerRun σ

/-- A handler's calls carried out on the dispatch core: its result, the core and the world after
it; `none` if one of its events does not fit an item. -/
def HandlerRun.carryOut {σ : Type} : HandlerRun σ → EventCore → Option (Bool × (EventCore × σ))
  | .finish stop x, h => some (stop, (h, x))
  | .dispatch e rest, h =>
    match h.dispatch e with
    | .done (ok, h') => (rest ok).carryOut h'
    | .fail => none
    | .stop _ => none
  | .setEnabled id b rest, h => rest.carryOut (h.setEnabled id b)
  | .setEnabledByCode code b rest, h => rest.carryOut (h.setEnabledByCode code b)

/-- The scan of the table for one event, from entry `k` on, `n` entries (R176): every enabled
entry whose code matches is invoked, until one returns true. -/
def scanFrom {σ : Type} (body : HandlerBody σ) (e : HostEvent) :
    Nat → Nat → EventCore × σ → Option (EventCore × σ)
  | 0, _, w => some w
  | n + 1, k, w =>
    match w.1.table[k]? with
    | none => some w
    | some entry =>
      if entry.enabled = true ∧ entry.code = e.code then
        match (body entry.id e w.2).carryOut w.1 with
        | some (true, w') => some w'
        | some (false, w') => scanFrom body e n (k + 1) w'
        | none => none
      else scanFrom body e n (k + 1) w

/-- The drain loop of `run()` (R176), at most `fuel` events: the number processed and the world
after it, `none` if events are left or an item cannot be read or put. Handlers may enqueue more
events, which the same call drains. -/
def drain {σ : Type} (body : HandlerBody σ) : Nat → EventCore × σ → Option (Nat × (EventCore × σ))
  | 0, w =>
    match w.1.evq.pop w.1.shape with
    | .fail => some (0, w)
    | .done _ => none
    | .stop _ => none
  | fuel + 1, w =>
    match w.1.evq.pop w.1.shape with
    | .fail => some (0, w)
    | .stop _ => none
    | .done (v, q) =>
      match scanFrom body (HostEvent.ofItem v) w.1.table.length 0 ({ w.1 with evq := q }, w.2) with
      | none => none
      | some w' =>
        match drain body fuel w' with
        | some (n, w'') => some (n + 1, w'')
        | none => none

/-- The `u8` that `run()` returns (R176): the number of events processed where it fits, and a
free value beyond (91_not_in_source.md N23; log 19). -/
def runResult (processed : Nat) : BitVec 8 :=
  if processed ≤ 255 then BitVec.ofNat 8 processed else Config.runResultBeyondU8 processed

/-- `run() -> events_processed` (R176). -/
def EventCore.run {σ : Type} (h : EventCore) (body : HandlerBody σ) (fuel : Nat) (x : σ) :
    Option (BitVec 8 × (EventCore × σ)) :=
  (drain body fuel (h, x)).map (fun r => (runResult r.1, r.2))

/-- How an event output of the block reaches the application: the host turns it into one
`dispatch`, with a code and an argument of its own choosing (R179); a full `EVQ` loses it
(70_reset_and_hazards.md R231). -/
def EventCore.takeEvents (h : EventCore) (toHost : Event → HostEvent) :
    List Event → Attempt EventCore
  | [] => .done h
  | ev :: evs =>
    match h.dispatch (toHost ev) with
    | .done (_, h') => EventCore.takeEvents h' toHost evs
    | .fail => .fail
    | .stop f => .stop f

end Sys2Proof.Machine
end

