-- ==== Sys2Proof/Machine/Ports.lean ====
section
/-!
DEFINITION. The output ports of the block, read off the state after a transaction
(30_encoding.md R76 to R79, R88). A port whose value the spec leaves unspecified reads `none`
(93_implementation_defined.md U5, U6; log 12).
-/

namespace Sys2Proof.Machine

/-- `status[1:0]` (30_encoding.md R76). -/
def Response.status : Response → BitVec 2
  | .ok => 0b00
  | .okData _ => 0b00
  | .fail => 0b01
  | .illegal => 0b10

/-- `rdata`, where it is meaningful (30_encoding.md R76; byte `i` in bits `[8i+7:8i]`, R52). -/
def Response.rdata : Response → Option Nat
  | .ok => none
  | .okData v => some (packLanes v)
  | .fail => none
  | .illegal => none

/-- The failure kind codes (30_encoding.md R79). -/
def FailKind.code : FailKind → BitVec 2
  | .framing => 0b00
  | .bufferFull => 0b01
  | .parity => 0b10
  | .overrun => 0b11

/-- The event kind codes (30_encoding.md R78). -/
def Event.kindCode : Event → BitVec 2
  | .rxOk _ => 0b00
  | .rxFail _ => 0b01
  | .txOk _ => 0b10

/-- `ev_fail`, valid with `RX_FAIL` (30_encoding.md R78, R79). -/
def Event.failCode : Event → Option (BitVec 2)
  | .rxOk _ => none
  | .rxFail k => some k.code
  | .txOk _ => none

/-- `ev_data`, the packet of a success event (30_encoding.md R78, 20_memory.md R52). -/
def Event.data : Event → Option Nat
  | .rxOk pkt => some (packLanes pkt)
  | .rxFail _ => none
  | .txOk pkt => some (packLanes pkt)

/-- The serial bytes of an output list, in order. -/
def serialBytes : List Output → List Byte
  | [] => []
  | .serOut b :: o => b :: serialBytes o
  | .event _ :: o => serialBytes o

/-- The events of an output list, in order. -/
def eventsOf : List Output → List Event
  | [] => []
  | .serOut _ :: o => eventsOf o
  | .event e :: o => e :: eventsOf o

/-- `cmd_ready`: a command is taken whenever `rst` is not asserted (30_encoding.md R88,
70_reset_and_hazards.md R220, 20_memory.md R61). -/
def State.cmdReady (s : State) : Bool := s.inputs.head? != some .rst

/-- `rsp_valid`. -/
def State.rspValid (s : State) : Bool := s.rsp.isSome

/-- `rsp_status`, while `rsp_valid`. -/
def State.rspStatus (s : State) : Option (BitVec 2) := s.rsp.map Response.status

/-- `rsp_rdata`, where it is meaningful. -/
def State.rspRdata (s : State) : Option Nat := s.rsp.bind Response.rdata

/-- `ser_tx_data`, while `ser_tx_valid` (30_encoding.md R77: at most one serial byte). -/
def State.serTxData (s : State) : Option Byte := (serialBytes s.out).head?

/-- `ser_tx_valid`. -/
def State.serTxValid (s : State) : Bool := s.serTxData.isSome

/-- The event on the event port (30_encoding.md R77: at most one event). -/
def State.event (s : State) : Option Event := (eventsOf s.out).head?

/-- `ev_valid`. -/
def State.evValid (s : State) : Bool := s.event.isSome

/-- `ev_kind`, while `ev_valid`. -/
def State.evKind (s : State) : Option (BitVec 2) := s.event.map Event.kindCode

/-- `ev_fail`, where it is meaningful. -/
def State.evFail (s : State) : Option (BitVec 2) := s.event.bind Event.failCode

/-- `ev_data`, where it is meaningful. -/
def State.evData (s : State) : Option Nat := s.event.bind Event.data

end Sys2Proof.Machine
end

