-- ==== Sys2Proof/Machine/Link.lean ====
section
/-!
DEFINITION. The environment at the serial side, as functions of the block's outputs: the link
between two nodes, error-free or not (60_exceptions.md R205), and the serial transmitter `STX`
(42_transport_transmit.md R150). The block does not depend on either (log 15, log 20).
-/

namespace Sys2Proof.Machine

/-- A command as it is presented on the command port (30_encoding.md R72, R88). -/
def present (i : Instr) : Input := .command (encodeWord i) (encodeData i)

/-- The `RXBYTE` commands for the bytes that come out of a link (60_exceptions.md R205). -/
def receivedInputs (bs : List Byte) : List Input := bs.map (fun b => present (.rxbyte b))

/-- An error-free link: the serial bytes of one node become, byte for byte and in order, the
`RXBYTE` commands of the other (60_exceptions.md R205). -/
def linkInputs (o : List Output) : List Input := receivedInputs (serialBytes o)

/-- What a link does next: it may corrupt, drop or insert bytes (60_exceptions.md R205). -/
inductive LinkAction where
  /-- The next byte arrives as it was sent. -/
  | carry
  /-- The next byte arrives as `b`. -/
  | corrupt (b : Byte)
  /-- The next byte does not arrive. -/
  | drop
  /-- The byte `b` arrives, which nobody sent. -/
  | insert (b : Byte)
deriving DecidableEq, Repr

/-- The bytes that come out of a link that does `acts` to the bytes put into it, and carries those
that are left after that. An error-free link does nothing: `acts` is empty. -/
def throughLink : List LinkAction → List Byte → List Byte
  | [], bs => bs
  | .insert b :: acts, bs => b :: throughLink acts bs
  | .carry :: acts, c :: bs => c :: throughLink acts bs
  | .corrupt b :: acts, _ :: bs => b :: throughLink acts bs
  | .drop :: acts, _ :: bs => throughLink acts bs
  | _ :: acts, [] => throughLink acts []

/-- The serial transmitter answers each serial byte with exactly one `TXDONE`
(42_transport_transmit.md R150). -/
def serializerInputs (o : List Output) : List Input :=
  (serialBytes o).map (fun _ => present .txdone)

/-- The state with more presented to the block, after what is presented already. -/
def State.presentAll (s : State) (is : List Input) : State := { s with inputs := s.inputs ++ is }

/-- Two nodes joined by a link, each a complete instance of the block; they share no state
(60_exceptions.md R205). -/
structure TwoNodes where
  a : State
  b : State
deriving DecidableEq, Repr

/-- The two nodes are the ends of one link: their frames are alike (60_exceptions.md R205). -/
abbrev TwoNodes.wf (n : TwoNodes) : Prop := n.a.par.sameFrames n.b.par

/-- Two nodes after reset, with the frames of `c` at both ends, and the sizes of `d` where node `b`
may have its own. -/
def TwoNodes.initial (c d : Params) : TwoNodes where
  a := State.initial c
  b := State.initial { d with P := c.P, pre := c.pre, post := c.post }

/-- One transaction of node `a`, its serial bytes sent over a link that does `acts` to them: what
comes out is presented to node `b`, and a `TXDONE` is owed to `a` for each byte sent
(60_exceptions.md R205, 42_transport_transmit.md R150). -/
def TwoNodes.stepAOver (acts : List LinkAction) (n : TwoNodes) :
    Host.Outcome TwoNodes Fault Refusal :=
  match step n.a with
  | .next t =>
    .next
      { a := t.presentAll (serializerInputs t.out)
        b := n.b.presentAll (receivedInputs (throughLink acts (serialBytes t.out))) }
  | .fault f => .fault f
  | .refused r => .refused r

/-- One transaction of node `b`, the same way round. -/
def TwoNodes.stepBOver (acts : List LinkAction) (n : TwoNodes) :
    Host.Outcome TwoNodes Fault Refusal :=
  match step n.b with
  | .next t =>
    .next
      { b := t.presentAll (serializerInputs t.out)
        a := n.a.presentAll (receivedInputs (throughLink acts (serialBytes t.out))) }
  | .fault f => .fault f
  | .refused r => .refused r

/-- One transaction of node `a` over an error-free link. -/
def TwoNodes.stepA (n : TwoNodes) : Host.Outcome TwoNodes Fault Refusal := n.stepAOver []

/-- One transaction of node `b` over an error-free link. -/
def TwoNodes.stepB (n : TwoNodes) : Host.Outcome TwoNodes Fault Refusal := n.stepBOver []

end Sys2Proof.Machine
end

