-- ==== Sys2Proof/Machine/Run.lean ====
section
/-!
DEFINITION. A run is the fold of the command rules over a sequence of commands (00_scope.md R7),
its outputs the concatenation of theirs (20_memory.md R59), and the pseudo-commands of
30_encoding.md R85 as such sequences.
-/

namespace Sys2Proof.Machine

/-- What a run gives: the state after it, the responses and the outputs, both in order. -/
structure Run where
  state : State
  rsps : List Response
  outs : List Output
deriving DecidableEq, Repr

/-- The run of a list of commands, `none` if the model stops at one of them (00_scope.md R7,
30_encoding.md R85, 20_memory.md R59). -/
def runCommands : List Instr → State → Option Run
  | [], s => some { state := s, rsps := [], outs := [] }
  | i :: is, s =>
    match exec i s with
    | .next t =>
      match runCommands is t with
      | some r => some { r with rsps := t.rsp.toList ++ r.rsps, outs := t.out ++ r.outs }
      | none => none
    | .fault _ => none
    | .refused _ => none

/-- `RXBYTES <b0> <b1> ...` (30_encoding.md R85). -/
def rxBytes (bs : List Byte) : List Instr := bs.map .rxbyte

/-- `RXFRAME <pkt>` (30_encoding.md R85). -/
def rxFrame (c : Params) (pkt : List Byte) : List Instr := rxBytes (frameOf c pkt)

/-- Whole frames, one for each packet, with a `RXNEXT` for each `none` between them. -/
def framesAndArms (c : Params) : List (Option (List Byte)) → List Instr
  | [] => []
  | some pkt :: l => rxFrame c pkt ++ framesAndArms c l
  | none :: l => .rxnext :: framesAndArms c l

/-- `TXDONE*k` (30_encoding.md R85). -/
def txDones (k : Nat) : List Instr := List.replicate k .txdone

/-- `DROP` is `POP.N` (30_encoding.md R85). -/
def dropOldest : List Instr := [.pop false]

/-! ### What a run did -/

/-- The items of the `PUT`s of a run that were answered `OK`, in order (40_ring_buffer.md R104). -/
def putsAccepted : List Instr → List Response → List (List Byte)
  | .put _ v :: is, .ok :: rs => v :: putsAccepted is rs
  | _ :: is, _ :: rs => putsAccepted is rs
  | _, _ => []

/-- The successful `POP`s of a run, in order, each with the item it returned if it had a
destination (40_ring_buffer.md R104). -/
def popsAnswered : List Instr → List Response → List (Option (List Byte))
  | .pop _ :: is, .okData v :: rs => some v :: popsAnswered is rs
  | .pop _ :: is, .ok :: rs => none :: popsAnswered is rs
  | _ :: is, _ :: rs => popsAnswered is rs
  | _, _ => []

/-- The packets of the `TX`s of a run that were answered `OK`, in order (20_memory.md R59). -/
def packetsAccepted : List Instr → List Response → List (List Byte)
  | .tx p :: is, .ok :: rs => p :: packetsAccepted is rs
  | _ :: is, _ :: rs => packetsAccepted is rs
  | _, _ => []

/-- The packets of the `TX_OK` events of an output list, in order. -/
def txOkPackets : List Output → List (List Byte)
  | .event (.txOk p) :: o => p :: txOkPackets o
  | _ :: o => txOkPackets o
  | [] => []

/-- The packets of the `RX_OK` events of an output list, in order. -/
def rxOkPackets : List Output → List (List Byte)
  | .event (.rxOk p) :: o => p :: rxOkPackets o
  | _ :: o => rxOkPackets o
  | [] => []

end Sys2Proof.Machine
end

