-- ==== Sys2Proof/Safety.lean ====
section
/-!
DEFINITION. What holds between two transactions: the invariant of every ring buffer (10_state.md
R21) and of the transport (R38, I1 to I8), the stored contents that R22, R108, R126 and R145 rely
on, and the canonical form and bounds of the storage (R36).
-/

namespace Sys2Proof.Machine

/-- The invariant of a ring buffer (10_state.md R21), with its occupied slots written (R22,
40_ring_buffer.md R108) and its storage in canonical form inside its index space (R36). -/
structure RingBuf.Inv (g : Shape) (q : RingBuf) : Prop where
  count_le : q.count ≤ g.cap
  wcur_lt : q.wcur < g.cap
  occupied : ∀ n, n < q.count → (q.readSlot g (q.slotIndex g n)).isSome = true
  canonical : q.slot.wf
  within : ∀ x ∈ q.slot, x.1 < g.cap * g.S

/-- The invariants of the block between two transactions. -/
structure State.Inv (s : State) : Prop where
  /-- R21 for `RB0`. -/
  rb0_inv : s.rb0.Inv (rb0Shape s.par)
  /-- R21 and I1 for `RXQ`. -/
  rxq_inv : s.rxq.Inv (queueShape s.par)
  /-- R21 and I1 for `TXQ`. -/
  txq_inv : s.txq.Inv (queueShape s.par)
  /-- I2. -/
  rxCursor_lt : s.rxCursor < s.par.F
  /-- I3. -/
  rxArmed_empty : s.rxArmed = true → s.rxq.count = 0
  /-- I4. -/
  blocking : s.txBlocking = true →
    s.txInProgress = true ∧ s.txArmed = false ∧ s.txCursor = s.par.F
  /-- I5. -/
  off_empty : s.txInProgress = false → s.txq.count = 0
  /-- I6. -/
  irqEn_cursor : s.txIrqEn = true → 1 ≤ s.txCursor ∧ s.txCursor ≤ s.par.F
  /-- I7. -/
  rx_preamble : 4 ≤ s.rxCursor → s.rxbuf.readBytes 0 4 = some s.par.pre.toList
  /-- I8. -/
  tx_marks : s.txInProgress = true →
    s.txbuf.readBytes 0 4 = some s.par.pre.toList ∧
    s.txbuf.readBytes (s.par.F - 4) 4 = some s.par.post.toList
  /-- The bytes below `rx_cursor` have been stored (41_transport_receive.md R126). -/
  rx_stored : (s.rxbuf.readBytes 0 s.rxCursor).isSome = true
  /-- A frame in progress has been written whole (42_transport_transmit.md R145). -/
  tx_stored : s.txInProgress = true → (s.txbuf.readBytes 0 s.par.F).isSome = true
  rxbuf_canonical : s.rxbuf.wf
  rxbuf_within : ∀ x ∈ s.rxbuf, x.1 < s.par.F
  txbuf_canonical : s.txbuf.wf
  txbuf_within : ∀ x ∈ s.txbuf, x.1 < s.par.F

/-- What later commands can depend on (10_state.md R22, 40_ring_buffer.md R108, R110,
41_transport_receive.md R126, 42_transport_transmit.md R145): the items of each ring, oldest
first, and not where they lie; the bytes the receiver has stored; the frame in progress, if
there is one, and how much of it has left; the flags. -/
structure View where
  par : Params
  rb0 : List (Option (List Byte))
  rxq : List (Option (List Byte))
  txq : List (Option (List Byte))
  window : Option (List Byte)
  frame : Option (List Byte)
  sent : Nat
  txInProgress : Bool
  txBlocking : Bool
  rxArmed : Bool
  txArmed : Bool
deriving DecidableEq, Repr

/-- The view of a state. -/
def State.view (s : State) : View where
  par := s.par
  rb0 := s.rb0.items (rb0Shape s.par)
  rxq := s.rxq.items (queueShape s.par)
  txq := s.txq.items (queueShape s.par)
  window := s.rxbuf.readBytes 0 s.rxCursor
  frame := if s.txInProgress then s.txbuf.readBytes 0 s.par.F else none
  sent := if s.txInProgress then s.txCursor else 0
  txInProgress := s.txInProgress
  txBlocking := s.txBlocking
  rxArmed := s.rxArmed
  txArmed := s.txArmed

/-- No window of four consecutive bytes of `g ∥ PRE` that ends before the last byte of `PRE`
equals `PRE` (41_transport_receive.md R128). -/
abbrev noEarlyLock (pre : Quad) (g : List Byte) : Prop :=
  ∀ k, k < g.length → ((g ++ pre.toList).drop k).take 4 ≠ pre.toList

end Sys2Proof.Machine
end

