-- ==== Sys2Proof/Certificates/Slice0/Obligations.lean ====
section
/-!
DEFINITION. The statements for the provers, grouped as the spec's files are: encoding, the step,
ring buffers, receive, transmit, whole block, environment. Each docstring names the rules.
-/

open Sys2Proof Sys2Proof.Machine

/-! ### Encoding (30_encoding.md) -/

/-- Decoding the pair `(cw, wdata)` of a well-formed command gives the command back, for every
choice of the parameters and every operand (R72, R74, R81, R86, R87). -/
def Obligations.DecodeOfEncodeGivesTheCommand : Prop :=
  ∀ (c : Params) (i : Instr), i.WellFormed c = true →
    decode c (encodeWord i) (encodeData i) = .ok i

/-- A decoded command is well-formed and its word encodes back to the word it came from, and for
`PUT` and `TX` its data operand is the low lanes of the port (R74, R81, R87). -/
def Obligations.DecodedCommandReencodesToItsWord : Prop :=
  ∀ (c : Params) (cw : Word) (wdata : Nat) (i : Instr), decode c cw wdata = .ok i →
    i.WellFormed c = true ∧ encodeWord i = cw ∧
    (∀ m item, i = .put m item → encodeData i = wdata % 2 ^ (8 * c.S0)) ∧
    (∀ pkt, i = .tx pkt → encodeData i = wdata % 2 ^ (8 * c.P))

/-- The data port is ignored but for the `S0` low lanes in a `PUT` and the `P` low lanes in a
`TX` (R73, R74). -/
def Obligations.DataPortIgnoredOutsideTheOperand : Prop :=
  ∀ (c : Params) (cw : Word) (w w' : Nat),
    (opField cw = 0x1 → ∀ k, k < c.S0 → lane w k = lane w' k) →
    (opField cw = 0xA → ∀ k, k < c.P → lane w k = lane w' k) →
    decode c cw w = decode c cw w'

/-- A data port that carries a byte string has byte `k` of it in bits `[8k+7:8k]`, and nothing
above (20_memory.md R52). -/
def Obligations.DataPortCarriesByteInItsLane : Prop :=
  ∀ (bs : List Byte) (k : Nat),
    lane (packLanes bs) k = bs.getD k 0 ∧ packLanes bs < 2 ^ (8 * bs.length)

/-- At most one row of the table of exact bit patterns selects any word (R87). -/
def Obligations.AtMostOneTableRowSelectsAWord : Prop :=
  ∀ (cw : Word) (r r' : OpRow), r ∈ opRows → r' ∈ opRows →
    r.selects cw = true → r'.selects cw = true → r = r'

/-- A word that no row selects is illegal; it is one of the three classes of R80, and no other
word is in one of them. An illegal command changes no state element and emits nothing; its
response is `ILLEGAL` (`status = 0b10`). A `PEEK` whose age is beyond every possible one is a
legal command (R80, R194). -/
def Obligations.IllegalWordsAreAnsweredIllegal : Prop :=
  ∀ (s : State) (cw : Word) (wdata : Nat) (rest : List Input),
    s.inputs = .command cw wdata :: rest →
    ((∀ r ∈ opRows, r.selects cw = false) ↔
      (opField cw ∈ ([0x0, 0x4, 0x5, 0x6, 0x7, 0xD, 0xE] : List (BitVec 4)) ∨
       subHighField cw ≠ 0 ∨
       (flagField cw = true ∧ opField cw ≠ 0x1 ∧ opField cw ≠ 0x2) ∨
       (immField cw ≠ 0 ∧ opField cw ≠ 0x3 ∧ opField cw ≠ 0x8))) ∧
    ((∀ r ∈ opRows, r.selects cw = false) →
      step s = .next { s with inputs := rest, rsp := some .illegal, out := [] } ∧
      Response.illegal.status = 0b10) ∧
    (∀ n : BitVec 8, decode s.par (0x3000 ||| n.setWidth 16) wdata = .ok (.peek n))

/-- Words written out from the patterns of R87 decode to the commands they stand for, on the
test instance (95_test_vectors.md V-SYS-2). -/
def Obligations.WrittenOutWordsDecode : Prop :=
  decode Params.testInstance 0b0001000100000000 0x7F = .ok (.put true [0x7F]) ∧
  decode Params.testInstance 0b0010000100000000 0 = .ok (.pop true) ∧
  decode Params.testInstance 0b0011000011111111 0 = .ok (.peek 255) ∧
  decode Params.testInstance 0b1000000010100101 0 = .ok (.rxbyte 0xA5) ∧
  decode Params.testInstance 0b1001000000000000 0 = .ok .txdone ∧
  decode Params.testInstance 0b1010000000000000 0x0201 = .ok (.tx [0x01, 0x02]) ∧
  decode Params.testInstance 0b1011000000000000 0 = .ok .txnext ∧
  decode Params.testInstance 0b1100000000000000 0 = .ok .rxnext ∧
  decode Params.testInstance 0b1111000000000000 0 = .ok .reset

/-! ### The step (00_scope.md R7, 20_memory.md R56, 70_reset_and_hazards.md R220) -/

/-- When what is presented first decodes to a command, the step is that command's meaning on the
state with it taken off the input port, and nothing else (R7, R56). That commands stand in a
list on the input port is the model's (log 2). -/
def Obligations.StepRunsTheDecodedCommand : Prop :=
  ∀ (s : State) (cw : Word) (wdata : Nat) (rest : List Input) (i : Instr),
    s.inputs = .command cw wdata :: rest → decode s.par cw wdata = .ok i →
    step s = exec i { s with inputs := rest }

/-- With nothing presented the block does nothing: every state element stays, and nothing is on
the output ports. The quiet ports are the model's choice (log 3); that the block does nothing
until a command arrives is R221. -/
def Obligations.NothingPresentedNothingHappens : Prop :=
  ∀ s : State, s.inputs = [] → step s = .next { s with rsp := none, out := [] }

/-- The `rst` input and the `RESET` command have the same effect on every state element; while
`rst` is asserted no command is taken, so there is no response and what follows on the input
port stays there; nothing is emitted (R160, R220, R222). -/
def Obligations.RstInputActsAsResetCommand : Prop :=
  ∀ (s : State) (rest : List Input), s.inputs = .rst :: rest →
    ∃ t, step s = .next t ∧ t.inputs = rest ∧ t.rsp = none ∧ t.out = [] ∧
      exec .reset { s with inputs := rest } = .next { t with rsp := some .ok }

/-- `RESET`: every count, write cursor, frame cursor and flag goes to its reset value, the parameters
are left as they are, nothing is emitted, the response is `OK` (R160). That the bytes of the storage
are kept is the model's choice (log 8): the spec calls their content unspecified from then on. -/
def Obligations.ResetCommandClearsCountsCursorsFlags : Prop :=
  ∀ s : State, exec .reset s = .next
    { s with
      rb0 := { wcur := 0, count := 0, slot := s.rb0.slot }
      rxq := { wcur := 0, count := 0, slot := s.rxq.slot }
      txq := { wcur := 0, count := 0, slot := s.txq.slot }
      rxCursor := 0
      txCursor := 0
      txInProgress := false
      txBlocking := false
      rxArmed := false
      txArmed := false
      rsp := some .ok
      out := [] }

/-! ### Ring buffers (40_ring_buffer.md) -/

/-- `PUT item, m`: with room, the item is stored at the write cursor, which advances modulo the
capacity, the count grows by one and the response is `OK`; every other byte of the ring and
every other state element stays. When full, the response is `FAIL` and nothing changes. The mode
makes no difference (R100, R107). -/
def Obligations.PutStoresAtTheWriteCursorOrFails : Prop :=
  ∀ (m : Bool) (item : List Byte) (s : State),
    item.length = s.par.S0 → s.rb0.wcur < 2 ^ s.par.K0 →
    (s.rb0.count < 2 ^ s.par.K0 →
      ∃ t, exec (.put m item) s = .next t ∧
        t.rb0.slot.readBytes (s.rb0.wcur * s.par.S0) s.par.S0 = some item ∧
        (∀ a, a < s.rb0.wcur * s.par.S0 ∨ s.rb0.wcur * s.par.S0 + s.par.S0 ≤ a →
          t.rb0.slot.read a = s.rb0.slot.read a) ∧
        t.rb0.wcur = (s.rb0.wcur + 1) % 2 ^ s.par.K0 ∧
        t.rb0.count = s.rb0.count + 1 ∧
        t = { s with rb0 := t.rb0, rsp := some .ok, out := [] }) ∧
    (2 ^ s.par.K0 ≤ s.rb0.count →
      exec (.put m item) s = .next { s with rsp := some .fail, out := [] }) ∧
    exec (.put m item) s = exec (.put (!m) item) s

/-- `POP dv`: with an item held, the oldest one, in slot `(wcur - count) mod cap`, is returned
when a destination is given and dropped when not; the count goes down by one and nothing else
changes, no slot among it. When empty, the response is `FAIL` and nothing changes (R101). -/
def Obligations.PopRemovesTheOldestItemOrFails : Prop :=
  ∀ (dv : Bool) (s : State),
    (∀ (i : Nat) (v : List Byte), 1 ≤ s.rb0.count →
      (i : Int) = ((s.rb0.wcur : Int) - s.rb0.count) % 2 ^ s.par.K0 →
      s.rb0.slot.readBytes (i * s.par.S0) s.par.S0 = some v →
      exec (.pop dv) s = .next
        { s with
          rb0 := { s.rb0 with count := s.rb0.count - 1 }
          rsp := some (if dv then .okData v else .ok)
          out := [] }) ∧
    (s.rb0.count = 0 → exec (.pop dv) s = .next { s with rsp := some .fail, out := [] })

/-- `PEEK n`: the `n`-th oldest item, in slot `(wcur - count + n) mod cap`, is returned when
`n < count`, else the response is `FAIL`; no state element changes on either path (R102). -/
def Obligations.PeekReturnsTheNthOldestItemOrFails : Prop :=
  ∀ (n : BitVec 8) (s : State),
    (∀ (i : Nat) (v : List Byte), n.toNat < s.rb0.count →
      (i : Int) = ((s.rb0.wcur : Int) - s.rb0.count + n.toNat) % 2 ^ s.par.K0 →
      s.rb0.slot.readBytes (i * s.par.S0) s.par.S0 = some v →
      exec (.peek n) s = .next { s with rsp := some (.okData v), out := [] }) ∧
    (s.rb0.count ≤ n.toNat →
      exec (.peek n) s = .next { s with rsp := some .fail, out := [] })

/-- Capacity law: from an empty `RB0`, after as many `PUT`s as its capacity, all answered `OK`,
the next `PUT` fails and changes nothing; after as many `POP`s, which return the items in order,
the next `POP` fails and changes nothing (R105, R106). -/
def Obligations.CapacityPutsThenCapacityPops : Prop :=
  ∀ (s : State) (items : List (List Byte)),
    s.rb0.wcur < 2 ^ s.par.K0 → s.rb0.count = 0 →
    items.length = 2 ^ s.par.K0 → (∀ v ∈ items, v.length = s.par.S0) →
    ∃ r, runCommands (items.map (.put false)) s = some r ∧
      r.rsps = List.replicate (2 ^ s.par.K0) .ok ∧ r.state.rb0.count = 2 ^ s.par.K0 ∧
      (∀ (m : Bool) (x : List Byte),
        exec (.put m x) r.state = .next { r.state with rsp := some .fail, out := [] }) ∧
      ∃ u, runCommands (List.replicate (2 ^ s.par.K0) (.pop true)) r.state = some u ∧
        u.rsps = items.map .okData ∧ u.state.rb0.count = 0 ∧
        ∀ dv : Bool, exec (.pop dv) u.state = .next { u.state with rsp := some .fail, out := [] }

/-- FIFO law: in any run of commands other than `RESET` that starts with `RB0` empty, of
whatever agents and in whatever order, the `j`-th successful `POP` removes, and with a
destination returns, the item of the `j`-th successful `PUT`; what is left is what `RB0` holds
at the end, oldest first (R104, R58). -/
def Obligations.PopsFollowTheOrderOfPuts : Prop :=
  ∀ (s : State) (is : List Instr) (r : Run),
    s.Inv → s.rb0.count = 0 → (∀ i ∈ is, i.WellFormed s.par = true) → Instr.reset ∉ is →
    runCommands is s = some r →
    ∃ removed left : List (List Byte),
      putsAccepted is r.rsps = removed ++ left ∧
      removed.length = (popsAnswered is r.rsps).length ∧
      (∀ (j : Nat) (v : List Byte), (popsAnswered is r.rsps)[j]? = some (some v) →
        removed[j]? = some v) ∧
      r.state.rb0.items (rb0Shape s.par) = left.map some

/-- What `PEEK n` returns is what comes out after `n` more pops: in any run of commands other than
`RESET` with exactly `n` successful `POP`s in it, whatever `PUT`s come in between, a `POP` with a
destination right after it returns the same item (corner case of R102). -/
def Obligations.PeekedItemComesOutAfterThatManyPops : Prop :=
  ∀ (s t : State) (n : BitVec 8) (v : List Byte) (is : List Instr) (r : Run),
    s.Inv → exec (.peek n) s = .next t → t.rsp = some (.okData v) →
    (∀ i ∈ is, i.WellFormed s.par = true) → Instr.reset ∉ is → runCommands is s = some r →
    (popsAnswered is r.rsps).length = n.toNat →
    ∃ u, exec (.pop true) r.state = .next u ∧ u.rsp = some (.okData v)

/-- `PUT`, `POP` and `PEEK` act on `RB0` only, and no command but these and `RESET` touches
`RB0` (R41, 00_scope.md R2). -/
def Obligations.RingCommandsAndTransportAreSeparate : Prop :=
  ∀ (i : Instr) (s t : State), exec i s = .next t →
    (i.mnemonic = .put ∨ i.mnemonic = .pop ∨ i.mnemonic = .peek →
      t = { s with rb0 := t.rb0, rsp := t.rsp, out := [] }) ∧
    (i.mnemonic ≠ .put → i.mnemonic ≠ .pop → i.mnemonic ≠ .reset → t.rb0 = s.rb0)

/-! ### Receive (41_transport_receive.md) -/

/-- Receive step 1 where neither the preamble comparison nor the end of the frame follows: the
byte is stored at `rx_cursor`, which grows by one; every other byte of `rxbuf` and every other
state element stays, and nothing is emitted. A byte that finds the buffer already full is
ignored, the whole command doing nothing (R121, R127). -/
def Obligations.RxbyteStoresTheByte : Prop :=
  ∀ (b : Byte) (s : State),
    (s.rxCursor < s.par.F → s.rxCursor ≠ 3 → s.rxCursor + 1 ≠ s.par.F →
      ∃ t, exec (.rxbyte b) s = .next t ∧
        t.rxbuf.read s.rxCursor = some b ∧
        (∀ a, a ≠ s.rxCursor → t.rxbuf.read a = s.rxbuf.read a) ∧
        t = { s with
          rxbuf := t.rxbuf, rxCursor := s.rxCursor + 1, rsp := some .ok, out := [] }) ∧
    (s.par.F ≤ s.rxCursor → exec (.rxbyte b) s = .next { s with rsp := some .ok, out := [] })

/-- Receive step 2: the byte that makes four is compared, with the three before it, against
`PRE`. Equal: the window stays and `rx_cursor` is 4. Not equal: the window slides down by one
byte, `rxbuf[3]` keeps the byte just stored, and `rx_cursor` is 3. Nothing is emitted, and
nothing else changes (R122). -/
def Obligations.RxbyteComparesThePreambleAndSlides : Prop :=
  ∀ (b b0 b1 b2 : Byte) (s : State),
    s.rxCursor = 3 → s.rxbuf.readBytes 0 3 = some [b0, b1, b2] →
    ∃ t, exec (.rxbyte b) s = .next t ∧
      (∀ a, 4 ≤ a → t.rxbuf.read a = s.rxbuf.read a) ∧
      t.rxbuf.readBytes 0 4 =
        some (if [b0, b1, b2, b] = s.par.pre.toList then [b0, b1, b2, b] else [b1, b2, b, b]) ∧
      t = { s with
        rxbuf := t.rxbuf
        rxCursor := if [b0, b1, b2, b] = s.par.pre.toList then 4 else 3
        rsp := some .ok
        out := [] }

/-- Framing error: the byte that completes a frame whose last four bytes differ from `POST`
emits exactly `RX_FAIL(FRAMING)` (`ev_kind = 0b01`, `ev_fail = 0b00`, no data), with response
`OK`; `rx_cursor` goes to 0; of the rest only the byte just stored changes (R191, R123). -/
def Obligations.RxbyteReportsAFramingError : Prop :=
  ∀ (b : Byte) (w : List Byte) (s : State),
    s.rxCursor + 1 = s.par.F → s.rxbuf.readBytes (s.par.F - 4) 3 = some w →
    w ++ [b] ≠ s.par.post.toList →
    ∃ t, exec (.rxbyte b) s = .next t ∧
      t.rxbuf.read s.rxCursor = some b ∧
      (∀ a, a ≠ s.rxCursor → t.rxbuf.read a = s.rxbuf.read a) ∧
      t = { s with
        rxbuf := t.rxbuf
        rxCursor := 0
        rsp := some .ok
        out := [.event (.rxFail .framing)] } ∧
      t.evKind = some 0b01 ∧ t.evFail = some 0b00 ∧ t.evData = none

/-- Receive buffer full: the byte that completes a well-formed frame while `RXQ` holds its
capacity emits exactly `RX_FAIL(BUFFER_FULL)` (`ev_kind = 0b01`, `ev_fail = 0b01`, no data),
with response `OK`; `rx_cursor` goes to 0 and `RXQ` stays as it is; of the rest only the byte
just stored changes (R192, R123). -/
def Obligations.RxbyteReportsAFullBuffer : Prop :=
  ∀ (b : Byte) (pkt w : List Byte) (s : State),
    s.rxCursor + 1 = s.par.F → pkt.length = s.par.P →
    s.rxbuf.readBytes 4 (s.par.P + 3) = some (pkt ++ w) → w ++ [b] = s.par.post.toList →
    2 ^ s.par.KQ ≤ s.rxq.count →
    ∃ t, exec (.rxbyte b) s = .next t ∧
      t.rxbuf.read s.rxCursor = some b ∧
      (∀ a, a ≠ s.rxCursor → t.rxbuf.read a = s.rxbuf.read a) ∧
      t = { s with
        rxbuf := t.rxbuf
        rxCursor := 0
        rsp := some .ok
        out := [.event (.rxFail .bufferFull)] } ∧
      t.evKind = some 0b01 ∧ t.evFail = some 0b01 ∧ t.evData = none

/-- A well-formed frame with the gate not armed and room in `RXQ`: the packet is stored at the
write cursor of `RXQ` and stays there; `rx_cursor` goes to 0 and nothing is emitted; every
other byte and state element stays (R123). -/
def Obligations.RxbyteQueuesThePacket : Prop :=
  ∀ (b : Byte) (pkt w : List Byte) (s : State),
    s.rxCursor + 1 = s.par.F → pkt.length = s.par.P →
    s.rxbuf.readBytes 4 (s.par.P + 3) = some (pkt ++ w) → w ++ [b] = s.par.post.toList →
    s.rxq.count < 2 ^ s.par.KQ → s.rxq.wcur < 2 ^ s.par.KQ → s.rxArmed = false →
    ∃ t, exec (.rxbyte b) s = .next t ∧
      t.rxbuf.read s.rxCursor = some b ∧
      (∀ a, a ≠ s.rxCursor → t.rxbuf.read a = s.rxbuf.read a) ∧
      t.rxq.slot.readBytes (s.rxq.wcur * s.par.P) s.par.P = some pkt ∧
      (∀ a, a < s.rxq.wcur * s.par.P ∨ s.rxq.wcur * s.par.P + s.par.P ≤ a →
        t.rxq.slot.read a = s.rxq.slot.read a) ∧
      t.rxq.wcur = (s.rxq.wcur + 1) % 2 ^ s.par.KQ ∧ t.rxq.count = s.rxq.count + 1 ∧
      t = { s with
        rxq := t.rxq, rxbuf := t.rxbuf, rxCursor := 0, rsp := some .ok, out := [] }

/-- A well-formed frame with the gate armed, and so `RXQ` empty: the packet delivered is the
packet just received, in `RX_OK` (`ev_kind = 0b00`, `ev_data` its bytes); the gate is cleared,
`RXQ` stays empty and its write cursor advances by one; `rx_cursor` goes to 0; every other byte
and state element stays (R131, R123). -/
def Obligations.RxbyteDeliversThePacketWhenArmed : Prop :=
  ∀ (b : Byte) (pkt w : List Byte) (s : State),
    s.rxCursor + 1 = s.par.F → pkt.length = s.par.P →
    s.rxbuf.readBytes 4 (s.par.P + 3) = some (pkt ++ w) → w ++ [b] = s.par.post.toList →
    s.rxq.count = 0 → s.rxq.wcur < 2 ^ s.par.KQ → s.rxArmed = true →
    ∃ t, exec (.rxbyte b) s = .next t ∧
      t.rxbuf.read s.rxCursor = some b ∧
      (∀ a, a ≠ s.rxCursor → t.rxbuf.read a = s.rxbuf.read a) ∧
      t.rxq.slot.readBytes (s.rxq.wcur * s.par.P) s.par.P = some pkt ∧
      (∀ a, a < s.rxq.wcur * s.par.P ∨ s.rxq.wcur * s.par.P + s.par.P ≤ a →
        t.rxq.slot.read a = s.rxq.slot.read a) ∧
      t.rxq.wcur = (s.rxq.wcur + 1) % 2 ^ s.par.KQ ∧ t.rxq.count = 0 ∧
      t = { s with
        rxq := t.rxq
        rxbuf := t.rxbuf
        rxCursor := 0
        rxArmed := false
        rsp := some .ok
        out := [.event (.rxOk pkt)] } ∧
      t.evKind = some 0b00 ∧ t.evData = some (packLanes pkt)

/-- `RXNEXT`: with a packet queued, the oldest one is popped and delivered at once and the gate
is not left armed; with `RXQ` empty, the gate is armed and nothing is emitted, also when it was
armed already. Nothing else changes (R125). -/
def Obligations.RxnextDeliversTheOldestOrArms : Prop :=
  ∀ s : State,
    (∀ (i : Nat) (v : List Byte), 1 ≤ s.rxq.count →
      (i : Int) = ((s.rxq.wcur : Int) - s.rxq.count) % 2 ^ s.par.KQ →
      s.rxq.slot.readBytes (i * s.par.P) s.par.P = some v →
      exec .rxnext s = .next
        { s with
          rxq := { s.rxq with count := s.rxq.count - 1 }
          rxArmed := false
          rsp := some .ok
          out := [.event (.rxOk v)] }) ∧
    (s.rxq.count = 0 →
      exec .rxnext s = .next { s with rxArmed := true, rsp := some .ok, out := [] })

/-- Failure events are neither gated nor queued: a command that emits `RX_FAIL` is an `RXBYTE`,
emits nothing else and is answered `OK`; it changes `rx_cursor` to 0 and one byte of `rxbuf`,
and neither the gate nor `RXQ` nor anything else (R130, R201). -/
def Obligations.FailureEventsBypassGateAndQueue : Prop :=
  ∀ (i : Instr) (s t : State) (k : FailKind),
    exec i s = .next t → .event (.rxFail k) ∈ t.out →
    i.mnemonic = .rxbyte ∧
    (∀ a, a ≠ s.rxCursor → t.rxbuf.read a = s.rxbuf.read a) ∧
    t = { s with
      rxbuf := t.rxbuf, rxCursor := 0, rsp := some .ok, out := [.event (.rxFail k)] }

/-- The failure kinds of the taxonomy have their codes, and `PARITY` and `OVERRUN` are never
emitted by any step (R193, R79). -/
def Obligations.ParityAndOverrunAreNeverEmitted : Prop :=
  FailKind.parity.code = 0b10 ∧ FailKind.overrun.code = 0b11 ∧
  ∀ s t : State, step s = .next t →
    .event (.rxFail .parity) ∉ t.out ∧ .event (.rxFail .overrun) ∉ t.out

/-- What a whole frame does, from any state that meets the invariants with the receiver hunting
from an empty window: nothing is emitted before the last byte; with `RXQ` full the packet is
reported `BUFFER_FULL` and lost; with the gate armed it is delivered and the gate cleared; else
it joins the queue as its youngest packet. Every response is `OK`, and the transmit side and
`RB0` stay (R120, R127). -/
def Obligations.WholeFrameIsReportedDeliveredOrQueued : Prop :=
  ∀ (s : State) (pkt : List Byte), s.Inv → s.rxCursor = 0 → pkt.length = s.par.P →
    ∃ r, runCommands (rxFrame s.par pkt) s = some r ∧
      r.rsps = List.replicate s.par.F .ok ∧
      r.state.rxCursor = 0 ∧
      r.state = { s with
        rxq := r.state.rxq, rxbuf := r.state.rxbuf, rxCursor := 0, rxArmed := r.state.rxArmed,
        rsp := r.state.rsp, out := r.state.out } ∧
      r.outs = r.state.out ∧
      (if s.rxq.count = 2 ^ s.par.KQ then
        r.outs = [.event (.rxFail .bufferFull)] ∧ r.state.rxq = s.rxq ∧
          r.state.rxArmed = s.rxArmed
      else if s.rxArmed = true then
        r.outs = [.event (.rxOk pkt)] ∧ r.state.rxArmed = false ∧ r.state.rxq.count = 0
      else
        r.outs = [] ∧ r.state.rxArmed = false ∧
        r.state.rxq.items (queueShape s.par) =
          s.rxq.items (queueShape s.par) ++ [some pkt])

/-- Packets are delivered in the order in which their frames were accepted, each at most once:
over any sequence of whole frames and `RXNEXT`s that starts with `RXQ` empty, the packets of the
`RX_OK` events, with what is left in `RXQ` after them, are the packets of the frames in order with
some left out, as many as there are `BUFFER_FULL` reports (R59, R234). -/
def Obligations.PacketsAreDeliveredInOrderOrReportedLost : Prop :=
  ∀ (s : State) (l : List (Option (List Byte))) (r : Run),
    s.Inv → s.rxCursor = 0 → s.rxq.count = 0 → (∀ p, some p ∈ l → p.length = s.par.P) →
    runCommands (framesAndArms s.par l) s = some r →
    ∃ kept : List (List Byte), kept.Sublist (l.filterMap id) ∧
      (rxOkPackets r.outs).map some ++ r.state.rxq.items (queueShape s.par) = kept.map some ∧
      kept.length + (eventsOf r.outs).count (.rxFail .bufferFull) = (l.filterMap id).length

/-- Frame round-trip: from a state with `rx_cursor = 0` and `RXQ` empty, `RXNEXT` then the bytes
of the frame of `pkt` emit exactly one event, `RX_OK(pkt)`, at the last byte, and end with
`rx_cursor = 0`, `rx_armed = false` and `RXQ` empty (R132). -/
def Obligations.FrameRoundTripDeliversThePacket : Prop :=
  ∀ (s : State) (pkt : List Byte),
    s.Inv → s.rxCursor = 0 → s.rxq.count = 0 → pkt.length = s.par.P →
    ∃ r, runCommands (.rxnext :: rxFrame s.par pkt) s = some r ∧
      r.outs = [.event (.rxOk pkt)] ∧ r.state.out = [.event (.rxOk pkt)] ∧
      r.state.rxCursor = 0 ∧ r.state.rxArmed = false ∧ r.state.rxq.count = 0

/-- Resynchronisation: bytes `g` in which, with `PRE` after them, no window of four equals `PRE`
before the true preamble leave no trace: `g` followed by a frame emits what the frame alone
emits and ends in the very same state, and every response is `OK`. With a bifix-free `PRE` a
single garbage byte is such a `g` (R128). -/
def Obligations.ReceiverResynchronisesAfterGarbage : Prop :=
  ∀ (s : State) (g pkt : List Byte), s.Inv → s.rxCursor = 0 → pkt.length = s.par.P →
    (noEarlyLock s.par.pre g →
      ∃ r u, runCommands (rxBytes g ++ rxFrame s.par pkt) s = some r ∧
        runCommands (rxFrame s.par pkt) s = some u ∧
        r.state = u.state ∧ r.outs = u.outs ∧
        r.rsps = List.replicate (g.length + s.par.F) .ok) ∧
    (s.par.pre.bifixFree → g.length = 1 → noEarlyLock s.par.pre g)

/-! ### Transmit (42_transport_transmit.md) -/

/-- `TX pkt` with no frame in progress: `txbuf` holds the frame of the packet, `tx_cursor` is 1,
`tx_in_progress` is set, the serial output is `PRE[0]` and the response `OK`; nothing else
changes (R140, R141). -/
def Obligations.TxStartsAFrameWhenOff : Prop :=
  ∀ (pkt : List Byte) (s : State), s.txInProgress = false → pkt.length = s.par.P →
    ∃ t, exec (.tx pkt) s = .next t ∧
      t.txbuf.readBytes 0 (s.par.P + 8) =
        some (s.par.pre.toList ++ pkt ++ s.par.post.toList) ∧
      (∀ a, s.par.P + 8 ≤ a → t.txbuf.read a = s.txbuf.read a) ∧
      t = { s with
        txbuf := t.txbuf
        txCursor := 1
        txInProgress := true
        rsp := some .ok
        out := [.serOut s.par.pre.b0] }

/-- `TX pkt` with a frame in progress, held or not: with room in `TXQ` the packet is stored at
its write cursor and the response is `OK`; with `TXQ` at capacity the response is `FAIL`
(rejected) and nothing changes. Nothing is emitted and nothing else changes (R141, R149). -/
def Obligations.TxQueuesOrRejectsWhileInProgress : Prop :=
  ∀ (pkt : List Byte) (s : State), s.txInProgress = true →
    (pkt.length = s.par.P → s.txq.wcur < 2 ^ s.par.KQ → s.txq.count < 2 ^ s.par.KQ →
      ∃ t, exec (.tx pkt) s = .next t ∧
        t.txq.slot.readBytes (s.txq.wcur * s.par.P) s.par.P = some pkt ∧
        (∀ a, a < s.txq.wcur * s.par.P ∨ s.txq.wcur * s.par.P + s.par.P ≤ a →
          t.txq.slot.read a = s.txq.slot.read a) ∧
        t.txq.wcur = (s.txq.wcur + 1) % 2 ^ s.par.KQ ∧ t.txq.count = s.txq.count + 1 ∧
        t = { s with txq := t.txq, rsp := some .ok, out := [] }) ∧
    (2 ^ s.par.KQ ≤ s.txq.count →
      exec (.tx pkt) s = .next { s with rsp := some .fail, out := [] })

/-- `TXDONE` while the interrupt source is idle does nothing and responds `OK` (R146, R33). -/
def Obligations.TxdoneDoesNothingWhileIdle : Prop :=
  ∀ s : State, ¬ (s.txInProgress = true ∧ s.txBlocking = false) →
    exec .txdone s = .next { s with rsp := some .ok, out := [] }

/-- `TXDONE` with untransmitted bytes left sends the next byte of the frame and advances
`tx_cursor`; nothing else changes (R142). -/
def Obligations.TxdoneSendsTheNextByte : Prop :=
  ∀ (b : Byte) (s : State), s.txInProgress = true → s.txBlocking = false →
    s.txCursor < s.par.F → s.txbuf.read s.txCursor = some b →
    exec .txdone s = .next
      { s with txCursor := s.txCursor + 1, rsp := some .ok, out := [.serOut b] }

/-- The `TXDONE` that finds `tx_cursor = F` completes the frame. Gate not armed: the completion
is held, `tx_blocking` is set and nothing is emitted. Gate armed and `TXQ` empty: `TX_OK` with
the packet just sent, the gate cleared, `tx_in_progress` cleared. Gate armed and a packet
queued: `TX_OK`, the gate cleared, the oldest queued packet taken off `TXQ` and its frame
started, `PRE[0]` leaving after the event. Nothing else changes (R142, R147, R148). -/
def Obligations.TxdoneCompletesTheFrame : Prop :=
  ∀ (pkt : List Byte) (s : State), s.txInProgress = true → s.txBlocking = false →
    s.txCursor = s.par.F → s.txbuf.readBytes 4 s.par.P = some pkt →
    (s.txArmed = false →
      exec .txdone s = .next { s with txBlocking := true, rsp := some .ok, out := [] }) ∧
    (s.txArmed = true → s.txq.count = 0 →
      exec .txdone s = .next
        { s with
          txArmed := false
          txInProgress := false
          rsp := some .ok
          out := [.event (.txOk pkt)] }) ∧
    (∀ (i : Nat) (v : List Byte), s.txArmed = true → 1 ≤ s.txq.count →
      (i : Int) = ((s.txq.wcur : Int) - s.txq.count) % 2 ^ s.par.KQ →
      s.txq.slot.readBytes (i * s.par.P) s.par.P = some v →
      ∃ t, exec .txdone s = .next t ∧
        t.txbuf.readBytes 0 s.par.F = some (frameOf s.par v) ∧
        (∀ a, s.par.F ≤ a → t.txbuf.read a = s.txbuf.read a) ∧
        t = { s with
          txq := { s.txq with count := s.txq.count - 1 }
          txbuf := t.txbuf
          txCursor := 1
          txArmed := false
          rsp := some .ok
          out := [.event (.txOk pkt), .serOut s.par.pre.b0] })

/-- `TXNEXT`. No completion held: the gate is armed, also when it was armed already, and nothing
else changes. A completion held and `TXQ` empty: `TX_OK` with the held packet, `tx_blocking` and
`tx_in_progress` cleared, the gate left as it is. A completion held and a packet queued: `TX_OK`,
`tx_blocking` cleared, the oldest queued packet taken off `TXQ` and its frame started, `PRE[0]`
leaving after the event (R143, R148). -/
def Obligations.TxnextDeliversTheHeldCompletionOrArms : Prop :=
  ∀ (pkt : List Byte) (s : State),
    (s.txBlocking = false →
      exec .txnext s = .next { s with txArmed := true, rsp := some .ok, out := [] }) ∧
    (s.txBlocking = true → s.txbuf.readBytes 4 s.par.P = some pkt →
      (s.txq.count = 0 →
        exec .txnext s = .next
          { s with
            txBlocking := false
            txInProgress := false
            rsp := some .ok
            out := [.event (.txOk pkt)] }) ∧
      (∀ (i : Nat) (v : List Byte), 1 ≤ s.txq.count →
        (i : Int) = ((s.txq.wcur : Int) - s.txq.count) % 2 ^ s.par.KQ →
        s.txq.slot.readBytes (i * s.par.P) s.par.P = some v →
        ∃ t, exec .txnext s = .next t ∧
          t.txbuf.readBytes 0 s.par.F = some (frameOf s.par v) ∧
          (∀ a, s.par.F ≤ a → t.txbuf.read a = s.txbuf.read a) ∧
          t = { s with
            txq := { s.txq with count := s.txq.count - 1 }
            txbuf := t.txbuf
            txCursor := 1
            txInProgress := true
            txBlocking := false
            rsp := some .ok
            out := [.event (.txOk pkt), .serOut s.par.pre.b0] }))

/-- `TX pkt` from the line state off and `F - 1` `TXDONE`s put out exactly the bytes of the frame of
`pkt`, in order, with no event, every response `OK`; the transmitter is then still sending, with
`tx_cursor = F` and the packet still in `txbuf` (R142, R147). -/
def Obligations.TransmitterPutsOutTheWholeFrame : Prop :=
  ∀ (s : State) (pkt : List Byte), s.Inv → s.txInProgress = false → pkt.length = s.par.P →
    ∃ r, runCommands (.tx pkt :: txDones (s.par.F - 1)) s = some r ∧
      r.outs = (frameOf s.par pkt).map .serOut ∧
      r.rsps = List.replicate s.par.F .ok ∧
      r.state.txCursor = s.par.F ∧ r.state.txLine = .sending ∧
      r.state.txbuf.readBytes 4 s.par.P = some pkt

/-- Under the invariants `tx_irq_en` counts the byte in flight: across a command other than `RESET`
it goes up by the serial bytes the command puts out and down by one for a `TXDONE` that answers a
byte in flight (R150, R33). -/
def Obligations.IrqEnableCountsTheByteInFlight : Prop :=
  ∀ (i : Instr) (s t : State), s.Inv → i ≠ .reset → exec i s = .next t →
    (if t.txIrqEn = true then 1 else 0) +
        (if i = .txdone ∧ s.txIrqEn = true then 1 else 0) =
      (if s.txIrqEn = true then 1 else 0) + (serialBytes t.out).length

/-- What is put out follows what was accepted: in any run of commands other than `RESET` that
starts with the transmitter off, the packets of the `TX_OK` events are the first ones of the
packets whose `TX` was answered `OK`, in order, and the serial bytes are the first bytes of
their frames one after another (R59, R151). -/
def Obligations.SerialOutputIsTheFramesOfAcceptedPackets : Prop :=
  ∀ (s : State) (is : List Instr) (r : Run),
    s.Inv → s.txInProgress = false → (∀ i ∈ is, i.WellFormed s.par = true) →
    Instr.reset ∉ is → runCommands is s = some r →
    txOkPackets r.outs <+: packetsAccepted is r.rsps ∧
    serialBytes r.outs <+: (packetsAccepted is r.rsps).flatMap (frameOf s.par)

/-- Gate law, both directions: over any run the success events of a direction, and the gate if
it is left armed, are no more than the arm calls of that direction and the gate if it was armed
at the start. So no arm call is used twice (R133, R151, R238). -/
def Obligations.SuccessEventsNeverExceedArmCalls : Prop :=
  ∀ (s : State) (is : List Instr) (r : Run), runCommands is s = some r →
    (rxOkPackets r.outs).length + (if r.state.rxArmed = true then 1 else 0) ≤
      is.count .rxnext + (if s.rxArmed = true then 1 else 0) ∧
    (txOkPackets r.outs).length + (if r.state.txArmed = true then 1 else 0) ≤
      is.count .txnext + (if s.txArmed = true then 1 else 0)

/-- Without `TXNEXT` the transmitter stalls: from the line state off with the gate not armed, no
run without `TXNEXT` and `RESET` emits a `TX_OK`, nor puts out more than one frame (R152). -/
def Obligations.TransmitterStallsWithoutTxnext : Prop :=
  ∀ (s : State) (is : List Instr) (r : Run),
    s.Inv → s.txInProgress = false → s.txArmed = false →
    Instr.txnext ∉ is → Instr.reset ∉ is → runCommands is s = some r →
    txOkPackets r.outs = [] ∧ (serialBytes r.outs).length ≤ s.par.F

/-! ### The whole block -/

/-- What reset leaves, for every choice of the parameters and so for `State.reset`: counts,
cursors and flags as R39 lists them, no output, `tx_irq_en` false, both gates idle, the receiver
hunting, the transmitter off (R39, R221). That unwritten storage holds no value, and that
nothing is presented, is the model's (log 2, log 5). -/
def Obligations.ResetStateIsIdle : Prop :=
  State.reset = State.initial Params.testInstance ∧
  ∀ c : Params,
    let s := State.initial c
    s.par = c ∧ s.inputs = [] ∧
    s.rb0.count = 0 ∧ s.rxq.count = 0 ∧ s.txq.count = 0 ∧
    s.rb0.wcur = 0 ∧ s.rxq.wcur = 0 ∧ s.txq.wcur = 0 ∧
    s.rxCursor = 0 ∧ s.txCursor = 0 ∧
    s.txInProgress = false ∧ s.txBlocking = false ∧ s.rxArmed = false ∧ s.txArmed = false ∧
    s.txIrqEn = false ∧ s.rsp = none ∧ s.out = [] ∧
    s.rxGate = .idle ∧ s.txGate = .idle ∧ s.rxPhase = .huntFill ∧ s.txLine = .off ∧
    (∀ a, s.rb0.slot.read a = none ∧ s.rxq.slot.read a = none ∧ s.txq.slot.read a = none ∧
      s.rxbuf.read a = none ∧ s.txbuf.read a = none)

/-- The reset state meets every invariant, for every choice of the parameters (R38). -/
def Obligations.ResetStateMeetsTheInvariants : Prop := ∀ c : Params, (State.initial c).Inv

/-- The invariants of the ring buffers and of the transport, I1 to I8, with the canonical form
and bounds of the storage, are true after reset and preserved by every step, whatever is
presented (R21, R38). -/
def Obligations.EveryStepKeepsTheInvariants : Prop :=
  (∀ c : Params, (State.initial c).Inv) ∧ ∀ s t : State, s.Inv → step s = .next t → t.Inv

/-- Nothing is fatal: from a state that meets the invariants every well-formed command runs, and
the state after it meets them again; and so does every step, whatever is presented (R204,
20_memory.md R61). -/
def Obligations.NoCommandIsFatal : Prop :=
  (∀ (i : Instr) (s : State), s.Inv → i.WellFormed s.par = true →
    ∃ t, exec i s = .next t ∧ t.Inv) ∧
  (∀ s : State, s.Inv → ∃ t, step s = .next t ∧ t.Inv)

/-- Every command gives exactly one response, `OK` for the commands that have no other, and only
a `PEEK` or a `POP` with a destination gives data (R76). -/
def Obligations.ResponsesAreTheOnesOfTheCommand : Prop :=
  ∀ (i : Instr) (s t : State), exec i s = .next t →
    ∃ r, t.rsp = some r ∧ r ≠ .illegal ∧
      (r = .fail → i.mnemonic = .put ∨ i.mnemonic = .pop ∨ i.mnemonic = .peek ∨
        i.mnemonic = .tx) ∧
      (∀ v, r = .okData v → i = .pop true ∨ ∃ n, i = .peek n) ∧
      (r = .ok → i ≠ .pop true ∧ ∀ n, i ≠ .peek n)

/-- A response `FAIL` or `ILLEGAL` means that no state element changed and nothing was emitted:
the step only took what was presented (R76, R201). -/
def Obligations.FailAndIllegalChangeNothing : Prop :=
  ∀ s t : State, step s = .next t → t.rsp = some .fail ∨ t.rsp = some .illegal →
    t = { s with inputs := s.inputs.tail, rsp := t.rsp, out := [] }

/-- A command's output list holds at most one event and at most one serial byte, the event first
when it holds both (R77). -/
def Obligations.OutputListHoldsOneEventThenOneByteAtMost : Prop :=
  ∀ s t : State, step s = .next t →
    (∃ e b, t.out = [.event e, .serOut b]) ∨ (∃ e, t.out = [.event e]) ∨
    (∃ b, t.out = [.serOut b]) ∨ t.out = []

/-- Which command writes which flag, to which value; and no other command changes a flag (R30). -/
def Obligations.FlagsAreWrittenOnlyByTheirCommands : Prop :=
  ∀ (i : Instr) (s t : State), exec i s = .next t →
    (t.txInProgress = true → s.txInProgress = true ∨ i.mnemonic = .tx ∨
      i.mnemonic = .txdone ∨ i.mnemonic = .txnext) ∧
    (t.txInProgress = false → s.txInProgress = false ∨ i = .reset ∨
      (i = .txdone ∧ s.par.F ≤ s.txCursor ∧ s.txArmed = true ∧ s.txq.count = 0) ∨
      (i = .txnext ∧ s.txBlocking = true ∧ s.txq.count = 0)) ∧
    (t.txBlocking = true → s.txBlocking = true ∨
      (i = .txdone ∧ s.par.F ≤ s.txCursor ∧ s.txArmed = false)) ∧
    (t.txBlocking = false → s.txBlocking = false ∨ i = .txnext ∨ i = .reset) ∧
    (t.rxArmed = true → s.rxArmed = true ∨ (i = .rxnext ∧ s.rxq.count = 0)) ∧
    (t.rxArmed = false → s.rxArmed = false ∨ (i = .rxnext ∧ 1 ≤ s.rxq.count) ∨ i = .reset ∨
      (i.mnemonic = .rxbyte ∧ ∃ v, .event (.rxOk v) ∈ t.out)) ∧
    (t.txArmed = true → s.txArmed = true ∨ (i = .txnext ∧ s.txBlocking = false)) ∧
    (t.txArmed = false → s.txArmed = false ∨ i = .reset ∨
      (i = .txdone ∧ ∃ v, .event (.txOk v) ∈ t.out))

/-- Which command writes which storage, and none else does; and none changes the parameters or
the input port (R35, 70_reset_and_hazards.md R222). That `RESET` too keeps the bytes of the slots,
`rxbuf` and `txbuf` is the model's choice (log 8): the spec calls their content unspecified from
then on (43_system.md R160, R39). -/
def Obligations.StorageIsWrittenOnlyByItsCommands : Prop :=
  ∀ (i : Instr) (s t : State), exec i s = .next t →
    (i.mnemonic ≠ .put → t.rb0.slot = s.rb0.slot) ∧
    (i.mnemonic ≠ .rxbyte → t.rxq.slot = s.rxq.slot ∧ t.rxbuf = s.rxbuf) ∧
    (i.mnemonic ≠ .tx → t.txq.slot = s.txq.slot) ∧
    (i.mnemonic ≠ .tx → i.mnemonic ≠ .txdone → i.mnemonic ≠ .txnext → t.txbuf = s.txbuf) ∧
    t.par = s.par ∧ t.inputs = s.inputs

/-- The two directions do not touch each other: receive commands leave all of the transmit side,
and transmit commands all of the receive side (R26, R127, R144). -/
def Obligations.DirectionsAreIndependent : Prop :=
  ∀ (i : Instr) (s t : State), exec i s = .next t →
    (i.mnemonic = .rxbyte ∨ i.mnemonic = .rxnext →
      t = { s with rxq := t.rxq, rxbuf := t.rxbuf, rxCursor := t.rxCursor,
                   rxArmed := t.rxArmed, rsp := t.rsp, out := t.out }) ∧
    (i.mnemonic = .tx ∨ i.mnemonic = .txdone ∨ i.mnemonic = .txnext →
      t = { s with txq := t.txq, txbuf := t.txbuf, txCursor := t.txCursor,
                   txInProgress := t.txInProgress, txBlocking := t.txBlocking,
                   txArmed := t.txArmed, rsp := t.rsp, out := t.out })

/-- The gate of the transmit direction never goes from armed to blocked nor from blocked to
armed (R144, R32). -/
def Obligations.TxGateNeverPassesBetweenArmedAndBlocked : Prop :=
  ∀ (i : Instr) (s t : State), s.Inv → exec i s = .next t →
    ¬ (s.txGate = .armed ∧ t.txGate = .blocked) ∧ ¬ (s.txGate = .blocked ∧ t.txGate = .armed)

/-- What a command answers, emits and leaves depends on the items the rings hold and not on
which slots hold them, on the bytes the receiver has stored, and on the frame in progress: free
slots, the value of a write cursor, dead bytes of `rxbuf` and a `txbuf` with nothing in progress
never reach a response or an output, now or later (R108, R110, R126, R145). -/
def Obligations.UnreadStorageNeverReachesAnOutput : Prop :=
  ∀ (s t s' t' : State) (i : Instr), s.Inv → t.Inv → s.view = t.view →
    i.WellFormed s.par = true → exec i s = .next s' → exec i t = .next t' →
    s'.rsp = t'.rsp ∧ s'.out = t'.out ∧ s'.view = t'.view

/-! ### The environment (44_host_event_dispatch.md, 60_exceptions.md R205) -/

/-- A packet crosses an error-free link between two nodes with the same `P`, `PRE` and `POST`: the
serial bytes that node `a` puts out for `TX pkt`, presented byte for byte to node `b` with its gate
armed, make `b` deliver exactly `RX_OK(pkt)` (R205, R132). -/
def Obligations.PacketCrossesAnErrorFreeLink : Prop :=
  ∀ (a b : State) (pkt : List Byte), a.Inv → b.Inv → a.par.sameFrames b.par →
    a.txInProgress = false → pkt.length = a.par.P →
    b.rxCursor = 0 → b.rxArmed = true →
    ∃ ra rb, runCommands (.tx pkt :: txDones (a.par.F - 1)) a = some ra ∧
      runCommands (rxBytes (serialBytes ra.outs)) b = some rb ∧
      rb.outs = [.event (.rxOk pkt)] ∧
      linkInputs ra.outs = (rxBytes (serialBytes ra.outs)).map present

/-- `dispatch` of an event that fits an item of `EVQ`: with room in `EVQ` the event is put, the result
is `ok`, and the item put stands for that very event; with `EVQ` full an event, whether it fits or
not, is dropped, the result is `dropped` and nothing changes (R174, R171). Which events fit is the
model's choice (log 24): every event with a null argument, in items of one byte or more, and every
reference of `SE - 1` bytes but the one whose bytes are all zero, which stands for null and is left
out here. -/
def Obligations.DispatchEnqueuesOrDrops : Prop :=
  ∀ (h : EventCore) (e : HostEvent),
    (h.evq.count < h.shape.cap → h.evq.wcur < h.shape.cap → e.fits h.shape.S →
      ∃ q item, h.dispatch e = .done (true, { h with evq := q }) ∧
        q.items h.shape = h.evq.items h.shape ++ [some item] ∧ HostEvent.ofItem item = e) ∧
    (h.shape.cap ≤ h.evq.count → h.dispatch e = .done (false, h)) ∧
    (1 ≤ h.shape.S → (HostEvent.mk e.code none).fits h.shape.S)

/-- Dispatch ordering and disable semantics, of the scan of a table of two handlers A and B of the
event's code, A registered first and both enabled: A is invoked, and B after it only when A returns
false; after A is disabled by its id, B alone is invoked (R181, R176). -/
def Obligations.HandlersRunInRegistrationOrder : Prop :=
  ∀ (σ : Type) (body : HandlerBody σ) (e : HostEvent) (a b : HandlerEntry) (h : EventCore)
    (x : σ),
    h.table = [a, b] → a.enabled = true → b.enabled = true → a.code = e.code →
    b.code = e.code →
    (∀ w, (body a.id e x).carryOut h = some (true, w) → scanFrom body e 2 0 (h, x) = some w) ∧
    (∀ w, (body a.id e x).carryOut h = some (false, w) → w.1.table = [a, b] →
      scanFrom body e 2 0 (h, x) = ((body b.id e w.2).carryOut w.1).map Prod.snd) ∧
    (a.id ≠ b.id →
      scanFrom body e 2 0 (h.setEnabled a.id false, x) =
        ((body b.id e x).carryOut (h.setEnabled a.id false)).map Prod.snd)

/-- `set_enabled` on unique ids sets the flag of exactly the entry with that id, to the given
value, and `set_enabled_by_code` that of every entry with that code; nothing else of the table
changes (R175). That `set_enabled` changes nothing where no entry has the id is the model's choice
(log 19): the spec leaves it open. -/
def Obligations.SetEnabledSwitchesExactlyItsEntries : Prop :=
  ∀ (h : EventCore) (id code : Byte) (v : Bool),
    ((h.table.map HandlerEntry.id).Nodup →
      (h.setEnabled id v).table =
        h.table.map (fun e => if e.id = id then { e with enabled := v } else e)) ∧
    (h.setEnabledByCode code v).table =
      h.table.map (fun e => if e.code = code then { e with enabled := v } else e) ∧
    (h.setEnabled id v).evq = h.evq ∧ (h.setEnabledByCode code v).evq = h.evq

/-- `run()` drains the whole queue: with handlers that call nothing of the dispatch core, it
processes as many events as `EVQ` held and leaves it empty, and up to 255 its result is that
number (R176). -/
def Obligations.RunDrainsTheWholeQueue : Prop :=
  ∀ (σ : Type) (body : HandlerBody σ) (h : EventCore) (x : σ) (fuel : Nat),
    (∀ id e y, ∃ stop z, body id e y = .finish stop z) → h.evq.Inv h.shape →
    h.evq.count ≤ fuel →
    ∃ r, h.run body fuel x = some r ∧ r.2.1.evq.count = 0 ∧ r.2.1.table = h.table ∧
      (h.evq.count ≤ 255 → r.1 = BitVec.ofNat 8 h.evq.count)

/-- The dispatch core owns its queue and its table: whatever the handlers do, `run()` leaves the
shape of `EVQ` and the ids and codes of the table, in their order, as they are, so that only the
`enabled` flags can differ; `EVQ` keeps the invariant of a ring buffer and ends empty (R172, R173,
R176). -/
def Obligations.RunKeepsTheTableAndTheQueue : Prop :=
  ∀ (σ : Type) (body : HandlerBody σ) (h : EventCore) (x : σ) (fuel : Nat)
    (r : BitVec 8 × (EventCore × σ)),
    h.evq.Inv h.shape → h.run body fuel x = some r →
    r.2.1.shape = h.shape ∧
    r.2.1.table.map (fun e => (e.id, e.code)) = h.table.map (fun e => (e.id, e.code)) ∧
    r.2.1.evq.Inv h.shape ∧ r.2.1.evq.count = 0
end

