-- ==== Sys2Proof/Laws/Memory.lean ====
section
/-!
SUPPORT. The laws of storage: read after write, the canonical form, and what block reads and
writes of consecutive cells do, each in terms of single cells.
-/

namespace Sys2Proof.Machine

@[simp] theorem Memory.read_nil (a : Nat) : Memory.read [] a = none := rfl

@[simp] theorem Memory.read_write_self (m : Memory) (a : Nat) (b : Byte) :
    (m.write a b).read a = some b := by
  induction m with
  | nil => simp [Memory.write, Memory.read]
  | cons x m ih =>
    obtain ⟨a', b'⟩ := x
    simp only [Memory.write]
    split
    · simp [Memory.read]
    · split
      · simp [Memory.read]
      · rename_i h; simp [Memory.read, h, ih]

theorem Memory.read_write_ne {a c : Nat} (m : Memory) (b : Byte) (h : c ≠ a) :
    (m.write a b).read c = m.read c := by
  induction m with
  | nil => simp [Memory.write, Memory.read, h]
  | cons x m ih =>
    obtain ⟨a', b'⟩ := x
    simp only [Memory.write]
    split
    · simp [Memory.read, h]
    · split
      · rename_i h'; subst h'; simp [Memory.read, h]
      · simp only [Memory.read, ih]

theorem Memory.read_write (m : Memory) (a c : Nat) (b : Byte) :
    (m.write a b).read c = if c = a then some b else m.read c := by
  split
  · rename_i h; subst h; simp
  · rename_i h; exact m.read_write_ne b h

/-- One cell after a block write: the written byte inside the block, the old one outside. -/
theorem Memory.read_writeBytes (m : Memory) (a c : Nat) (bs : List Byte) :
    (m.writeBytes a bs).read c =
      if a ≤ c ∧ c < a + bs.length then bs[c - a]? else m.read c := by
  induction bs generalizing m a with
  | nil => simp [Memory.writeBytes]
  | cons b bs ih =>
    simp only [Memory.writeBytes, ih, Memory.read_write, List.length_cons]
    by_cases h1 : c = a
    · subst h1; simp
    · by_cases h2 : a + 1 ≤ c ∧ c < a + 1 + bs.length
      · have h3 : a ≤ c ∧ c < a + (bs.length + 1) := by omega
        obtain ⟨k, rfl⟩ : ∃ k, c = a + 1 + k := ⟨c - (a + 1), by omega⟩
        have e1 : a + 1 + k - (a + 1) = k := by omega
        have e2 : a + 1 + k - a = k + 1 := by omega
        simp [h2, h3, e1, e2]
      · have h3 : ¬ (a ≤ c ∧ c < a + (bs.length + 1)) := by omega
        rw [if_neg h2, if_neg h1, if_neg h3]

theorem Memory.read_writeBytes_outside {m : Memory} {a c : Nat} {bs : List Byte}
    (h : c < a ∨ a + bs.length ≤ c) : (m.writeBytes a bs).read c = m.read c := by
  rw [Memory.read_writeBytes, if_neg (by omega)]

/-- A block read gives exactly the bytes of its cells, when all of them hold one. -/
theorem Memory.readBytes_eq_some_iff (m : Memory) (a n : Nat) (bs : List Byte) :
    m.readBytes a n = some bs ↔ bs.length = n ∧ ∀ i, i < n → m.read (a + i) = bs[i]? := by
  induction n generalizing a bs with
  | zero =>
    simp only [Memory.readBytes, Option.some.injEq]
    constructor
    · rintro rfl; simp
    · rintro ⟨h, -⟩; exact (List.length_eq_zero_iff.mp h).symm
  | succ n ih =>
    simp only [Memory.readBytes]
    constructor
    · intro h
      split at h
      · rename_i b bs' hb hbs
        obtain ⟨hl, hr⟩ := (ih (a + 1) bs').mp hbs
        cases h
        refine ⟨by simp [hl], fun i hi => ?_⟩
        cases i with
        | zero => simpa using hb
        | succ i =>
          have := hr i (by omega)
          rw [show a + (i + 1) = a + 1 + i by omega]
          simpa using this
      · cases h
    · rintro ⟨hl, hr⟩
      cases bs with
      | nil => simp at hl
      | cons b bs =>
        have h0 : m.read a = some b := by simpa using hr 0 (by omega)
        have h1 : m.readBytes (a + 1) n = some bs := by
          refine (ih (a + 1) bs).mpr ⟨by simpa using hl, fun i hi => ?_⟩
          have := hr (i + 1) (by omega)
          rw [show a + 1 + i = a + (i + 1) by omega]
          simpa using this
        rw [h0, h1]

theorem Memory.readBytes_length {m : Memory} {a n : Nat} {bs : List Byte}
    (h : m.readBytes a n = some bs) : bs.length = n :=
  ((m.readBytes_eq_some_iff a n bs).mp h).1

/-- A block can be read when each of its cells holds a byte. -/
theorem Memory.readBytes_isSome_iff (m : Memory) (a n : Nat) :
    (m.readBytes a n).isSome = true ↔ ∀ i, i < n → (m.read (a + i)).isSome = true := by
  induction n generalizing a with
  | zero => simp [Memory.readBytes]
  | succ n ih =>
    have ih' := ih (a + 1)
    simp only [Memory.readBytes]
    constructor
    · intro h i hi
      cases hb : m.read a with
      | none => simp [hb] at h
      | some b =>
        cases hbs : m.readBytes (a + 1) n with
        | none => simp [hb, hbs] at h
        | some bs =>
          cases i with
          | zero => simp [hb]
          | succ i =>
            have := ih'.mp (by simp [hbs]) i (by omega)
            rwa [show a + (i + 1) = a + 1 + i by omega]
    · intro h
      have h0 := h 0 (by omega)
      have h1 : (m.readBytes (a + 1) n).isSome = true := by
        refine ih'.mpr fun i hi => ?_
        rw [show a + 1 + i = a + (i + 1) by omega]
        exact h (i + 1) (by omega)
      obtain ⟨b, hb⟩ := Option.isSome_iff_exists.mp h0
      obtain ⟨bs, hbs⟩ := Option.isSome_iff_exists.mp h1
      have hb' : m.read a = some b := by simpa using hb
      simp [hb', hbs]

/-- Two storages that agree on the cells of a block give the same block. -/
theorem Memory.readBytes_congr {m m' : Memory} {a n : Nat}
    (h : ∀ i, i < n → m.read (a + i) = m'.read (a + i)) : m.readBytes a n = m'.readBytes a n := by
  induction n generalizing a with
  | zero => rfl
  | succ n ih =>
    have h0 := h 0 (by omega)
    have h1 : m.readBytes (a + 1) n = m'.readBytes (a + 1) n := by
      refine ih fun i hi => ?_
      rw [show a + 1 + i = a + (i + 1) by omega]
      exact h (i + 1) (by omega)
    simp only [Nat.add_zero] at h0
    simp only [Memory.readBytes, h0, h1]

@[simp] theorem Memory.readBytes_writeBytes_self (m : Memory) (a : Nat) (bs : List Byte) :
    (m.writeBytes a bs).readBytes a bs.length = some bs := by
  refine (Memory.readBytes_eq_some_iff _ _ _ _).mpr ⟨rfl, fun i hi => ?_⟩
  rw [Memory.read_writeBytes, if_pos (by omega), Nat.add_sub_cancel_left]

theorem Memory.readBytes_writeBytes_disjoint {m : Memory} {a c n : Nat} {bs : List Byte}
    (h : c + n ≤ a ∨ a + bs.length ≤ c) : (m.writeBytes a bs).readBytes c n = m.readBytes c n :=
  Memory.readBytes_congr fun _ _ => Memory.read_writeBytes_outside (by omega)

theorem Memory.readBytes_write_outside {m : Memory} {a c n : Nat} {b : Byte}
    (h : a < c ∨ c + n ≤ a) : (m.write a b).readBytes c n = m.readBytes c n :=
  Memory.readBytes_congr fun _ _ => Memory.read_write_ne _ _ (by omega)

/-- A block read in two parts. -/
theorem Memory.readBytes_append {m : Memory} {a n k : Nat} {bs cs : List Byte}
    (h1 : m.readBytes a n = some bs) (h2 : m.readBytes (a + n) k = some cs) :
    m.readBytes a (n + k) = some (bs ++ cs) := by
  obtain ⟨l1, r1⟩ := (Memory.readBytes_eq_some_iff _ _ _ _).mp h1
  obtain ⟨l2, r2⟩ := (Memory.readBytes_eq_some_iff _ _ _ _).mp h2
  refine (Memory.readBytes_eq_some_iff _ _ _ _).mpr ⟨by simp [l1, l2], fun i hi => ?_⟩
  by_cases hin : i < n
  · rw [List.getElem?_append_left (by omega)]; exact r1 i hin
  · rw [List.getElem?_append_right (by omega), l1]
    have := r2 (i - n) (by omega)
    rwa [show a + n + (i - n) = a + i by omega] at this

/-- A part of a block that was read whole. -/
theorem Memory.readBytes_part {m : Memory} {a n : Nat} {bs : List Byte}
    (h : m.readBytes a n = some bs) {k l : Nat} (hk : k + l ≤ n) :
    m.readBytes (a + k) l = some ((bs.drop k).take l) := by
  obtain ⟨l1, r1⟩ := (Memory.readBytes_eq_some_iff _ _ _ _).mp h
  refine (Memory.readBytes_eq_some_iff _ _ _ _).mpr ⟨by simp; omega, fun i hi => ?_⟩
  rw [List.getElem?_take_of_lt hi, List.getElem?_drop, ← r1 (k + i) (by omega)]
  congr 1; omega

/-! ### The canonical form -/

theorem Memory.mem_write {m : Memory} {a : Nat} {b : Byte} {x : Nat × BitVec 8}
    (h : x ∈ m.write a b) : x = (a, b) ∨ x ∈ m := by
  induction m with
  | nil => simpa [Memory.write] using h
  | cons y m ih =>
    obtain ⟨a', b'⟩ := y
    simp only [Memory.write] at h
    split at h
    · simpa using h
    · split at h
      · rcases List.mem_cons.mp h with h | h
        · exact .inl h
        · exact .inr (List.mem_cons_of_mem _ h)
      · rcases List.mem_cons.mp h with h | h
        · exact .inr (by simp [h])
        · rcases ih h with h | h
          · exact .inl h
          · exact .inr (List.mem_cons_of_mem _ h)

theorem Memory.write_wf {m : Memory} (a : Nat) (b : Byte) (h : m.wf) : (m.write a b).wf := by
  induction m with
  | nil => simp [Memory.write]
  | cons y m ih =>
    obtain ⟨a', b'⟩ := y
    obtain ⟨h1, h2⟩ := List.pairwise_cons.mp h
    simp only [Memory.write]
    split
    · rename_i hlt
      refine List.pairwise_cons.mpr ⟨fun x hx => ?_, h⟩
      rcases List.mem_cons.mp hx with rfl | hx
      · exact hlt
      · exact Nat.lt_trans hlt (h1 x hx)
    · split
      · rename_i heq; subst heq
        exact List.pairwise_cons.mpr ⟨h1, h2⟩
      · refine List.pairwise_cons.mpr ⟨fun x hx => ?_, ih h2⟩
        rcases Memory.mem_write hx with rfl | hx
        · show a' < a; omega
        · exact h1 x hx

theorem Memory.writeBytes_wf {m : Memory} (a : Nat) (bs : List Byte) (h : m.wf) :
    (m.writeBytes a bs).wf := by
  induction bs generalizing m a with
  | nil => exact h
  | cons b bs ih => exact ih (a + 1) (Memory.write_wf a b h)

/-- Writing inside a bound keeps every cell inside it. -/
theorem Memory.write_within {m : Memory} {a bound : Nat} {b : Byte}
    (h : ∀ x ∈ m, x.1 < bound) (ha : a < bound) : ∀ x ∈ m.write a b, x.1 < bound := by
  intro x hx
  rcases Memory.mem_write hx with rfl | hx
  · exact ha
  · exact h x hx

theorem Memory.writeBytes_within {m : Memory} {a bound : Nat} {bs : List Byte}
    (h : ∀ x ∈ m, x.1 < bound) (ha : a + bs.length ≤ bound) :
    ∀ x ∈ m.writeBytes a bs, x.1 < bound := by
  induction bs generalizing m a with
  | nil => exact h
  | cons b bs ih =>
    simp only [List.length_cons] at ha
    exact ih (Memory.write_within h (by omega)) (by omega)

theorem Memory.read_isSome_mem {m : Memory} {a : Nat} {b : Byte} (h : m.read a = some b) :
    (a, b) ∈ m := by
  induction m with
  | nil => simp at h
  | cons y m ih =>
    obtain ⟨a', b'⟩ := y
    simp only [Memory.read] at h
    split at h
    · rename_i he; subst he; cases h; simp
    · exact List.mem_cons_of_mem _ (ih h)

theorem Memory.read_none_of_lt {m : Memory} {a : Nat} (h : ∀ x ∈ m, a < x.1) :
    m.read a = none := by
  cases hr : m.read a with
  | none => rfl
  | some b => exact absurd (h _ (Memory.read_isSome_mem hr)) (Nat.lt_irrefl _)

/-- Two storages in canonical form with the same contents are the same list. -/
theorem Memory.eq_of_read_eq {m m' : Memory} (h : m.wf) (h' : m'.wf)
    (e : ∀ a, m.read a = m'.read a) : m = m' := by
  induction m generalizing m' with
  | nil =>
    cases m' with
    | nil => rfl
    | cons y m' => have := e y.1; simp [Memory.read] at this
  | cons x m ih =>
    obtain ⟨a, b⟩ := x
    obtain ⟨hx, hm⟩ := List.pairwise_cons.mp h
    cases m' with
    | nil => have := e a; simp [Memory.read] at this
    | cons y m' =>
      obtain ⟨a', b'⟩ := y
      obtain ⟨hy, hm'⟩ := List.pairwise_cons.mp h'
      have ea := e a
      have ea' := e a'
      simp only [Memory.read, if_true] at ea ea'
      have haa : a = a' := by
        rcases Nat.lt_trichotomy a a' with hlt | heq | hgt
        · rw [if_neg (by omega), Memory.read_none_of_lt (fun x hx => Nat.lt_trans hlt (hy x hx))] at ea
          cases ea
        · exact heq
        · rw [if_neg (by omega), Memory.read_none_of_lt (fun x hx' => Nat.lt_trans hgt (hx x hx'))] at ea'
          cases ea'
      subst haa
      simp only [if_true, Option.some.injEq] at ea
      subst ea
      congr 1
      refine ih hm hm' fun c => ?_
      have ec := e c
      simp only [Memory.read] at ec
      by_cases hc : c = a
      · subst hc
        rw [Memory.read_none_of_lt hx, Memory.read_none_of_lt hy]
      · simpa [hc] using ec

end Sys2Proof.Machine
end

