-- ==== Sys2Proof/Laws/State.lean ====
section
/-!
SUPPORT. The fields of the state after each shared update, one lemma a field, so that no later
proof unfolds a record update.
-/

namespace Sys2Proof.Machine

/-! ### Answering a command -/

@[simp] theorem State.answer_par (s : State) (r : Response) (o : List Output) :
    (s.answer r o).par = s.par := rfl
@[simp] theorem State.answer_rb0 (s : State) (r : Response) (o : List Output) :
    (s.answer r o).rb0 = s.rb0 := rfl
@[simp] theorem State.answer_rxq (s : State) (r : Response) (o : List Output) :
    (s.answer r o).rxq = s.rxq := rfl
@[simp] theorem State.answer_txq (s : State) (r : Response) (o : List Output) :
    (s.answer r o).txq = s.txq := rfl
@[simp] theorem State.answer_rxbuf (s : State) (r : Response) (o : List Output) :
    (s.answer r o).rxbuf = s.rxbuf := rfl
@[simp] theorem State.answer_txbuf (s : State) (r : Response) (o : List Output) :
    (s.answer r o).txbuf = s.txbuf := rfl
@[simp] theorem State.answer_rxCursor (s : State) (r : Response) (o : List Output) :
    (s.answer r o).rxCursor = s.rxCursor := rfl
@[simp] theorem State.answer_txCursor (s : State) (r : Response) (o : List Output) :
    (s.answer r o).txCursor = s.txCursor := rfl
@[simp] theorem State.answer_txInProgress (s : State) (r : Response) (o : List Output) :
    (s.answer r o).txInProgress = s.txInProgress := rfl
@[simp] theorem State.answer_txBlocking (s : State) (r : Response) (o : List Output) :
    (s.answer r o).txBlocking = s.txBlocking := rfl
@[simp] theorem State.answer_rxArmed (s : State) (r : Response) (o : List Output) :
    (s.answer r o).rxArmed = s.rxArmed := rfl
@[simp] theorem State.answer_txArmed (s : State) (r : Response) (o : List Output) :
    (s.answer r o).txArmed = s.txArmed := rfl
@[simp] theorem State.answer_inputs (s : State) (r : Response) (o : List Output) :
    (s.answer r o).inputs = s.inputs := rfl
@[simp] theorem State.answer_rsp (s : State) (r : Response) (o : List Output) :
    (s.answer r o).rsp = some r := rfl
@[simp] theorem State.answer_out (s : State) (r : Response) (o : List Output) :
    (s.answer r o).out = o := rfl

/-! ### Nothing on the output ports -/

@[simp] theorem State.quiet_par (s : State) :
    (s.quiet).par = s.par := rfl
@[simp] theorem State.quiet_rb0 (s : State) :
    (s.quiet).rb0 = s.rb0 := rfl
@[simp] theorem State.quiet_rxq (s : State) :
    (s.quiet).rxq = s.rxq := rfl
@[simp] theorem State.quiet_txq (s : State) :
    (s.quiet).txq = s.txq := rfl
@[simp] theorem State.quiet_rxbuf (s : State) :
    (s.quiet).rxbuf = s.rxbuf := rfl
@[simp] theorem State.quiet_txbuf (s : State) :
    (s.quiet).txbuf = s.txbuf := rfl
@[simp] theorem State.quiet_rxCursor (s : State) :
    (s.quiet).rxCursor = s.rxCursor := rfl
@[simp] theorem State.quiet_txCursor (s : State) :
    (s.quiet).txCursor = s.txCursor := rfl
@[simp] theorem State.quiet_txInProgress (s : State) :
    (s.quiet).txInProgress = s.txInProgress := rfl
@[simp] theorem State.quiet_txBlocking (s : State) :
    (s.quiet).txBlocking = s.txBlocking := rfl
@[simp] theorem State.quiet_rxArmed (s : State) :
    (s.quiet).rxArmed = s.rxArmed := rfl
@[simp] theorem State.quiet_txArmed (s : State) :
    (s.quiet).txArmed = s.txArmed := rfl
@[simp] theorem State.quiet_inputs (s : State) :
    (s.quiet).inputs = s.inputs := rfl
@[simp] theorem State.quiet_rsp (s : State) :
    (s.quiet).rsp = none := rfl
@[simp] theorem State.quiet_out (s : State) :
    (s.quiet).out = [] := rfl

/-! ### Taking the first input -/

@[simp] theorem State.takeInput_par (s : State) :
    (s.takeInput).par = s.par := rfl
@[simp] theorem State.takeInput_rb0 (s : State) :
    (s.takeInput).rb0 = s.rb0 := rfl
@[simp] theorem State.takeInput_rxq (s : State) :
    (s.takeInput).rxq = s.rxq := rfl
@[simp] theorem State.takeInput_txq (s : State) :
    (s.takeInput).txq = s.txq := rfl
@[simp] theorem State.takeInput_rxbuf (s : State) :
    (s.takeInput).rxbuf = s.rxbuf := rfl
@[simp] theorem State.takeInput_txbuf (s : State) :
    (s.takeInput).txbuf = s.txbuf := rfl
@[simp] theorem State.takeInput_rxCursor (s : State) :
    (s.takeInput).rxCursor = s.rxCursor := rfl
@[simp] theorem State.takeInput_txCursor (s : State) :
    (s.takeInput).txCursor = s.txCursor := rfl
@[simp] theorem State.takeInput_txInProgress (s : State) :
    (s.takeInput).txInProgress = s.txInProgress := rfl
@[simp] theorem State.takeInput_txBlocking (s : State) :
    (s.takeInput).txBlocking = s.txBlocking := rfl
@[simp] theorem State.takeInput_rxArmed (s : State) :
    (s.takeInput).rxArmed = s.rxArmed := rfl
@[simp] theorem State.takeInput_txArmed (s : State) :
    (s.takeInput).txArmed = s.txArmed := rfl
@[simp] theorem State.takeInput_inputs (s : State) :
    (s.takeInput).inputs = s.inputs.tail := rfl
@[simp] theorem State.takeInput_rsp (s : State) :
    (s.takeInput).rsp = s.rsp := rfl
@[simp] theorem State.takeInput_out (s : State) :
    (s.takeInput).out = s.out := rfl

/-! ### Signalling a receive failure -/

@[simp] theorem State.signalRxFail_par (s : State) (k : FailKind) :
    (s.signalRxFail k).par = s.par := rfl
@[simp] theorem State.signalRxFail_rb0 (s : State) (k : FailKind) :
    (s.signalRxFail k).rb0 = s.rb0 := rfl
@[simp] theorem State.signalRxFail_rxq (s : State) (k : FailKind) :
    (s.signalRxFail k).rxq = s.rxq := rfl
@[simp] theorem State.signalRxFail_txq (s : State) (k : FailKind) :
    (s.signalRxFail k).txq = s.txq := rfl
@[simp] theorem State.signalRxFail_rxbuf (s : State) (k : FailKind) :
    (s.signalRxFail k).rxbuf = s.rxbuf := rfl
@[simp] theorem State.signalRxFail_txbuf (s : State) (k : FailKind) :
    (s.signalRxFail k).txbuf = s.txbuf := rfl
@[simp] theorem State.signalRxFail_rxCursor (s : State) (k : FailKind) :
    (s.signalRxFail k).rxCursor = 0 := rfl
@[simp] theorem State.signalRxFail_txCursor (s : State) (k : FailKind) :
    (s.signalRxFail k).txCursor = s.txCursor := rfl
@[simp] theorem State.signalRxFail_txInProgress (s : State) (k : FailKind) :
    (s.signalRxFail k).txInProgress = s.txInProgress := rfl
@[simp] theorem State.signalRxFail_txBlocking (s : State) (k : FailKind) :
    (s.signalRxFail k).txBlocking = s.txBlocking := rfl
@[simp] theorem State.signalRxFail_rxArmed (s : State) (k : FailKind) :
    (s.signalRxFail k).rxArmed = s.rxArmed := rfl
@[simp] theorem State.signalRxFail_txArmed (s : State) (k : FailKind) :
    (s.signalRxFail k).txArmed = s.txArmed := rfl
@[simp] theorem State.signalRxFail_inputs (s : State) (k : FailKind) :
    (s.signalRxFail k).inputs = s.inputs := rfl
@[simp] theorem State.signalRxFail_rsp (s : State) (k : FailKind) :
    (s.signalRxFail k).rsp = some .ok := rfl
@[simp] theorem State.signalRxFail_out (s : State) (k : FailKind) :
    (s.signalRxFail k).out = [.event (.rxFail k)] := rfl

/-! ### Reset -/

@[simp] theorem State.toReset_par (s : State) :
    (s.toReset).par = s.par := rfl
@[simp] theorem State.toReset_rb0 (s : State) :
    (s.toReset).rb0 = s.rb0.clear := rfl
@[simp] theorem State.toReset_rxq (s : State) :
    (s.toReset).rxq = s.rxq.clear := rfl
@[simp] theorem State.toReset_txq (s : State) :
    (s.toReset).txq = s.txq.clear := rfl
@[simp] theorem State.toReset_rxbuf (s : State) :
    (s.toReset).rxbuf = s.rxbuf := rfl
@[simp] theorem State.toReset_txbuf (s : State) :
    (s.toReset).txbuf = s.txbuf := rfl
@[simp] theorem State.toReset_rxCursor (s : State) :
    (s.toReset).rxCursor = 0 := rfl
@[simp] theorem State.toReset_txCursor (s : State) :
    (s.toReset).txCursor = 0 := rfl
@[simp] theorem State.toReset_txInProgress (s : State) :
    (s.toReset).txInProgress = false := rfl
@[simp] theorem State.toReset_txBlocking (s : State) :
    (s.toReset).txBlocking = false := rfl
@[simp] theorem State.toReset_rxArmed (s : State) :
    (s.toReset).rxArmed = false := rfl
@[simp] theorem State.toReset_txArmed (s : State) :
    (s.toReset).txArmed = false := rfl
@[simp] theorem State.toReset_inputs (s : State) :
    (s.toReset).inputs = s.inputs := rfl
@[simp] theorem State.toReset_rsp (s : State) :
    (s.toReset).rsp = none := rfl
@[simp] theorem State.toReset_out (s : State) :
    (s.toReset).out = [] := rfl

/-! ### Storing a received byte -/

@[simp] theorem State.storeRxByte_par (s : State) (b : Byte) :
    (s.storeRxByte b).par = s.par := rfl
@[simp] theorem State.storeRxByte_rb0 (s : State) (b : Byte) :
    (s.storeRxByte b).rb0 = s.rb0 := rfl
@[simp] theorem State.storeRxByte_rxq (s : State) (b : Byte) :
    (s.storeRxByte b).rxq = s.rxq := rfl
@[simp] theorem State.storeRxByte_txq (s : State) (b : Byte) :
    (s.storeRxByte b).txq = s.txq := rfl
@[simp] theorem State.storeRxByte_rxbuf (s : State) (b : Byte) :
    (s.storeRxByte b).rxbuf = s.rxbuf.write s.rxCursor b := rfl
@[simp] theorem State.storeRxByte_txbuf (s : State) (b : Byte) :
    (s.storeRxByte b).txbuf = s.txbuf := rfl
@[simp] theorem State.storeRxByte_rxCursor (s : State) (b : Byte) :
    (s.storeRxByte b).rxCursor = s.rxCursor + 1 := rfl
@[simp] theorem State.storeRxByte_txCursor (s : State) (b : Byte) :
    (s.storeRxByte b).txCursor = s.txCursor := rfl
@[simp] theorem State.storeRxByte_txInProgress (s : State) (b : Byte) :
    (s.storeRxByte b).txInProgress = s.txInProgress := rfl
@[simp] theorem State.storeRxByte_txBlocking (s : State) (b : Byte) :
    (s.storeRxByte b).txBlocking = s.txBlocking := rfl
@[simp] theorem State.storeRxByte_rxArmed (s : State) (b : Byte) :
    (s.storeRxByte b).rxArmed = s.rxArmed := rfl
@[simp] theorem State.storeRxByte_txArmed (s : State) (b : Byte) :
    (s.storeRxByte b).txArmed = s.txArmed := rfl
@[simp] theorem State.storeRxByte_inputs (s : State) (b : Byte) :
    (s.storeRxByte b).inputs = s.inputs := rfl
@[simp] theorem State.storeRxByte_rsp (s : State) (b : Byte) :
    (s.storeRxByte b).rsp = s.rsp := rfl
@[simp] theorem State.storeRxByte_out (s : State) (b : Byte) :
    (s.storeRxByte b).out = s.out := rfl

/-! ### Rings -/

@[simp] theorem RingBuf.clear_wcur (q : RingBuf) : q.clear.wcur = 0 := rfl
@[simp] theorem RingBuf.clear_count (q : RingBuf) : q.clear.count = 0 := rfl
@[simp] theorem RingBuf.clear_slot (q : RingBuf) : q.clear.slot = q.slot := rfl
@[simp] theorem rb0Shape_K (c : Params) : (rb0Shape c).K = c.K0 := rfl
@[simp] theorem rb0Shape_S (c : Params) : (rb0Shape c).S = c.S0 := rfl
@[simp] theorem queueShape_K (c : Params) : (queueShape c).K = c.KQ := rfl
@[simp] theorem queueShape_S (c : Params) : (queueShape c).S = c.P := rfl

end Sys2Proof.Machine
end

