-- ==== Sys2Proof/Laws/RingBuf.lean ====
section
/-!
SUPPORT. What each ring-buffer operation can do, said once: the provers cite these instead of
unfolding `RingBuf.put`, `RingBuf.pop` and `RingBuf.peek`.
-/

namespace Sys2Proof.Machine

theorem Shape.cap_pos (g : Shape) : 0 < g.cap := Nat.two_pow_pos g.K

theorem Shape.count_le_pred_iff (g : Shape) (c : Nat) : c ≤ g.cap - 1 ↔ c < g.cap := by
  have := g.cap_pos; omega

/-- Every slot index is below the capacity (20_memory.md R53). -/
theorem RingBuf.slotIndex_lt (g : Shape) (q : RingBuf) (n : Nat) : q.slotIndex g n < g.cap := by
  have hp : (0 : Int) < (g.cap : Int) := by exact_mod_cast g.cap_pos
  have h1 := Int.emod_nonneg ((q.wcur : Int) - q.count + n) (Int.ne_of_gt hp)
  have h2 := Int.emod_lt_of_pos ((q.wcur : Int) - q.count + n) hp
  unfold RingBuf.slotIndex
  omega

/-- All that `q.put(v)` can do. -/
theorem RingBuf.put_cases (g : Shape) (q : RingBuf) (v : List Byte) :
    (q.count < g.cap ∧ q.wcur < g.cap ∧ v.length = g.S ∧
      q.put g v = .done { wcur := (q.wcur + 1) % g.cap, count := q.count + 1,
                          slot := q.slot.writeBytes (q.wcur * g.S) v }) ∨
    (g.cap ≤ q.count ∧ q.put g v = .fail) ∨
    (q.count < g.cap ∧ ¬ (q.wcur < g.cap ∧ v.length = g.S) ∧
      q.put g v = .stop .outsideStorage) := by
  by_cases hc : q.count < g.cap
  · by_cases hw : q.wcur < g.cap ∧ v.length = g.S
    · refine .inl ⟨hc, hw.1, hw.2, ?_⟩
      simp [RingBuf.put, (g.count_le_pred_iff _).mpr hc, RingBuf.writeSlot, hw]
    · refine .inr (.inr ⟨hc, hw, ?_⟩)
      simp only [RingBuf.put, (g.count_le_pred_iff _).mpr hc, RingBuf.writeSlot, if_neg hw, if_true]
  · refine .inr (.inl ⟨by omega, ?_⟩)
    have : ¬ q.count ≤ g.cap - 1 := by rw [g.count_le_pred_iff]; exact hc
    simp [RingBuf.put, this]

/-- When `q.put(v)` succeeds, and with what. -/
theorem RingBuf.put_done_iff (g : Shape) (q q' : RingBuf) (v : List Byte) :
    q.put g v = .done q' ↔
      q.count < g.cap ∧ q.wcur < g.cap ∧ v.length = g.S ∧
      q' = { wcur := (q.wcur + 1) % g.cap, count := q.count + 1,
             slot := q.slot.writeBytes (q.wcur * g.S) v } := by
  rcases q.put_cases g v with ⟨h1, h2, h3, e⟩ | ⟨h1, e⟩ | ⟨h1, h2, e⟩
  · simp [e, h1, h2, h3, eq_comm]
  · simp [e]; omega
  · simp only [e, reduceCtorEq, false_iff]
    rintro ⟨-, a, b, -⟩; exact h2 ⟨a, b⟩

theorem RingBuf.put_fail_iff (g : Shape) (q : RingBuf) (v : List Byte) :
    q.put g v = .fail ↔ g.cap ≤ q.count := by
  rcases q.put_cases g v with ⟨h1, h2, h3, e⟩ | ⟨h1, e⟩ | ⟨h1, h2, e⟩
  · simp [e]; omega
  · simp [e, h1]
  · simp [e]; omega

/-- All that `q.pop()` can do. -/
theorem RingBuf.pop_cases (g : Shape) (q : RingBuf) :
    (∃ v, 1 ≤ q.count ∧ q.readSlot g (q.slotIndex g 0) = some v ∧
      q.pop g = .done (v, { q with count := q.count - 1 })) ∨
    (q.count = 0 ∧ q.pop g = .fail) ∨
    (1 ≤ q.count ∧ q.readSlot g (q.slotIndex g 0) = none ∧ q.pop g = .stop .unwrittenCell) := by
  by_cases hc : 1 ≤ q.count
  · cases hr : q.readSlot g (q.slotIndex g 0) with
    | some v => exact .inl ⟨v, hc, rfl, by simp [RingBuf.pop, hc, hr]⟩
    | none => exact .inr (.inr ⟨hc, rfl, by simp [RingBuf.pop, hc, hr]⟩)
  · exact .inr (.inl ⟨by omega, by simp [RingBuf.pop, hc]⟩)

theorem RingBuf.pop_done_iff (g : Shape) (q q' : RingBuf) (v : List Byte) :
    q.pop g = .done (v, q') ↔
      1 ≤ q.count ∧ q.readSlot g (q.slotIndex g 0) = some v ∧ q' = { q with count := q.count - 1 } := by
  rcases q.pop_cases g with ⟨w, h1, h2, e⟩ | ⟨h1, e⟩ | ⟨h1, h2, e⟩
  · simp [e, h1, h2, eq_comm]
  · simp [e]; omega
  · simp [e, h2]

theorem RingBuf.pop_fail_iff (g : Shape) (q : RingBuf) : q.pop g = .fail ↔ q.count = 0 := by
  rcases q.pop_cases g with ⟨w, h1, h2, e⟩ | ⟨h1, e⟩ | ⟨h1, h2, e⟩
  · simp [e]; omega
  · simp [e, h1]
  · simp [e]; omega

/-- All that `q.peek(n)` can do. -/
theorem RingBuf.peek_cases (g : Shape) (q : RingBuf) (n : Nat) :
    (∃ v, n < q.count ∧ q.readSlot g (q.slotIndex g n) = some v ∧ q.peek g n = .done v) ∨
    (q.count ≤ n ∧ q.peek g n = .fail) ∨
    (n < q.count ∧ q.readSlot g (q.slotIndex g n) = none ∧ q.peek g n = .stop .unwrittenCell) := by
  by_cases hc : n < q.count
  · cases hr : q.readSlot g (q.slotIndex g n) with
    | some v => exact .inl ⟨v, hc, rfl, by simp [RingBuf.peek, hc, hr]⟩
    | none => exact .inr (.inr ⟨hc, rfl, by simp [RingBuf.peek, hc, hr]⟩)
  · exact .inr (.inl ⟨by omega, by simp [RingBuf.peek, hc]⟩)

theorem RingBuf.readSlot_length {g : Shape} {q : RingBuf} {i : Nat} {v : List Byte}
    (h : q.readSlot g i = some v) : v.length = g.S := Memory.readBytes_length h

@[simp] theorem RingBuf.readSlot_withCount (g : Shape) (q : RingBuf) (c i : Nat) :
    RingBuf.readSlot g { q with count := c } i = q.readSlot g i := rfl

/-- The slot just written reads as the item, every other slot as before. -/
theorem RingBuf.readSlot_after_write {g : Shape} {q : RingBuf} {v : List Byte} (hv : v.length = g.S)
    (w c i j : Nat) :
    RingBuf.readSlot g ⟨w, c, q.slot.writeBytes (j * g.S) v⟩ i =
      if i = j then some v else q.readSlot g i := by
  unfold RingBuf.readSlot
  split
  · rename_i h; subst h
    simp only
    rw [← hv]
    exact Memory.readBytes_writeBytes_self _ _ _
  · rename_i h
    apply Memory.readBytes_writeBytes_disjoint
    rcases Nat.lt_or_gt_of_ne h with h | h
    · left
      have : (i + 1) * g.S ≤ j * g.S := Nat.mul_le_mul_right _ h
      rw [Nat.add_mul] at this; omega
    · right
      have : (j + 1) * g.S ≤ i * g.S := Nat.mul_le_mul_right _ h
      rw [Nat.add_mul] at this; omega

end Sys2Proof.Machine
end

