-- ==== Sys2Proof/Laws/RingItems.lean ====
section
/-!
SUPPORT. A ring buffer as the list of its items: where the items lie after each operation, and
that each operation keeps the ring's invariant (10_state.md R21, R22).
-/

namespace Sys2Proof.Machine

/-- Two slot indices are equal when the ages are congruent modulo the capacity. -/
theorem RingBuf.slotIndex_congr {g : Shape} {q q' : RingBuf} {n n' : Nat}
    (h : ((q.wcur : Int) - q.count + n) % g.cap = ((q'.wcur : Int) - q'.count + n') % g.cap) :
    q.slotIndex g n = q'.slotIndex g n' := by unfold RingBuf.slotIndex; rw [h]

/-- A `put` moves no item. -/
theorem RingBuf.slotIndex_after_put (g : Shape) (q : RingBuf) (m : Memory) (n : Nat) :
    RingBuf.slotIndex g ⟨(q.wcur + 1) % g.cap, q.count + 1, m⟩ n = q.slotIndex g n := by
  apply RingBuf.slotIndex_congr
  have h := ((Int.mod_modEq ((q.wcur : Int) + 1) g.cap).sub_right ((q.count : Int) + 1)).add_right n
  rw [show (q.wcur : Int) + 1 - (q.count + 1) + n = q.wcur - q.count + n by ring] at h
  simpa [Int.natCast_emod] using h.eq

/-- A `pop` makes every item one younger. -/
theorem RingBuf.slotIndex_after_pop {g : Shape} {q : RingBuf} (h : 1 ≤ q.count) (n : Nat) :
    RingBuf.slotIndex g { q with count := q.count - 1 } n = q.slotIndex g (n + 1) := by
  apply RingBuf.slotIndex_congr
  congr 1
  simp only
  omega

/-- The slot the next `put` writes comes after the youngest item. -/
theorem RingBuf.slotIndex_count {g : Shape} {q : RingBuf} (h : q.wcur < g.cap) :
    q.slotIndex g q.count = q.wcur := by
  unfold RingBuf.slotIndex
  rw [show (q.wcur : Int) - q.count + q.count = q.wcur by ring,
    Int.emod_eq_of_lt (by omega) (by exact_mod_cast h)]
  simp

/-- Ages below the capacity name different slots. -/
theorem RingBuf.slotIndex_inj {g : Shape} {q : RingBuf} {n k : Nat} (hn : n ≤ k) (hk : k < n + g.cap)
    (h : q.slotIndex g n = q.slotIndex g k) : n = k := by
  have hp : (0 : Int) < (g.cap : Int) := by exact_mod_cast g.cap_pos
  have h1 := Int.emod_nonneg ((q.wcur : Int) - q.count + n) (Int.ne_of_gt hp)
  have h2 := Int.emod_nonneg ((q.wcur : Int) - q.count + k) (Int.ne_of_gt hp)
  unfold RingBuf.slotIndex at h
  have h3 : ((q.wcur : Int) - q.count + n) % g.cap = ((q.wcur : Int) - q.count + k) % g.cap := by omega
  have h4 := Int.emod_emod_of_dvd ((k : Int) - n) (Int.dvd_refl (g.cap : Int))
  have h5 : ((k : Int) - n) % g.cap = 0 := by
    have : (k : Int) - n = ((q.wcur : Int) - q.count + k) - ((q.wcur : Int) - q.count + n) := by ring
    rw [this, Int.sub_emod, h3]; simp
  rw [Int.emod_eq_of_lt (by omega) (by omega)] at h5
  omega

@[simp] theorem RingBuf.items_length (g : Shape) (q : RingBuf) : (q.items g).length = q.count := by
  simp [RingBuf.items]

theorem RingBuf.items_getElem? {g : Shape} {q : RingBuf} {n : Nat} (h : n < q.count) :
    (q.items g)[n]? = some (q.readSlot g (q.slotIndex g n)) := by
  simp [RingBuf.items, h]

/-- A slot that holds an item is not the one the next `put` writes, unless the ring is full. -/
theorem RingBuf.slotIndex_ne_wcur {g : Shape} {q : RingBuf} {n : Nat} (hn : n < q.count)
    (hc : q.count < g.cap) (hw : q.wcur < g.cap) : q.slotIndex g n ≠ q.wcur := by
  intro h
  rw [← RingBuf.slotIndex_count hw] at h
  have := RingBuf.slotIndex_inj (Nat.le_of_lt hn) (by omega) h
  omega

/-- What is read of an item after a successful `put`. -/
theorem RingBuf.readSlot_after_put {g : Shape} {q : RingBuf} {v : List Byte} (hv : v.length = g.S)
    (hc : q.count < g.cap) (hw : q.wcur < g.cap) {n : Nat} (hn : n ≤ q.count) :
    RingBuf.readSlot g ⟨(q.wcur + 1) % g.cap, q.count + 1, q.slot.writeBytes (q.wcur * g.S) v⟩
        (q.slotIndex g n) =
      if n = q.count then some v else q.readSlot g (q.slotIndex g n) := by
  rw [RingBuf.readSlot_after_write hv]
  by_cases h : n = q.count
  · subst h; rw [if_pos (RingBuf.slotIndex_count hw), if_pos rfl]
  · rw [if_neg (RingBuf.slotIndex_ne_wcur (by omega) hc hw), if_neg h]

/-- A successful `put` appends its item (40_ring_buffer.md R104). -/
theorem RingBuf.items_put {g : Shape} {q q' : RingBuf} {v : List Byte} (h : q.put g v = .done q') :
    q'.items g = q.items g ++ [some v] := by
  obtain ⟨hc, hw, hv, rfl⟩ := (RingBuf.put_done_iff _ _ _ _).mp h
  apply List.ext_getElem?
  intro n
  by_cases hn : n < q.count
  · rw [RingBuf.items_getElem? (show n < q.count + 1 by omega),
      List.getElem?_append_left (by simpa using hn), RingBuf.items_getElem? hn,
      RingBuf.slotIndex_after_put, RingBuf.readSlot_after_put hv hc hw (by omega), if_neg (by omega)]
  · by_cases hn' : n = q.count
    · subst hn'
      rw [RingBuf.items_getElem? (show q.count < q.count + 1 by omega),
        List.getElem?_append_right (by simp), RingBuf.slotIndex_after_put,
        RingBuf.readSlot_after_put hv hc hw (by omega), if_pos rfl]
      simp
    · rw [List.getElem?_eq_none (by simp; omega), List.getElem?_eq_none (by simp; omega)]

/-- A successful `pop` takes the first item (40_ring_buffer.md R104). -/
theorem RingBuf.items_pop {g : Shape} {q q' : RingBuf} {v : List Byte}
    (h : q.pop g = .done (v, q')) : q.items g = some v :: q'.items g := by
  obtain ⟨hc, hr, rfl⟩ := (RingBuf.pop_done_iff _ _ _ _).mp h
  apply List.ext_getElem?
  intro n
  cases n with
  | zero => rw [RingBuf.items_getElem? (by omega), hr]; rfl
  | succ n =>
    rw [List.getElem?_cons_succ]
    by_cases hn : n < q.count - 1
    · rw [RingBuf.items_getElem? (by omega), RingBuf.items_getElem? hn,
        RingBuf.slotIndex_after_pop hc]
      rfl
    · rw [List.getElem?_eq_none (by simp; omega), List.getElem?_eq_none (by simp; omega)]

/-! ### The invariant of a ring buffer -/

theorem RingBuf.blank_inv (g : Shape) : RingBuf.blank.Inv g where
  count_le := by simp [RingBuf.blank]
  wcur_lt := g.cap_pos
  occupied := by intro n hn; simp [RingBuf.blank] at hn
  canonical := by simp [RingBuf.blank]
  within := by intro x hx; simp [RingBuf.blank] at hx

theorem RingBuf.put_inv {g : Shape} {q q' : RingBuf} {v : List Byte} (hq : q.Inv g)
    (h : q.put g v = .done q') : q'.Inv g := by
  obtain ⟨hc, hw, hv, rfl⟩ := (RingBuf.put_done_iff _ _ _ _).mp h
  refine ⟨hc, Nat.mod_lt _ g.cap_pos, fun n hn => ?_, Memory.writeBytes_wf _ _ hq.canonical,
    Memory.writeBytes_within hq.within ?_⟩
  · rw [RingBuf.slotIndex_after_put, RingBuf.readSlot_after_put hv hc hw (Nat.le_of_lt_succ hn)]
    split
    · rfl
    · rename_i hne
      have : n < q.count + 1 := hn
      exact hq.occupied n (by omega)
  · have : (q.wcur + 1) * g.S ≤ g.cap * g.S := Nat.mul_le_mul_right _ hw
    rw [Nat.add_mul] at this; omega

theorem RingBuf.pop_inv {g : Shape} {q q' : RingBuf} {v : List Byte} (hq : q.Inv g)
    (h : q.pop g = .done (v, q')) : q'.Inv g := by
  obtain ⟨hc, hr, rfl⟩ := (RingBuf.pop_done_iff _ _ _ _).mp h
  refine ⟨Nat.le_trans (Nat.sub_le _ _) hq.count_le, hq.wcur_lt, fun n hn => ?_, hq.canonical,
    hq.within⟩
  have hn' : n < q.count - 1 := hn
  rw [RingBuf.slotIndex_after_pop hc, RingBuf.readSlot_withCount]
  exact hq.occupied (n + 1) (by omega)

theorem RingBuf.clear_inv {g : Shape} {q : RingBuf} (hq : q.Inv g) : q.clear.Inv g where
  count_le := by simp
  wcur_lt := g.cap_pos
  occupied := by intro n hn; simp at hn
  canonical := hq.canonical
  within := hq.within

/-- On a ring that meets its invariant a `put` of an item never stops. -/
theorem RingBuf.put_of_inv {g : Shape} {q : RingBuf} {v : List Byte} (hq : q.Inv g)
    (hv : v.length = g.S) : (∃ q', q.put g v = .done q') ∨ q.put g v = .fail := by
  rcases q.put_cases g v with ⟨-, -, -, e⟩ | ⟨-, e⟩ | ⟨-, h, -⟩
  · exact .inl ⟨_, e⟩
  · exact .inr e
  · exact absurd ⟨hq.wcur_lt, hv⟩ h

/-- On a ring that meets its invariant a `pop` never stops. -/
theorem RingBuf.pop_of_inv {g : Shape} {q : RingBuf} (hq : q.Inv g) :
    (∃ v q', q.pop g = .done (v, q')) ∨ q.pop g = .fail := by
  rcases q.pop_cases g with ⟨v, -, -, e⟩ | ⟨-, e⟩ | ⟨h, hr, -⟩
  · exact .inl ⟨v, _, e⟩
  · exact .inr e
  · have := hq.occupied 0 (by omega)
    rw [hr] at this; cases this

theorem RingBuf.peek_of_inv {g : Shape} {q : RingBuf} (hq : q.Inv g) (n : Nat) :
    (∃ v, q.peek g n = .done v) ∨ q.peek g n = .fail := by
  rcases q.peek_cases g n with ⟨v, -, -, e⟩ | ⟨-, e⟩ | ⟨h, hr, -⟩
  · exact .inl ⟨v, e⟩
  · exact .inr e
  · have := hq.occupied n h
    rw [hr] at this; cases this

end Sys2Proof.Machine
end

