-- ==== Sys2Proof/Laws/EventCore.lean ====
section
/-!
SUPPORT. The host's Event Dispatch Core: events as items, and what each of its operations, and a
handler that calls them, leaves of the queue and the table (44_host_event_dispatch.md R171 to R175).
-/

namespace Sys2Proof.Machine

/-! ### Events as items -/

/-- An item is `SE` bytes (44_host_event_dispatch.md R173). -/
theorem HostEvent.toItem_length {SE : Nat} {e : HostEvent} (h : e.fits SE) :
    (e.toItem SE).length = SE := by
  obtain ⟨h1, h2⟩ := h
  cases ha : e.arg with
  | none => simp [HostEvent.toItem, ha, nullReference]; omega
  | some r => simpa [HostEvent.toItem, ha] using (h2 r ha).1

/-- An event comes back from its item, its argument null or not. -/
theorem HostEvent.ofItem_toItem {SE : Nat} {e : HostEvent} (h : e.fits SE) :
    HostEvent.ofItem (e.toItem SE) = e := by
  obtain ⟨c, a⟩ := e
  cases a with
  | none => simp [HostEvent.toItem, HostEvent.ofItem, nullReference]
  | some r =>
    obtain ⟨h1, h2⟩ := h.2 r rfl
    rw [show SE - 1 = r.length by omega] at h2
    simp [HostEvent.toItem, HostEvent.ofItem, h2]

/-- Any item of `EVQ` that begins with a code is that of the event it stands for. -/
theorem HostEvent.toItem_ofItem (c : Byte) (a : List Byte) :
    (HostEvent.ofItem (c :: a)).toItem (a.length + 1) = c :: a := by
  by_cases h : a = nullReference a.length
  · simp [HostEvent.ofItem, HostEvent.toItem, ← h]
  · simp [HostEvent.ofItem, HostEvent.toItem, h]

/-! ### What the operations leave -/

/-- What the dispatch core owns and no operation changes: the shape of `EVQ`, and the ids and codes
of the table in their order (44_host_event_dispatch.md R172, R173). -/
def EventCore.fixed (h : EventCore) : Shape × List (Byte × Byte) :=
  (h.shape, h.table.map fun e => (e.id, e.code))

/-- All that `dispatch` can do. -/
theorem EventCore.dispatch_cases (h : EventCore) (e : HostEvent) :
    (∃ q, h.evq.put h.shape (e.toItem h.shape.S) = .done q ∧
      h.dispatch e = .done (true, { h with evq := q })) ∨
    (h.shape.cap ≤ h.evq.count ∧ h.dispatch e = .done (false, h)) ∨
    (∃ f, h.dispatch e = .stop f) := by
  unfold EventCore.dispatch
  split
  · rename_i q hq; exact .inl ⟨q, hq, rfl⟩
  · rename_i hq; exact .inr (.inl ⟨(RingBuf.put_fail_iff _ _ _).mp hq, rfl⟩)
  · rename_i f _; exact .inr (.inr ⟨f, rfl⟩)

@[simp] theorem EventCore.setEnabled_evq (h : EventCore) (id : Byte) (b : Bool) :
    (h.setEnabled id b).evq = h.evq := rfl
@[simp] theorem EventCore.setEnabled_shape (h : EventCore) (id : Byte) (b : Bool) :
    (h.setEnabled id b).shape = h.shape := rfl
@[simp] theorem EventCore.setEnabledByCode_evq (h : EventCore) (code : Byte) (b : Bool) :
    (h.setEnabledByCode code b).evq = h.evq := rfl
@[simp] theorem EventCore.setEnabledByCode_shape (h : EventCore) (code : Byte) (b : Bool) :
    (h.setEnabledByCode code b).shape = h.shape := rfl

theorem enableFirst_fixed (id : Byte) (b : Bool) (l : List HandlerEntry) :
    (enableFirst id b l).map (fun e => (e.id, e.code)) = l.map fun e => (e.id, e.code) := by
  induction l with
  | nil => rfl
  | cons e l ih =>
    simp only [enableFirst]
    split
    · rfl
    · simp [ih]

@[simp] theorem EventCore.setEnabled_fixed (h : EventCore) (id : Byte) (b : Bool) :
    (h.setEnabled id b).fixed = h.fixed := by
  simp [EventCore.fixed, EventCore.setEnabled, enableFirst_fixed]

@[simp] theorem EventCore.setEnabledByCode_fixed (h : EventCore) (code : Byte) (b : Bool) :
    (h.setEnabledByCode code b).fixed = h.fixed := by
  simp only [EventCore.fixed, EventCore.setEnabledByCode, List.map_map]
  congr 1
  apply List.map_congr_left
  intro e _
  simp only [Function.comp]
  split <;> rfl

/-- A handler changes nothing of the shape, the ids and the codes, and `EVQ` stays a ring buffer:
it has no access to them but by the operations. -/
theorem HandlerRun.carryOut_keeps {σ : Type} {m : HandlerRun σ} {h : EventCore}
    {stop : Bool} {w : EventCore × σ} (hq : h.evq.Inv h.shape)
    (hm : m.carryOut h = some (stop, w)) : w.1.fixed = h.fixed ∧ w.1.evq.Inv w.1.shape := by
  induction m generalizing h with
  | finish b x => cases hm; exact ⟨rfl, hq⟩
  | dispatch e rest ih =>
    simp only [HandlerRun.carryOut] at hm
    rcases h.dispatch_cases e with ⟨q, hp, hd⟩ | ⟨-, hd⟩ | ⟨f, hd⟩
    · rw [hd] at hm
      exact ih true (h := { h with evq := q }) (RingBuf.put_inv hq hp) hm
    · rw [hd] at hm; exact ih false hq hm
    · rw [hd] at hm; cases hm
  | setEnabled id b rest ih =>
    have := ih (h := h.setEnabled id b) hq hm
    rwa [EventCore.setEnabled_fixed] at this
  | setEnabledByCode code b rest ih =>
    have := ih (h := h.setEnabledByCode code b) hq hm
    rwa [EventCore.setEnabledByCode_fixed] at this

theorem EventCore.initial_inv (g : Shape) (table : List HandlerEntry) :
    (EventCore.initial g table).evq.Inv (EventCore.initial g table).shape := RingBuf.blank_inv g

end Sys2Proof.Machine
end

