-- ==== Sys2Proof/Laws/Transport.lean ====
section
/-!
SUPPORT. What each shared step of the transport can do, said once: the frame as a byte string,
`checkPreamble`, `endOfFrame`, `acceptPacket`, `startFrame` and `retireFrame`.
-/

namespace Sys2Proof.Machine

@[simp] theorem quad_toList_length (q : Quad) : q.toList.length = 4 := rfl

theorem Params.F_eq (c : Params) : c.F = c.P + 8 := rfl

theorem frameOf_length {c : Params} {pkt : List Byte} (h : pkt.length = c.P) :
    (frameOf c pkt).length = c.F := by
  simp [frameOf, Params.F, h]; omega

/-- The three regions of a frame (10_state.md R27). -/
theorem frameOf_take (c : Params) (pkt : List Byte) : (frameOf c pkt).take 4 = c.pre.toList := by
  simp [frameOf, Quad.toList]

theorem frameOf_packet {c : Params} {pkt : List Byte} (h : pkt.length = c.P) :
    ((frameOf c pkt).drop 4).take c.P = pkt := by
  simp [frameOf, Quad.toList, ← h]

theorem frameOf_drop {c : Params} {pkt : List Byte} (h : pkt.length = c.P) :
    (frameOf c pkt).drop (c.F - 4) = c.post.toList := by
  rw [show c.F - 4 = (c.pre.toList ++ pkt).length by simp [Params.F, h]; omega]
  exact List.drop_left

/-- The storage after a frame start holds the frame. -/
theorem readBytes_frame {c : Params} {pkt : List Byte} (m : Memory) (h : pkt.length = c.P) :
    (m.writeBytes 0 (frameOf c pkt)).readBytes 0 c.F = some (frameOf c pkt) := by
  rw [← frameOf_length h]; exact Memory.readBytes_writeBytes_self _ _ _

/-- The regions of a storage that holds a frame. -/
theorem readBytes_regions {c : Params} {pkt : List Byte} {m : Memory} (h : pkt.length = c.P)
    (hm : m.readBytes 0 c.F = some (frameOf c pkt)) :
    m.readBytes 0 4 = some c.pre.toList ∧ m.readBytes 4 c.P = some pkt ∧
      m.readBytes (c.F - 4) 4 = some c.post.toList := by
  have hF : c.F = c.P + 8 := rfl
  refine ⟨?_, ?_, ?_⟩
  · have := Memory.readBytes_part hm (k := 0) (l := 4) (by omega)
    simpa [frameOf_take] using this
  · have := Memory.readBytes_part hm (k := 4) (l := c.P) (by omega)
    simpa [frameOf_packet h] using this
  · have := Memory.readBytes_part hm (k := c.F - 4) (l := 4) (by omega)
    rw [frameOf_drop h, List.take_of_length_le (by simp)] at this
    simpa using this

theorem State.startFrame_eq_some_iff (s t : State) (pkt : List Byte) :
    s.startFrame pkt = some t ↔
      pkt.length = s.par.P ∧
      t = { s with txbuf := s.txbuf.writeBytes 0 (frameOf s.par pkt), txCursor := 1,
                   txInProgress := true } := by
  unfold State.startFrame
  split
  · rename_i h; simp [h, eq_comm]
  · rename_i h; simp [h]

/-- All that retiring a frame can do. -/
theorem State.retireFrame_cases (s : State) (pkt : List Byte) :
    (∃ v, 1 ≤ s.txq.count ∧
      s.txq.readSlot (queueShape s.par) (s.txq.slotIndex (queueShape s.par) 0) = some v ∧
      s.retireFrame pkt = .next
        { s with
          txq := { s.txq with count := s.txq.count - 1 }
          txbuf := s.txbuf.writeBytes 0 (frameOf s.par v)
          txCursor := 1
          txInProgress := true
          rsp := some .ok
          out := [.event (.txOk pkt), .serOut s.par.pre.b0] }) ∨
    (s.txq.count = 0 ∧
      s.retireFrame pkt = .next
        { s with txInProgress := false, rsp := some .ok, out := [.event (.txOk pkt)] }) ∨
    (1 ≤ s.txq.count ∧
      s.txq.readSlot (queueShape s.par) (s.txq.slotIndex (queueShape s.par) 0) = none ∧
      s.retireFrame pkt = .fault .unwrittenCell) := by
  rcases s.txq.pop_cases (queueShape s.par) with ⟨v, h1, h2, e⟩ | ⟨h1, e⟩ | ⟨h1, h2, e⟩
  · refine .inl ⟨v, h1, h2, ?_⟩
    have hl : v.length = s.par.P := RingBuf.readSlot_length h2
    simp [State.retireFrame, e, State.startFrame, hl, State.answer, firstByte]
  · exact .inr (.inl ⟨h1, by simp [State.retireFrame, e, State.answer]⟩)
  · exact .inr (.inr ⟨h1, h2, by simp [State.retireFrame, e]⟩)

/-- All that the preamble check can do. -/
theorem State.checkPreamble_cases (s : State) :
    (s.rxCursor ≠ 4 ∧ s.checkPreamble = some s) ∨
    (s.rxCursor = 4 ∧ s.rxbuf.readBytes 0 4 = some s.par.pre.toList ∧
      s.checkPreamble = some s) ∨
    (∃ w, s.rxCursor = 4 ∧ s.rxbuf.readBytes 0 4 = some w ∧ w ≠ s.par.pre.toList ∧
      s.checkPreamble =
        some { s with rxbuf := s.rxbuf.writeBytes 0 (w.drop 1), rxCursor := 3 }) ∨
    (s.rxCursor = 4 ∧ s.rxbuf.readBytes 0 4 = none ∧ s.checkPreamble = none) := by
  by_cases h : s.rxCursor = 4
  · cases hr : s.rxbuf.readBytes 0 4 with
    | none => exact .inr (.inr (.inr ⟨h, rfl, by simp [State.checkPreamble, h, hr]⟩))
    | some w =>
      by_cases hw : w = s.par.pre.toList
      · exact .inr (.inl ⟨h, by rw [hw], by simp [State.checkPreamble, h, hr, hw]⟩)
      · exact .inr (.inr (.inl ⟨w, h, rfl, hw, by simp [State.checkPreamble, h, hr, hw]⟩))
  · exact .inl ⟨h, by simp [State.checkPreamble, h]⟩

/-- All that the end of a well-formed frame can do. -/
theorem State.acceptPacket_cases (s : State) (pkt : List Byte) :
    (s.rxq.put (queueShape s.par) pkt = .fail ∧
      s.acceptPacket pkt = .next (s.signalRxFail .bufferFull)) ∨
    (∃ q, s.rxq.put (queueShape s.par) pkt = .done q ∧ s.rxArmed = false ∧
      s.acceptPacket pkt = .next
        { s with rxq := q, rxCursor := 0, rsp := some .ok, out := [] }) ∨
    (∃ q v q', s.rxq.put (queueShape s.par) pkt = .done q ∧ s.rxArmed = true ∧
      q.pop (queueShape s.par) = .done (v, q') ∧
      s.acceptPacket pkt = .next
        { s with rxq := q', rxArmed := false, rxCursor := 0, rsp := some .ok,
                 out := [.event (.rxOk v)] }) ∨
    (∃ f, s.acceptPacket pkt = .fault f) := by
  unfold State.acceptPacket
  split
  · rename_i h; exact .inl ⟨h, rfl⟩
  · rename_i f h; exact .inr (.inr (.inr ⟨f, rfl⟩))
  · rename_i q h
    split
    · rename_i ha
      split
      · rename_i v q' hp
        exact .inr (.inr (.inl ⟨q, v, q', h, ha, hp, rfl⟩))
      · rename_i hp
        exfalso
        obtain ⟨-, -, -, rfl⟩ := (RingBuf.put_done_iff _ _ _ _).mp h
        have := (RingBuf.pop_fail_iff _ _).mp hp
        simp at this
      · rename_i f hp; exact .inr (.inr (.inr ⟨f, rfl⟩))
    · rename_i ha
      exact .inr (.inl ⟨q, h, by simpa using ha, rfl⟩)

/-- All that receive step 3 can do. -/
theorem State.endOfFrame_cases (s : State) :
    (s.rxCursor ≠ s.par.F ∧ s.endOfFrame = .next (s.answer .ok [])) ∨
    (∃ t, s.rxCursor = s.par.F ∧ s.rxbuf.readBytes (s.par.F - 4) 4 = some t ∧
      t ≠ s.par.post.toList ∧ s.endOfFrame = .next (s.signalRxFail .framing)) ∨
    (∃ pkt, s.rxCursor = s.par.F ∧
      s.rxbuf.readBytes (s.par.F - 4) 4 = some s.par.post.toList ∧
      s.rxbuf.readBytes 4 s.par.P = some pkt ∧ s.endOfFrame = s.acceptPacket pkt) ∨
    (s.rxCursor = s.par.F ∧
      (s.rxbuf.readBytes (s.par.F - 4) 4 = none ∨ s.rxbuf.readBytes 4 s.par.P = none) ∧
      s.endOfFrame = .fault .unwrittenCell) := by
  by_cases h : s.rxCursor = s.par.F
  · cases ht : s.rxbuf.readBytes (s.par.F - 4) 4 with
    | none => exact .inr (.inr (.inr ⟨h, .inl rfl, by simp [State.endOfFrame, h, ht]⟩))
    | some t =>
      by_cases hp : t = s.par.post.toList
      · subst hp
        cases hk : s.rxbuf.readBytes 4 s.par.P with
        | none => exact .inr (.inr (.inr ⟨h, .inr rfl, by simp [State.endOfFrame, h, ht, hk]⟩))
        | some pkt =>
          exact .inr (.inr (.inl ⟨pkt, h, rfl, rfl, by simp [State.endOfFrame, h, ht, hk]⟩))
      · exact .inr (.inl ⟨t, h, rfl, hp, by simp [State.endOfFrame, h, ht, hp]⟩)
  · exact .inl ⟨h, by simp [State.endOfFrame, h]⟩

end Sys2Proof.Machine
end

