-- ==== Sys2Proof/Laws/Inversion.lean ====
section
/-!
SUPPORT. What each command can do when it gives a next state, said once per command: the
provers take these apart instead of unfolding the meanings.
-/

namespace Sys2Proof.Machine

/-! ### Ring-buffer commands -/

theorem execPut_inversion {m : Bool} {item : List Byte} {s t : State}
    (h : exec (.put m item) s = .next t) :
    (∃ q, s.rb0.put (rb0Shape s.par) item = .done q ∧
      t = { s with rb0 := q, rsp := some .ok, out := [] }) ∨
    (s.rb0.put (rb0Shape s.par) item = .fail ∧ t = { s with rsp := some .fail, out := [] }) := by
  simp only [exec, execPut] at h
  split at h
  · rename_i q hq; cases h; exact .inl ⟨q, hq, rfl⟩
  · rename_i hq; cases h; exact .inr ⟨hq, rfl⟩
  · cases h

theorem execPop_inversion {dv : Bool} {s t : State} (h : exec (.pop dv) s = .next t) :
    (∃ v q, s.rb0.pop (rb0Shape s.par) = .done (v, q) ∧
      t = { s with rb0 := q, rsp := some (if dv then .okData v else .ok), out := [] }) ∨
    (s.rb0.pop (rb0Shape s.par) = .fail ∧ t = { s with rsp := some .fail, out := [] }) := by
  simp only [exec, execPop] at h
  split at h
  · rename_i v q hq; cases h; exact .inl ⟨v, q, hq, rfl⟩
  · rename_i hq; cases h; exact .inr ⟨hq, rfl⟩
  · cases h

theorem execPeek_inversion {n : BitVec 8} {s t : State} (h : exec (.peek n) s = .next t) :
    (∃ v, s.rb0.peek (rb0Shape s.par) n.toNat = .done v ∧
      t = { s with rsp := some (.okData v), out := [] }) ∨
    (s.rb0.peek (rb0Shape s.par) n.toNat = .fail ∧
      t = { s with rsp := some .fail, out := [] }) := by
  simp only [exec, execPeek] at h
  split at h
  · rename_i v hq; cases h; exact .inl ⟨v, hq, rfl⟩
  · rename_i hq; cases h; exact .inr ⟨hq, rfl⟩
  · cases h

/-! ### Receive commands -/

/-- The ways in which an accepted frame can end, `u` being the state with the frame's last byte
stored. -/
def AcceptedTo (u : State) (pkt : List Byte) (t : State) : Prop :=
  (u.rxq.put (queueShape u.par) pkt = .fail ∧ t = u.signalRxFail .bufferFull) ∨
  (∃ q, u.rxq.put (queueShape u.par) pkt = .done q ∧ u.rxArmed = false ∧
    t = { u with rxq := q, rxCursor := 0, rsp := some .ok, out := [] }) ∨
  (∃ q v q', u.rxq.put (queueShape u.par) pkt = .done q ∧ u.rxArmed = true ∧
    q.pop (queueShape u.par) = .done (v, q') ∧
    t = { u with rxq := q', rxArmed := false, rxCursor := 0, rsp := some .ok,
                 out := [.event (.rxOk v)] })

theorem State.acceptPacket_inversion {u t : State} {pkt : List Byte}
    (h : u.acceptPacket pkt = .next t) : AcceptedTo u pkt t := by
  rcases u.acceptPacket_cases pkt with
    ⟨hp, e⟩ | ⟨q, hp, ha, e⟩ | ⟨q, v, q', hp, ha, ho, e⟩ | ⟨f, e⟩
  · rw [e] at h; cases h; exact .inl ⟨hp, rfl⟩
  · rw [e] at h; cases h; exact .inr (.inl ⟨q, hp, ha, rfl⟩)
  · rw [e] at h; cases h; exact .inr (.inr ⟨q, v, q', hp, ha, ho, rfl⟩)
  · rw [e] at h; cases h

/-- The ways in which an `RXBYTE` can end: ignored, stored, locked, slid, framing error, frame
accepted. -/
theorem execRxbyte_inversion {b : Byte} {s t : State} (h : exec (.rxbyte b) s = .next t) :
    (s.par.F ≤ s.rxCursor ∧ t = { s with rsp := some .ok, out := [] }) ∨
    (s.rxCursor < s.par.F ∧ s.rxCursor ≠ 3 ∧ s.rxCursor + 1 ≠ s.par.F ∧
      t = (s.storeRxByte b).answer .ok []) ∨
    (s.rxCursor = 3 ∧ (s.storeRxByte b).rxbuf.readBytes 0 4 = some s.par.pre.toList ∧
      t = (s.storeRxByte b).answer .ok []) ∨
    (∃ w, s.rxCursor = 3 ∧ (s.storeRxByte b).rxbuf.readBytes 0 4 = some w ∧
      w ≠ s.par.pre.toList ∧
      t = { s with rxbuf := (s.storeRxByte b).rxbuf.writeBytes 0 (w.drop 1), rxCursor := 3,
                   rsp := some .ok, out := [] }) ∨
    (∃ w, s.rxCursor + 1 = s.par.F ∧
      (s.storeRxByte b).rxbuf.readBytes (s.par.F - 4) 4 = some w ∧ w ≠ s.par.post.toList ∧
      t = (s.storeRxByte b).signalRxFail .framing) ∨
    (∃ pkt, s.rxCursor + 1 = s.par.F ∧
      (s.storeRxByte b).rxbuf.readBytes (s.par.F - 4) 4 = some s.par.post.toList ∧
      (s.storeRxByte b).rxbuf.readBytes 4 s.par.P = some pkt ∧
      AcceptedTo (s.storeRxByte b) pkt t) := by
  have hF : s.par.F = s.par.P + 8 := rfl
  simp only [exec, execRxbyte] at h
  split at h
  · rename_i h1; cases h; exact .inl ⟨h1, rfl⟩
  rename_i h1
  split at h
  · rename_i u hu
    rcases (s.storeRxByte b).checkPreamble_cases with
      ⟨hc, e⟩ | ⟨hc, hr, e⟩ | ⟨w, hc, hr, hw, e⟩ | ⟨_, _, e⟩
    · rw [e] at hu; cases hu
      simp only [State.storeRxByte_rxCursor] at hc
      rcases (s.storeRxByte b).endOfFrame_cases with
        ⟨hne, e⟩ | ⟨w, hE, hr, hw, e⟩ | ⟨pkt, hE, hr, hk, e⟩ | ⟨_, _, e⟩
      · rw [e] at h; cases h
        simp only [State.storeRxByte_rxCursor, State.storeRxByte_par] at hne
        exact .inr (.inl ⟨by omega, by omega, hne, rfl⟩)
      · rw [e] at h; cases h
        exact .inr (.inr (.inr (.inr (.inl ⟨w, hE, hr, hw, rfl⟩))))
      · rw [e] at h
        exact .inr (.inr (.inr (.inr (.inr
          ⟨pkt, hE, hr, hk, State.acceptPacket_inversion h⟩))))
      · rw [e] at h; cases h
    · rw [e] at hu; cases hu
      simp only [State.storeRxByte_rxCursor] at hc
      rw [State.endOfFrame, if_neg (by simp; omega)] at h
      cases h
      exact .inr (.inr (.inl ⟨by omega, hr, rfl⟩))
    · rw [e] at hu; cases hu
      simp only [State.storeRxByte_rxCursor] at hc
      rw [State.endOfFrame, if_neg (by simp; omega)] at h
      cases h
      exact .inr (.inr (.inr (.inl ⟨w, by omega, hr, hw, rfl⟩)))
    · rw [e] at hu; cases hu
  · cases h

theorem execRxnext_inversion {s t : State} (h : exec .rxnext s = .next t) :
    (∃ v q, s.rxq.pop (queueShape s.par) = .done (v, q) ∧
      t = { s with rxq := q, rxArmed := false, rsp := some .ok,
                   out := [.event (.rxOk v)] }) ∨
    (s.rxq.pop (queueShape s.par) = .fail ∧
      t = { s with rxArmed := true, rsp := some .ok, out := [] }) := by
  simp only [exec, execRxnext] at h
  split at h
  · rename_i v q hq; cases h; exact .inl ⟨v, q, hq, rfl⟩
  · rename_i hq; cases h; exact .inr ⟨hq, rfl⟩
  · cases h

/-! ### Transmit commands -/

theorem execTx_inversion {pkt : List Byte} {s t : State} (h : exec (.tx pkt) s = .next t) :
    (∃ q, s.txInProgress = true ∧ s.txq.put (queueShape s.par) pkt = .done q ∧
      t = { s with txq := q, rsp := some .ok, out := [] }) ∨
    (s.txInProgress = true ∧ s.txq.put (queueShape s.par) pkt = .fail ∧
      t = { s with rsp := some .fail, out := [] }) ∨
    (s.txInProgress = false ∧ pkt.length = s.par.P ∧
      t = { s with txbuf := s.txbuf.writeBytes 0 (frameOf s.par pkt), txCursor := 1,
                   txInProgress := true, rsp := some .ok, out := [.serOut s.par.pre.b0] }) := by
  simp only [exec, execTx] at h
  split at h
  · rename_i hp
    split at h
    · rename_i q hq; cases h; exact .inl ⟨q, hp, hq, rfl⟩
    · rename_i hq; cases h; exact .inr (.inl ⟨hp, hq, rfl⟩)
    · cases h
  · rename_i hp
    split at h
    · rename_i u hu
      obtain ⟨hl, rfl⟩ := (State.startFrame_eq_some_iff _ _ _).mp hu
      cases h; exact .inr (.inr ⟨by simpa using hp, hl, rfl⟩)
    · cases h

/-- The two ways in which retiring a frame ends: with the next one started, or off. -/
def RetiredTo (s : State) (pkt : List Byte) (t : State) : Prop :=
  (∃ v q, s.txq.pop (queueShape s.par) = .done (v, q) ∧
    t = { s with txq := q, txbuf := s.txbuf.writeBytes 0 (frameOf s.par v), txCursor := 1,
                 txInProgress := true, rsp := some .ok,
                 out := [.event (.txOk pkt), .serOut s.par.pre.b0] }) ∨
  (s.txq.pop (queueShape s.par) = .fail ∧
    t = { s with txInProgress := false, rsp := some .ok, out := [.event (.txOk pkt)] })

theorem State.retireFrame_inversion {s t : State} {pkt : List Byte}
    (h : s.retireFrame pkt = .next t) : RetiredTo s pkt t := by
  simp only [State.retireFrame] at h
  split at h
  · rename_i v q hq
    split at h
    · rename_i u hu
      obtain ⟨hl, rfl⟩ := (State.startFrame_eq_some_iff _ _ _).mp hu
      cases h; exact .inl ⟨v, q, hq, rfl⟩
    · cases h
  · rename_i hq; cases h; exact .inr ⟨hq, rfl⟩
  · cases h

/-- The ways in which a `TXDONE` can end: idle, next byte, completion delivered, completion held. -/
theorem execTxdone_inversion {s t : State} (h : exec .txdone s = .next t) :
    (s.txIrqEn = false ∧ t = { s with rsp := some .ok, out := [] }) ∨
    (∃ b, s.txIrqEn = true ∧ s.txCursor < s.par.F ∧ s.txbuf.read s.txCursor = some b ∧
      t = { s with txCursor := s.txCursor + 1, rsp := some .ok, out := [.serOut b] }) ∨
    (∃ pkt, s.txIrqEn = true ∧ s.par.F ≤ s.txCursor ∧ s.txArmed = true ∧
      s.txbuf.readBytes 4 s.par.P = some pkt ∧ RetiredTo { s with txArmed := false } pkt t) ∨
    (s.txIrqEn = true ∧ s.par.F ≤ s.txCursor ∧ s.txArmed = false ∧
      t = { s with txBlocking := true, rsp := some .ok, out := [] }) := by
  simp only [exec, execTxdone] at h
  split at h
  · rename_i h1; cases h; exact .inl ⟨h1, rfl⟩
  · rename_i h1
    have h1 : s.txIrqEn = true := by simpa using h1
    split at h
    · rename_i h2
      split at h
      · rename_i b hb; cases h; exact .inr (.inl ⟨b, h1, h2, hb, rfl⟩)
      · cases h
    · rename_i h2
      split at h
      · rename_i h3
        split at h
        · rename_i pkt hp
          exact .inr (.inr (.inl ⟨pkt, h1, by omega, h3, hp, State.retireFrame_inversion h⟩))
        · cases h
      · rename_i h3
        cases h
        exact .inr (.inr (.inr ⟨h1, by omega, by simpa using h3, rfl⟩))

theorem execTxnext_inversion {s t : State} (h : exec .txnext s = .next t) :
    (∃ pkt, s.txBlocking = true ∧ s.txbuf.readBytes 4 s.par.P = some pkt ∧
      RetiredTo { s with txBlocking := false } pkt t) ∨
    (s.txBlocking = false ∧ t = { s with txArmed := true, rsp := some .ok, out := [] }) := by
  simp only [exec, execTxnext] at h
  split at h
  · rename_i h1
    split at h
    · rename_i pkt hp; exact .inl ⟨pkt, h1, hp, State.retireFrame_inversion h⟩
    · cases h
  · rename_i h1; cases h; exact .inr ⟨by simpa using h1, rfl⟩

end Sys2Proof.Machine
end

