-- ==== Sys2Proof/Laws/Step.lean ====
section
/-!
SUPPORT. What one step can do, said once.
-/

namespace Sys2Proof.Machine

/-- The ways in which a step gives a next state: nothing presented, `rst`, an illegal word, a
command that runs. -/
theorem step_inversion {s t : State} (h : step s = .next t) :
    (s.inputs = [] ∧ t = s.quiet) ∨
    (∃ rest, s.inputs = .rst :: rest ∧ t = s.takeInput.toReset) ∨
    (∃ cw w rest e, s.inputs = .command cw w :: rest ∧ decode s.par cw w = .error e ∧
      t = s.takeInput.answer .illegal []) ∨
    (∃ cw w rest i, s.inputs = .command cw w :: rest ∧ decode s.par cw w = .ok i ∧
      exec i s.takeInput = .next t) := by
  unfold step at h
  split at h
  · rename_i hi; cases h; exact .inl ⟨hi, rfl⟩
  · rename_i rest hi; cases h; exact .inr (.inl ⟨rest, hi, rfl⟩)
  · rename_i cw w rest hi
    split at h
    · rename_i i hd; exact .inr (.inr (.inr ⟨cw, w, rest, i, hi, hd, h⟩))
    · rename_i e hd; cases h; exact .inr (.inr (.inl ⟨cw, w, rest, e, hi, hd, rfl⟩))

/-- No command changes the parameters (70_reset_and_hazards.md R222). -/
theorem exec_par {i : Instr} {s t : State} (h : exec i s = .next t) : t.par = s.par := by
  cases i with
  | put m v => rcases execPut_inversion h with ⟨q, _, rfl⟩ | ⟨_, rfl⟩ <;> rfl
  | pop dv => rcases execPop_inversion h with ⟨v, q, _, rfl⟩ | ⟨_, rfl⟩ <;> rfl
  | peek n => rcases execPeek_inversion h with ⟨v, _, rfl⟩ | ⟨_, rfl⟩ <;> rfl
  | rxbyte b =>
    rcases execRxbyte_inversion h with ⟨_, rfl⟩ | ⟨_, _, _, rfl⟩ | ⟨_, _, rfl⟩ |
      ⟨w, _, _, _, rfl⟩ | ⟨w, _, _, _, rfl⟩ |
      ⟨pkt, _, _, _, ⟨_, rfl⟩ | ⟨q, _, _, rfl⟩ | ⟨q, v, q', _, _, _, rfl⟩⟩ <;> rfl
  | txdone =>
    rcases execTxdone_inversion h with ⟨_, rfl⟩ | ⟨b, _, _, _, rfl⟩ |
      ⟨pkt, _, _, _, _, ⟨v, q, _, rfl⟩ | ⟨_, rfl⟩⟩ | ⟨_, _, _, rfl⟩ <;> rfl
  | tx pkt => rcases execTx_inversion h with ⟨q, _, _, rfl⟩ | ⟨_, _, rfl⟩ | ⟨_, _, rfl⟩ <;> rfl
  | txnext =>
    rcases execTxnext_inversion h with ⟨pkt, _, _, ⟨v, q, _, rfl⟩ | ⟨_, rfl⟩⟩ | ⟨_, rfl⟩ <;> rfl
  | rxnext => rcases execRxnext_inversion h with ⟨v, q, _, rfl⟩ | ⟨_, rfl⟩ <;> rfl
  | reset => cases h; rfl

/-- No step changes the parameters. -/
theorem step_par {s t : State} (h : step s = .next t) : t.par = s.par := by
  rcases step_inversion h with ⟨_, rfl⟩ | ⟨_, _, rfl⟩ | ⟨_, _, _, _, _, _, rfl⟩ |
    ⟨_, _, _, _, _, _, he⟩
  · rfl
  · rfl
  · rfl
  · exact exec_par (s := s.takeInput) he

end Sys2Proof.Machine
end

