-- ==== Sys2Proof/Laws/Link.lean ====
section
/-!
SUPPORT. The link between two nodes: what can come out of it, and that the ends of a link go on
having the same frames (60_exceptions.md R205, 70_reset_and_hazards.md R222, R224).
-/

namespace Sys2Proof.Machine

/-- An error-free link carries what is put into it. -/
@[simp] theorem throughLink_nil (bs : List Byte) : throughLink [] bs = bs := rfl

/-- Any bytes at all may come out of a link that is not error-free. -/
theorem throughLink_any (sent out : List Byte) : ∃ acts, throughLink acts sent = out := by
  refine ⟨out.map .insert ++ List.replicate sent.length .drop, ?_⟩
  induction out with
  | nil =>
    induction sent with
    | nil => rfl
    | cons b bs ih => simpa [List.replicate_succ, throughLink] using ih
  | cons b out ih => simpa [throughLink] using ih

theorem TwoNodes.initial_wf (c d : Params) : (TwoNodes.initial c d).wf := ⟨rfl, rfl, rfl⟩

/-- The ends of a link keep the same frames, whatever the link does to the bytes. -/
theorem TwoNodes.stepAOver_wf {acts : List LinkAction} {n m : TwoNodes} (hn : n.wf)
    (h : n.stepAOver acts = .next m) : m.wf := by
  unfold TwoNodes.stepAOver at h
  split at h
  · rename_i t ht
    cases h
    show t.par.sameFrames n.b.par
    rw [step_par ht]; exact hn
  · cases h
  · cases h

theorem TwoNodes.stepBOver_wf {acts : List LinkAction} {n m : TwoNodes} (hn : n.wf)
    (h : n.stepBOver acts = .next m) : m.wf := by
  unfold TwoNodes.stepBOver at h
  split at h
  · rename_i t ht
    cases h
    show n.a.par.sameFrames t.par
    rw [step_par ht]; exact hn
  · cases h
  · cases h

end Sys2Proof.Machine
end

