-- ==== Sys2Proof/Laws/PerInstr.lean ====
section
/-!
SUPPORT. Facts about every command as syntax, one lemma per constructor.
-/

namespace Sys2Proof.Laws

/-- The word of a command is selected by a row of the opcode table that names the command
(30_encoding.md R87). -/
def EncodeSelectsRow.Statement (i : Instr) : Prop :=
  ∃ r ∈ opRows, r.op = i.mnemonic ∧ r.selects (encodeWord i) = true

theorem EncodeSelectsRow.put (m : Bool) (item : List Byte) :
    EncodeSelectsRow.Statement (.put m item) :=
  ⟨⟨.put, 0x1000, 0xFEFF⟩, by decide, rfl, by cases m <;> simp [OpRow.selects, encodeWord]⟩

theorem EncodeSelectsRow.pop (dv : Bool) : EncodeSelectsRow.Statement (.pop dv) :=
  ⟨⟨.pop, 0x2000, 0xFEFF⟩, by decide, rfl, by cases dv <;> rfl⟩

/-- An immediate lies outside the fixed bits of its row. -/
theorem immediate_keeps_row : ∀ n : BitVec 8,
    ((0x3000 : Word) ||| n.setWidth 16) &&& 0xFF00 = 0x3000 ∧
    ((0x8000 : Word) ||| n.setWidth 16) &&& 0xFF00 = 0x8000 := by decide

theorem EncodeSelectsRow.peek (n : BitVec 8) : EncodeSelectsRow.Statement (.peek n) :=
  ⟨⟨.peek, 0x3000, 0xFF00⟩, by decide, rfl,
    by simpa [OpRow.selects, encodeWord] using (immediate_keeps_row n).1⟩

theorem EncodeSelectsRow.rxbyte (b : Byte) : EncodeSelectsRow.Statement (.rxbyte b) :=
  ⟨⟨.rxbyte, 0x8000, 0xFF00⟩, by decide, rfl,
    by simpa [OpRow.selects, encodeWord] using (immediate_keeps_row b).2⟩

theorem EncodeSelectsRow.txdone : EncodeSelectsRow.Statement .txdone :=
  ⟨⟨.txdone, 0x9000, 0xFFFF⟩, by decide, rfl, rfl⟩

theorem EncodeSelectsRow.tx (pkt : List Byte) : EncodeSelectsRow.Statement (.tx pkt) :=
  ⟨⟨.tx, 0xA000, 0xFFFF⟩, by decide, rfl,
    by show ((0xA000 : Word) &&& 0xFFFF == 0xA000) = true; decide⟩

theorem EncodeSelectsRow.txnext : EncodeSelectsRow.Statement .txnext :=
  ⟨⟨.txnext, 0xB000, 0xFFFF⟩, by decide, rfl, rfl⟩

theorem EncodeSelectsRow.rxnext : EncodeSelectsRow.Statement .rxnext :=
  ⟨⟨.rxnext, 0xC000, 0xFFFF⟩, by decide, rfl, rfl⟩

theorem EncodeSelectsRow.reset : EncodeSelectsRow.Statement .reset :=
  ⟨⟨.reset, 0xF000, 0xFFFF⟩, by decide, rfl, rfl⟩

end Sys2Proof.Laws
end

