-- ==== Sys2Proof/Machine/Listing.lean ====
section
/-!
DEFINITION. The textual syntax of the commands, as the spec's listings write it (30_encoding.md
R84).
-/

namespace Sys2Proof

/-- One hexadecimal digit. -/
def hexDigit (d : Nat) : Char := "0123456789ABCDEF".toList.getD d '?'

/-- One byte as two hexadecimal digits (00_scope.md R9). -/
def hexByte (b : Byte) : List Char := [hexDigit (b.toNat / 16), hexDigit (b.toNat % 16)]

/-- A byte string as space-separated two-digit bytes, first byte first (00_scope.md R9). -/
def hexBytes : List Byte → List Char
  | [] => []
  | [b] => hexByte b
  | b :: bs => hexByte b ++ ' ' :: hexBytes bs

/-- A number below 1000 in decimal. -/
def decimal (n : Nat) : List Char :=
  if n < 10 then [hexDigit n]
  else if n < 100 then [hexDigit (n / 10), hexDigit (n % 10)]
  else [hexDigit (n / 100), hexDigit (n / 10 % 10), hexDigit (n % 10)]

/-- A command in the syntax of the listings, as characters (30_encoding.md R84). -/
def Instr.listing : Instr → List Char
  | .put false item => "PUT ".toList ++ hexBytes item
  | .put true item => "PUT.M1 ".toList ++ hexBytes item
  | .pop true => "POP".toList
  | .pop false => "POP.N".toList
  | .peek n => "PEEK ".toList ++ decimal n.toNat
  | .rxbyte b => "RXBYTE ".toList ++ hexByte b
  | .txdone => "TXDONE".toList
  | .tx pkt => "TX ".toList ++ hexBytes pkt
  | .txnext => "TXNEXT".toList
  | .rxnext => "RXNEXT".toList
  | .reset => "RESET".toList

end Sys2Proof
end

