-- ==== Sys2Proof/Tests/Slice0.lean ====
section
/-!
SUPPORT. Tests on the spec's test instance, their expected results from 95_test_vectors.md or
worked by hand from the rules cited, and for every statement with hypotheses a state and operands
that meet them, `witness_<statement>`.
-/

open Sys2Proof Sys2Proof.Machine

namespace Sys2Proof.Tests

/-! ### Small states -/

abbrev tv : Params := Params.testInstance

/-- A storage that holds the bytes from cell `a` on. -/
def cells : Nat → List Byte → Memory
  | _, [] => []
  | a, b :: bs => (a, b) :: cells (a + 1) bs

/-- A ring buffer with its write cursor, its count and its first bytes. -/
def ring (wcur count : Nat) (bs : List Byte) : RingBuf := { wcur, count, slot := cells 0 bs }

/-- The frame of the packet `01 02`. -/
def frame12 : List Byte := [0xA5, 0x5A, 0xC3, 0x3C, 0x01, 0x02, 0x5A, 0xA5, 0x3C, 0xC3]

/-- Reset, with a ring in `RB0`. -/
def withRb0 (q : RingBuf) : State := { State.reset with rb0 := q }

/-- Receiving: the bytes stored so far, the gate, the queue. -/
def receiving (bs : List Byte) (armed : Bool) (q : RingBuf) : State :=
  { State.reset with rxbuf := cells 0 bs, rxCursor := bs.length, rxArmed := armed, rxq := q }

/-- Transmitting the packet `01 02`: how many bytes have left, the gate, held or not, the queue. -/
def sending (n : Nat) (armed held : Bool) (q : RingBuf) : State :=
  { State.reset with
    txbuf := cells 0 frame12, txCursor := n, txInProgress := true, txArmed := armed,
    txBlocking := held, txq := q }

/-- Reset with something presented. -/
def presented (is : List Input) : State := { State.reset with inputs := is }

/-- What an outcome leaves, as a check on it. -/
def nextIs (o : Host.Outcome State Fault Refusal) (p : State → Bool) : Bool :=
  match o with
  | .next t => p t
  | .fault _ => false
  | .refused _ => false

/-! ### Well-formedness: each check refuses an ill-formed term (30_encoding.md R74) -/

theorem test_wellFormed_refuses_a_short_item :
    (Instr.put false []).WellFormed tv = false := by decide
theorem test_wellFormed_refuses_a_long_item :
    (Instr.put true [1, 2]).WellFormed tv = false := by decide
theorem test_wellFormed_refuses_a_short_packet :
    (Instr.tx [1]).WellFormed tv = false := by decide
theorem test_wellFormed_refuses_a_long_packet :
    (Instr.tx [1, 2, 3]).WellFormed tv = false := by decide
theorem test_wellFormed_takes_what_fits :
    ∀ i ∈ [Instr.put true [0x7F], .pop false, .peek 255, .rxbyte 0xA5, .txdone, .tx [1, 2],
      .txnext, .rxnext, .reset], i.WellFormed tv = true := by decide

/-! ### Decoding: words written out from the patterns of 30_encoding.md R87 -/

theorem test_decode_put :
    decode tv 0b0001_0000_0000_0000 0x7F = .ok (.put false [0x7F]) ∧
    decode tv 0b0001_0001_0000_0000 0xFF7F = .ok (.put true [0x7F]) := by decide
theorem test_decode_pop :
    decode tv 0b0010_0000_0000_0000 0 = .ok (.pop false) ∧
    decode tv 0b0010_0001_0000_0000 0 = .ok (.pop true) := by decide
theorem test_decode_peek :
    decode tv 0b0011_0000_0000_0000 0 = .ok (.peek 0) ∧
    decode tv 0b0011_0000_1000_0001 0 = .ok (.peek 0x81) := by decide
theorem test_decode_rxbyte :
    decode tv 0b1000_0000_1010_0101 0 = .ok (.rxbyte 0xA5) ∧
    decode tv 0b1000_0000_0000_0000 0 = .ok (.rxbyte 0) := by decide
theorem test_decode_tx : decode tv 0b1010_0000_0000_0000 0x0201 = .ok (.tx [1, 2]) := by decide
theorem test_decode_without_operand :
    decode tv 0b1001_0000_0000_0000 0 = .ok .txdone ∧
    decode tv 0b1011_0000_0000_0000 0 = .ok .txnext ∧
    decode tv 0b1100_0000_0000_0000 0 = .ok .rxnext ∧
    decode tv 0b1111_0000_0000_0000 0 = .ok .reset := by decide

/-- The illegal words of V-SYS-2, each under its class of R80. -/
theorem test_decode_illegal_op :
    (([0x0000, 0x4000, 0x7FFF, 0xD000, 0xE000] : List Word).map fun w => decode tv w 0) =
      List.replicate 5 (.error .reservedOp) := by rfl
theorem test_decode_illegal_sub :
    (([0x1200, 0x2300, 0x3100, 0x8100, 0x9100, 0xA100, 0xC800, 0xFFFF] : List Word).map
      fun w => decode tv w 0) = List.replicate 8 (.error .reservedSub) := by rfl
theorem test_decode_illegal_imm :
    (([0x1001, 0x2101, 0x9001, 0xB0FF, 0xF001] : List Word).map fun w => decode tv w 0) =
      List.replicate 5 (.error .nonzeroImm) := by rfl

/-- The opcode table's numbering: the command word in the low bits, lanes of zeros above. -/
theorem test_decodeTableWord :
    decodeTableWord 16 0x1100 = some (.put true [0]) ∧
    decodeTableWord 16 0xA000 = some (.tx [0, 0]) ∧ decodeTableWord 16 0x4000 = none := by decide

/-- The listing of V-SYS-2 and of 30_encoding.md R84. -/
theorem test_listing :
    (Instr.put true [0x88]).listing = "PUT.M1 88".toList ∧
    (Instr.tx [0x01, 0xAB]).listing = "TX 01 AB".toList ∧
    (Instr.peek 255).listing = "PEEK 255".toList := by decide

/-! ### One step at a time -/

/-- P1, line 4: the fourth item goes to slot 3 and the write cursor wraps. -/
theorem test_put_wraps :
    nextIs (exec (.put false [0x44]) (withRb0 (ring 3 3 [0x11, 0x22, 0x33]))) (fun t =>
      t.rb0 == ring 0 4 [0x11, 0x22, 0x33, 0x44] && t.rsp == some .ok) = true := by decide
/-- P1, line 14: a full ring refuses in either mode. -/
theorem test_put_full :
    nextIs (exec (.put true [0x88]) (withRb0 (ring 2 4 [0x55, 0x66, 0x33, 0x44]))) (fun t =>
      t.rb0 == ring 2 4 [0x55, 0x66, 0x33, 0x44] && t.rsp == some .fail) = true := by decide
/-- V-RB-2: the oldest item is in slot 2. -/
theorem test_pop_wraps :
    nextIs (exec (.pop true) (withRb0 (ring 2 4 [0x55, 0x66, 0x33, 0x44]))) (fun t =>
      t.rb0 == ring 2 3 [0x55, 0x66, 0x33, 0x44] && t.rsp == some (.okData [0x33])) = true := by
  decide
/-- V-RB-6: without a destination the item goes and nothing is returned. -/
theorem test_pop_drops :
    nextIs (exec (.pop false) (withRb0 (ring 2 2 [0x11, 0x22]))) (fun t =>
      t.rb0 == ring 2 1 [0x11, 0x22] && t.rsp == some .ok) = true := by decide
/-- V-RB-3: age 3 wraps to slot 1. -/
theorem test_peek_wraps :
    nextIs (exec (.peek 3) (withRb0 (ring 2 4 [0x55, 0x66, 0x33, 0x44]))) (fun t =>
      t.rsp == some (.okData [0x66])) = true := by decide
/-- V-RB-4: an age that no item has, in a slot that nothing has written. -/
theorem test_peek_beyond :
    nextIs (exec (.peek 1) (withRb0 (ring 1 1 [0x11]))) (fun t => t.rsp == some .fail) = true := by
  decide
/-- V-RX-2: `FF A5 5A C3` slides, and `rxbuf[3]` keeps the `C3`. -/
theorem test_rxbyte_slides :
    nextIs (exec (.rxbyte 0xC3) (receiving [0xFF, 0xA5, 0x5A] true .blank)) (fun t =>
      t.rxCursor == 3 && t.rxbuf == cells 0 [0xA5, 0x5A, 0xC3, 0xC3]) = true := by decide
/-- V-RX-1: the last byte of a frame; on the event port byte 0 is in bits 7 to 0. -/
theorem test_rxbyte_delivers :
    nextIs (exec (.rxbyte 0xC3) (receiving (frame12.take 9) true .blank)) (fun t =>
      t.out == [.event (.rxOk [1, 2])] && t.evData == some 0x0201 && t.rxCursor == 0 &&
        !t.rxArmed && t.rxq == ring 1 0 [1, 2]) = true := by decide
/-- V-RX-5: the oldest of two queued packets is delivered and the gate is not left armed. -/
theorem test_rxnext_delivers :
    nextIs (exec .rxnext (receiving [] false (ring 2 2 [0xB0, 0x00, 0xB1, 0x01]))) (fun t =>
      t.out == [.event (.rxOk [0xB0, 0x00])] && t.rxq.count == 1 && !t.rxArmed) = true := by decide
/-- V-RX-7: arming twice is arming once. -/
theorem test_rxnext_arms :
    nextIs (exec .rxnext (receiving [] true .blank)) (fun t =>
      t.out == [] && t.rxArmed && t.rsp == some .ok) = true := by decide
/-- V-TX-1: the first line. -/
theorem test_tx_starts :
    nextIs (exec (.tx [1, 2]) State.reset) (fun t =>
      t.out == [.serOut 0xA5] && t.txCursor == 1 && t.txInProgress && t.txIrqEn &&
        t.txbuf == cells 0 frame12) = true := by decide
/-- V-TX-5: while a completion is held a packet queues and nothing starts. -/
theorem test_tx_queues_while_held :
    nextIs (exec (.tx [3, 4]) (sending 10 false true .blank)) (fun t =>
      t.out == [] && t.txq == ring 1 1 [3, 4] && t.txBlocking && t.txCursor == 10) = true := by
  decide
/-- V-TX-6: the sixth byte of the frame. -/
theorem test_txdone_sends :
    nextIs (exec .txdone (sending 5 true false .blank)) (fun t =>
      t.out == [.serOut 0x02] && t.txCursor == 6) = true := by decide
/-- V-TX-3: the event, then the first byte of the next frame. -/
theorem test_txdone_completes_and_starts :
    nextIs (exec .txdone (sending 10 true false (ring 1 1 [3, 4]))) (fun t =>
      t.out == [.event (.txOk [1, 2]), .serOut 0xA5] && t.txCursor == 1 && t.txInProgress &&
        !t.txArmed && t.txq.count == 0 && t.sentPacket == some [3, 4]) = true := by decide
/-- V-TX-1: the last line. -/
theorem test_txnext_delivers :
    nextIs (exec .txnext (sending 10 false true .blank)) (fun t =>
      t.out == [.event (.txOk [1, 2])] && !t.txInProgress && !t.txBlocking && !t.txArmed) = true := by
  decide
/-- V-TX-7: with nothing held the gate is armed. -/
theorem test_txnext_arms :
    nextIs (exec .txnext State.reset) (fun t => t.txArmed && t.out == []) = true := by decide
/-- V-SYS-1: everything back to zero, the bytes left where they are, and no output. -/
theorem test_reset_clears :
    nextIs (exec .reset { sending 2 true false (ring 1 1 [3, 4]) with rb0 := ring 1 1 [0x11] })
      (fun t => t.rb0 == ring 0 0 [0x11] && t.txq == ring 0 0 [3, 4] && !t.txInProgress &&
        !t.txArmed && t.txCursor == 0 && t.out == [] && t.rsp == some .ok) = true := by decide
/-- V-SYS-3: an illegal word. -/
theorem test_step_illegal :
    nextIs (step { withRb0 (ring 1 1 [0x11]) with inputs := [.command 0x1200 0] }) (fun t =>
      t.rspStatus == some 0b10 && t.rb0 == ring 1 1 [0x11] && t.inputs == []) = true := by decide
/-- A command placed by the host is the very next one taken. -/
theorem test_withFetchWord :
    nextIs (step (State.reset.withFetchWord 16 0xC000)) (fun t =>
      t.rxArmed && t.inputs == []) = true := by decide
/-- 60_exceptions.md R205: a link that carries, corrupts, drops and inserts; and one that is
error-free, as in P5, where a serial byte of `a` is presented to `b` and a `TXDONE` owed to `a`. -/
theorem test_link :
    throughLink [.carry, .corrupt 0xFF, .drop, .insert 0x99] [1, 2, 3, 4] = [1, 0xFF, 0x99, 4] ∧
    (match TwoNodes.stepA ⟨presented [present (.tx [0xC0, 0x01])], State.reset⟩ with
      | .next n => n.a.inputs == [present .txdone] && n.b.inputs == [present (.rxbyte 0xA5)]
      | .fault _ => false
      | .refused _ => false) = true ∧
    (TwoNodes.initial tv { tv with KQ := 0 }).wf := by decide
/-- 44_host_event_dispatch.md R171: a null argument and a reference come back from their items. -/
theorem test_event_item :
    (HostEvent.mk 7 none).toItem 3 = [7, 0, 0] ∧
    HostEvent.ofItem [7, 0, 0] = ⟨7, none⟩ ∧ HostEvent.ofItem [7, 0, 1] = ⟨7, some [0, 1]⟩ ∧
    HostEvent.ofItem [7] = ⟨7, none⟩ := by decide
/-- 44_host_event_dispatch.md R175: one entry by its id, and every entry of a code. -/
theorem test_set_enabled :
    enableFirst 2 false [⟨1, 7, true⟩, ⟨2, 7, true⟩] = [⟨1, 7, true⟩, ⟨2, 7, false⟩] ∧
    (EventCore.setEnabledByCode ⟨⟨2, 2⟩, .blank, [⟨1, 7, true⟩, ⟨2, 7, true⟩, ⟨3, 8, true⟩]⟩ 7
      false).table = [⟨1, 7, false⟩, ⟨2, 7, false⟩, ⟨3, 8, true⟩] := by decide

/-! ### States that meet the invariants -/

/-- A blank ring, one partly filled, one full: the invariant of a ring holds. -/
theorem blankInv (g : Shape) : RingBuf.blank.Inv g where
  count_le := Nat.zero_le _
  wcur_lt := Nat.two_pow_pos _
  occupied := by intro n hn; cases hn
  canonical := .nil
  within := by intro x hx; cases hx

theorem fullQueueInv :
    (ring 0 4 [1, 1, 2, 2, 3, 3, 4, 4]).Inv (queueShape tv) := by constructor <;> decide
theorem oneQueuedInv : (ring 1 1 [3, 4]).Inv (queueShape tv) := by constructor <;> decide

theorem resetInv : State.reset.Inv := by
  constructor <;> first | exact blankInv _ | decide
/-- Hunting with the gate armed. -/
theorem armedInv : (receiving [] true .blank).Inv := by
  constructor <;> first | exact blankInv _ | decide
/-- Hunting with `RXQ` full. -/
theorem backlogInv : (receiving [] false (ring 0 4 [1, 1, 2, 2, 3, 3, 4, 4])).Inv := by
  constructor <;> first | exact blankInv _ | exact fullQueueInv | decide
/-- Sending the last byte of a frame, armed, with a packet queued. -/
theorem sendingInv : (sending 10 true false (ring 1 1 [3, 4])).Inv := by
  constructor <;> first | exact blankInv _ | exact oneQueuedInv | decide
/-- Holding a completion. -/
theorem heldInv : (sending 10 false true .blank).Inv := by
  constructor <;> first | exact blankInv _ | decide

/-! ### The hypotheses of the statements can be met -/

theorem witness_DecodeOfEncodeGivesTheCommand :
    (Instr.tx [1, 2]).WellFormed tv = true ∧ (Instr.put true [0xFF]).WellFormed tv = true := by
  decide
theorem witness_DecodedCommandReencodesToItsWord :
    decode tv 0x1100 0xFF7F = .ok (.put true [0x7F]) ∧
    decode tv 0xA000 0x990201 = .ok (.tx [1, 2]) := by decide
/-- Two ports that differ above the item's lane, and above the packet's lanes. -/
theorem witness_DataPortIgnoredOutsideTheOperand :
    (∀ k, k < tv.S0 → lane 0x7F k = lane 0x17F k) ∧
    (∀ k, k < tv.P → lane 0x0201 k = lane 0x30201 k) := by decide
theorem witness_AtMostOneTableRowSelectsAWord :
    (⟨.peek, 0x3000, 0xFF00⟩ : OpRow) ∈ opRows ∧
    (⟨.peek, 0x3000, 0xFF00⟩ : OpRow).selects 0x30FF = true := by decide
/-- A word of each class of R80 that no row selects, and a legal one. -/
theorem witness_IllegalWordsAreAnsweredIllegal :
    (presented [.command 0xE000 0]).inputs = .command 0xE000 0 :: [] ∧
    (∀ r ∈ opRows, r.selects 0xE000 = false) ∧ (∀ r ∈ opRows, r.selects 0x1200 = false) ∧
    (∀ r ∈ opRows, r.selects 0x3100 = false) ∧ (∀ r ∈ opRows, r.selects 0x1001 = false) ∧
    (⟨.peek, 0x3000, 0xFF00⟩ : OpRow).selects 0x30FF = true := by decide
theorem witness_StepRunsTheDecodedCommand :
    (presented [.command 0xA000 0x0201, .rst]).inputs = .command 0xA000 0x0201 :: [.rst] ∧
    decode State.reset.par 0xA000 0x0201 = .ok (.tx [1, 2]) := by decide
theorem witness_NothingPresentedNothingHappens : (sending 5 true false .blank).inputs = [] := by
  decide
theorem witness_RstInputActsAsResetCommand :
    (presented [.rst, .command 0x2000 0]).inputs = .rst :: [.command 0x2000 0] := by decide
/-- One slot left, and none. -/
theorem witness_PutStoresAtTheWriteCursorOrFails :
    ([0x44] : List Byte).length = tv.S0 ∧
    (ring 3 3 [0x11, 0x22, 0x33]).wcur < 2 ^ tv.K0 ∧
    (ring 3 3 [0x11, 0x22, 0x33]).count < 2 ^ tv.K0 ∧
    2 ^ tv.K0 ≤ (ring 0 4 [0x11, 0x22, 0x33, 0x44]).count := by decide
/-- One item, in the last slot; and none. -/
theorem witness_PopRemovesTheOldestItemOrFails :
    1 ≤ (ring 0 1 [1, 2, 3, 0x44]).count ∧
    ((3 : Nat) : Int) = (((0 : Nat) : Int) - ((1 : Nat) : Int)) % 2 ^ tv.K0 ∧
    (ring 0 1 [1, 2, 3, 0x44]).slot.readBytes (3 * tv.S0) tv.S0 = some [0x44] ∧
    (ring 2 0 []).count = 0 := by decide
/-- The youngest item; and the age one beyond it. -/
theorem witness_PeekReturnsTheNthOldestItemOrFails :
    (1 : BitVec 8).toNat < (ring 1 2 [2, 0, 0, 1]).count ∧
    ((0 : Nat) : Int) = (((1 : Nat) : Int) - ((2 : Nat) : Int) + (1 : BitVec 8).toNat) % 2 ^ tv.K0 ∧
    (ring 1 2 [2, 0, 0, 1]).slot.readBytes (0 * tv.S0) tv.S0 = some [2] ∧
    (ring 1 2 [2, 0, 0, 1]).count ≤ (2 : BitVec 8).toNat := by decide
theorem witness_CapacityPutsThenCapacityPops :
    (ring 3 0 []).wcur < 2 ^ tv.K0 ∧ (ring 3 0 []).count = 0 ∧
    ([[1], [2], [3], [4]] : List (List Byte)).length = 2 ^ tv.K0 ∧
    ∀ v ∈ ([[1], [2], [3], [4]] : List (List Byte)), v.length = tv.S0 := by decide
theorem witness_PopsFollowTheOrderOfPuts :
    State.reset.Inv ∧ State.reset.rb0.count = 0 ∧
    (∀ i ∈ [Instr.put false [1], .put true [2], .pop true], i.WellFormed tv = true) ∧
    Instr.reset ∉ [Instr.put false [1], .put true [2], .pop true] ∧
    (runCommands [.put false [1], .put true [2], .pop true] State.reset).isSome = true :=
  ⟨resetInv, by decide⟩
/-- The second oldest of two items, with one pop and one put in between. -/
theorem witness_PeekedItemComesOutAfterThatManyPops :
    (withRb0 (ring 2 2 [5, 6])).Inv ∧
    nextIs (exec (.peek 1) (withRb0 (ring 2 2 [5, 6]))) (fun t => t.rsp == some (.okData [6])) =
      true ∧
    (∀ i ∈ [Instr.put true [7], .pop false], i.WellFormed tv = true) ∧
    Instr.reset ∉ [Instr.put true [7], .pop false] ∧
    (runCommands [.put true [7], .pop false] (withRb0 (ring 2 2 [5, 6]))).map
      (fun r => (popsAnswered [.put true [7], .pop false] r.rsps).length) =
        some (1 : BitVec 8).toNat := by
  have h : (ring 2 2 [5, 6]).Inv (rb0Shape tv) := by constructor <;> decide
  refine ⟨?_, by decide, by decide, by decide, by decide⟩
  constructor <;> first | exact blankInv _ | exact h | decide
/-- A statement about whatever `exec` leaves: some command does leave a state. -/
theorem witness_RingCommandsAndTransportAreSeparate :
    nextIs (exec (.put false [1]) State.reset) (fun t => t.rb0 == ring 1 1 [1]) = true ∧
    nextIs (exec .txnext State.reset) (fun t => t.rb0 == .blank) = true := by decide

/-! Receive. -/

/-- The first byte; the last but one; and the dead guard. -/
theorem witness_RxbyteStoresTheByte :
    ((receiving [] false .blank).rxCursor < tv.F ∧ (receiving [] false .blank).rxCursor ≠ 3 ∧
      (receiving [] false .blank).rxCursor + 1 ≠ tv.F) ∧
    ((receiving (frame12.take 8) false .blank).rxCursor < tv.F ∧
      (receiving (frame12.take 8) false .blank).rxCursor ≠ 3 ∧
      (receiving (frame12.take 8) false .blank).rxCursor + 1 ≠ tv.F) ∧
    tv.F ≤ (receiving frame12 false .blank).rxCursor := by decide
theorem witness_RxbyteComparesThePreambleAndSlides :
    (receiving [0xA5, 0x5A, 0xC3] false .blank).rxCursor = 3 ∧
    (receiving [0xA5, 0x5A, 0xC3] false .blank).rxbuf.readBytes 0 3 = some [0xA5, 0x5A, 0xC3] ∧
    [0xA5, 0x5A, 0xC3, 0x3C] = tv.pre.toList ∧ [0xA5, 0x5A, 0xC3, 0xA5] ≠ tv.pre.toList := by
  decide
theorem witness_RxbyteReportsAFramingError :
    (receiving (frame12.take 9) true .blank).rxCursor + 1 = tv.F ∧
    (receiving (frame12.take 9) true .blank).rxbuf.readBytes (tv.F - 4) 3 =
      some [0x5A, 0xA5, 0x3C] ∧
    ([0x5A, 0xA5, 0x3C] : List Byte) ++ [0] ≠ tv.post.toList := by decide
/-- The last byte of a good frame, for the three statements about it: `RXQ` full, not full, and
empty with the gate armed. -/
theorem witness_lastByteOfAFrame (armed : Bool) (q : RingBuf) :
    (receiving (frame12.take 9) armed q).rxCursor + 1 = tv.F ∧
    ([1, 2] : List Byte).length = tv.P ∧
    (receiving (frame12.take 9) armed q).rxbuf.readBytes 4 (tv.P + 3) =
      some ([1, 2] ++ [0x5A, 0xA5, 0x3C]) ∧
    ([0x5A, 0xA5, 0x3C] : List Byte) ++ [0xC3] = tv.post.toList := ⟨rfl, rfl, rfl, rfl⟩
theorem witness_RxbyteReportsAFullBuffer :
    (receiving (frame12.take 9) false (ring 0 4 [])).rxCursor + 1 = tv.F ∧
    2 ^ tv.KQ ≤ (receiving (frame12.take 9) false (ring 0 4 [])).rxq.count :=
  ⟨(witness_lastByteOfAFrame _ _).1, by decide⟩
theorem witness_RxbyteQueuesThePacket :
    (receiving (frame12.take 9) false (ring 3 3 [])).rxCursor + 1 = tv.F ∧
    (ring 3 3 []).count < 2 ^ tv.KQ ∧ (ring 3 3 []).wcur < 2 ^ tv.KQ ∧
    (receiving (frame12.take 9) false (ring 3 3 [])).rxArmed = false :=
  ⟨(witness_lastByteOfAFrame _ _).1, by decide⟩
theorem witness_RxbyteDeliversThePacketWhenArmed :
    (receiving (frame12.take 9) true (ring 3 0 [])).rxCursor + 1 = tv.F ∧
    (ring 3 0 []).count = 0 ∧ (ring 3 0 []).wcur < 2 ^ tv.KQ ∧
    (receiving (frame12.take 9) true (ring 3 0 [])).rxArmed = true :=
  ⟨(witness_lastByteOfAFrame _ _).1, by decide⟩
theorem witness_RxnextDeliversTheOldestOrArms :
    1 ≤ (ring 1 1 [3, 4]).count ∧
    ((0 : Nat) : Int) = (((1 : Nat) : Int) - ((1 : Nat) : Int)) % 2 ^ tv.KQ ∧
    (ring 1 1 [3, 4]).slot.readBytes (0 * tv.P) tv.P = some [3, 4] ∧
    (receiving [] true .blank).rxq.count = 0 := by decide
theorem witness_FailureEventsBypassGateAndQueue :
    nextIs (exec (.rxbyte 0) (receiving (frame12.take 9) true .blank)) (fun t =>
      t.out == [.event (.rxFail .framing)] && t.rxArmed) = true := by decide
theorem witness_ParityAndOverrunAreNeverEmitted :
    nextIs (step { receiving (frame12.take 9) true .blank with inputs := [.command 0x8000 0] })
      (fun t => t.out == [.event (.rxFail .framing)]) = true := by decide
/-- For each of the three outcomes of a frame a state that meets the invariants. -/
theorem witness_WholeFrameIsReportedDeliveredOrQueued :
    ((receiving [] false (ring 0 4 [1, 1, 2, 2, 3, 3, 4, 4])).Inv ∧
      (ring 0 4 [1, 1, 2, 2, 3, 3, 4, 4]).count = 2 ^ tv.KQ) ∧
    ((receiving [] true .blank).Inv ∧ (receiving [] true .blank).rxArmed = true) ∧
    (State.reset.Inv ∧ State.reset.rxArmed = false ∧ State.reset.rxCursor = 0 ∧
      ([1, 2] : List Byte).length = State.reset.par.P) :=
  ⟨⟨backlogInv, rfl⟩, ⟨armedInv, rfl⟩, resetInv, rfl, rfl, rfl⟩
theorem witness_PacketsAreDeliveredInOrderOrReportedLost :
    State.reset.Inv ∧ State.reset.rxCursor = 0 ∧ State.reset.rxq.count = 0 ∧
    (∀ o ∈ [some [1, 2], none, some [3, 4]], ∀ p : List Byte, o = some p → p.length = tv.P) ∧
    (runCommands (framesAndArms tv [some [1, 2], none, some [3, 4]]) State.reset).isSome = true := by
  refine ⟨resetInv, rfl, rfl, ?_, by decide⟩
  intro o ho p hp; subst hp; simp at ho; rcases ho with rfl | rfl <;> rfl
theorem witness_FrameRoundTripDeliversThePacket :
    (receiving [] true .blank).Inv ∧ (receiving [] true .blank).rxCursor = 0 ∧
    (receiving [] true .blank).rxq.count = 0 ∧ ([0x12, 0x34] : List Byte).length = tv.P :=
  ⟨armedInv, rfl, rfl, rfl⟩
/-- One garbage byte, and three that begin like the preamble. -/
theorem witness_ReceiverResynchronisesAfterGarbage :
    State.reset.Inv ∧ State.reset.rxCursor = 0 ∧ ([0x12, 0x34] : List Byte).length = tv.P ∧
    noEarlyLock tv.pre [0xFF] ∧ noEarlyLock tv.pre [0xA5, 0x5A, 0xC3] ∧
    ¬ noEarlyLock tv.pre [0xA5, 0x5A, 0xC3, 0x3C] ∧ tv.pre.bifixFree :=
  ⟨resetInv, by decide⟩

/-! Transmit. -/

theorem witness_TxStartsAFrameWhenOff :
    State.reset.txInProgress = false ∧ ([1, 2] : List Byte).length = State.reset.par.P := by decide
/-- One slot left in `TXQ`, and none. -/
theorem witness_TxQueuesOrRejectsWhileInProgress :
    (sending 1 false false (ring 3 3 [])).txInProgress = true ∧
    ([1, 2] : List Byte).length = tv.P ∧ (ring 3 3 []).wcur < 2 ^ tv.KQ ∧
    (ring 3 3 []).count < 2 ^ tv.KQ ∧ 2 ^ tv.KQ ≤ (ring 0 4 []).count := by decide
/-- Off, and holding a completion. -/
theorem witness_TxdoneDoesNothingWhileIdle :
    ¬ (State.reset.txInProgress = true ∧ State.reset.txBlocking = false) ∧
    ¬ ((sending 10 false true .blank).txInProgress = true ∧
      (sending 10 false true .blank).txBlocking = false) := by decide
/-- The second byte, and the last. -/
theorem witness_TxdoneSendsTheNextByte :
    ((sending 1 false false .blank).txInProgress = true ∧
      (sending 1 false false .blank).txBlocking = false) ∧
    ((sending 1 false false .blank).txCursor < tv.F ∧
      (sending 1 false false .blank).txbuf.read 1 = some 0x5A) ∧
    ((sending 9 false false .blank).txCursor < tv.F ∧
      (sending 9 false false .blank).txbuf.read 9 = some 0xC3) := by decide
/-- Not armed; armed with `TXQ` empty; armed with a packet queued. -/
theorem witness_TxdoneCompletesTheFrame :
    ((sending 10 false false .blank).txInProgress = true ∧
      (sending 10 false false .blank).txBlocking = false ∧
      (sending 10 false false .blank).txCursor = tv.F ∧
      (sending 10 false false .blank).txbuf.readBytes 4 tv.P = some [1, 2] ∧
      (sending 10 false false .blank).txArmed = false) ∧
    ((sending 10 true false .blank).txArmed = true ∧
      (sending 10 true false .blank).txq.count = 0) ∧
    ((sending 10 true false (ring 1 1 [3, 4])).txArmed = true ∧
      1 ≤ (ring 1 1 [3, 4]).count ∧
      ((0 : Nat) : Int) = (((1 : Nat) : Int) - ((1 : Nat) : Int)) % 2 ^ tv.KQ ∧
      (ring 1 1 [3, 4]).slot.readBytes (0 * tv.P) tv.P = some [3, 4]) := by decide
/-- Nothing held; held with `TXQ` empty; held with a packet queued. -/
theorem witness_TxnextDeliversTheHeldCompletionOrArms :
    (sending 5 true false .blank).txBlocking = false ∧
    ((sending 10 false true .blank).txBlocking = true ∧
      (sending 10 false true .blank).txbuf.readBytes 4 tv.P = some [1, 2] ∧
      (sending 10 false true .blank).txq.count = 0) ∧
    ((sending 10 false true (ring 1 1 [3, 4])).txBlocking = true ∧
      1 ≤ (ring 1 1 [3, 4]).count ∧
      ((0 : Nat) : Int) = (((1 : Nat) : Int) - ((1 : Nat) : Int)) % 2 ^ tv.KQ ∧
      (ring 1 1 [3, 4]).slot.readBytes (0 * tv.P) tv.P = some [3, 4]) := by decide
theorem witness_TransmitterPutsOutTheWholeFrame :
    (receiving [] true .blank).Inv ∧ (receiving [] true .blank).txInProgress = false ∧
    ([1, 2] : List Byte).length = tv.P := ⟨armedInv, rfl, rfl⟩
/-- The completion that starts the next frame: a byte is in flight before it and after it. -/
theorem witness_IrqEnableCountsTheByteInFlight :
    (sending 10 true false (ring 1 1 [3, 4])).Inv ∧
    nextIs (exec .txdone (sending 10 true false (ring 1 1 [3, 4]))) (fun t => t.txIrqEn) = true :=
  ⟨sendingInv, by decide⟩
theorem witness_SerialOutputIsTheFramesOfAcceptedPackets :
    State.reset.Inv ∧ State.reset.txInProgress = false ∧
    (∀ i ∈ [Instr.txnext, .tx [1, 2], .tx [3, 4]], i.WellFormed tv = true) ∧
    Instr.reset ∉ [Instr.txnext, .tx [1, 2], .tx [3, 4]] ∧
    (runCommands [.txnext, .tx [1, 2], .tx [3, 4]] State.reset).isSome = true :=
  ⟨resetInv, by decide⟩
theorem witness_SuccessEventsNeverExceedArmCalls :
    (runCommands [.rxnext, .txnext, .txdone] (sending 10 true false .blank)).isSome = true := by
  decide
theorem witness_TransmitterStallsWithoutTxnext :
    State.reset.Inv ∧ State.reset.txInProgress = false ∧ State.reset.txArmed = false ∧
    Instr.txnext ∉ [Instr.tx [1, 2], .txdone] ∧ Instr.reset ∉ [Instr.tx [1, 2], .txdone] ∧
    (runCommands [.tx [1, 2], .txdone] State.reset).isSome = true := ⟨resetInv, by decide⟩

/-! The whole block and the environment. -/

theorem witness_EveryStepKeepsTheInvariants :
    (sending 10 true false (ring 1 1 [3, 4])).Inv ∧
    nextIs (step (sending 10 true false (ring 1 1 [3, 4]))) (fun _ => true) = true :=
  ⟨sendingInv, by decide⟩
theorem witness_NoCommandIsFatal :
    (sending 10 false true .blank).Inv ∧ Instr.txnext.WellFormed tv = true := ⟨heldInv, rfl⟩
theorem witness_ResponsesAreTheOnesOfTheCommand :
    nextIs (exec (.peek 0) (withRb0 (ring 1 1 [7]))) (fun t => t.rsp == some (.okData [7])) = true ∧
    nextIs (exec (.peek 0) State.reset) (fun t => t.rsp == some .fail) = true := by decide
theorem witness_FailAndIllegalChangeNothing :
    nextIs (step (presented [.command 0x2000 0])) (fun t => t.rsp == some .fail) = true ∧
    nextIs (step (presented [.command 0x0000 0])) (fun t => t.rsp == some .illegal) = true := by
  decide
theorem witness_OutputListHoldsOneEventThenOneByteAtMost :
    nextIs (step { sending 10 true false (ring 1 1 [3, 4]) with inputs := [.command 0x9000 0] })
      (fun t => t.out == [.event (.txOk [1, 2]), .serOut 0xA5]) = true := by decide
theorem witness_FlagsAreWrittenOnlyByTheirCommands :
    nextIs (exec .txdone (sending 10 false false .blank)) (fun t => t.txBlocking) = true ∧
    nextIs (exec .txnext (sending 10 false true .blank)) (fun t => !t.txBlocking) = true := by
  decide
theorem witness_StorageIsWrittenOnlyByItsCommands :
    nextIs (exec (.tx [3, 4]) (sending 1 false false .blank)) (fun t =>
      t.txq == ring 1 1 [3, 4]) = true := by decide
theorem witness_DirectionsAreIndependent :
    nextIs (exec (.rxbyte 0xA5) (sending 1 true false .blank)) (fun t => t.txArmed) = true ∧
    nextIs (exec .txdone (receiving [] true .blank)) (fun t => t.rxArmed) = true := by decide
theorem witness_TxGateNeverPassesBetweenArmedAndBlocked :
    (sending 10 false true .blank).Inv ∧
    nextIs (exec .txnext (sending 10 false true .blank)) (fun t => t.txGate == .idle) = true :=
  ⟨heldInv, by decide⟩
/-- Two states with one item in different slots and different dead bytes. -/
theorem witness_UnreadStorageNeverReachesAnOutput :
    (withRb0 (ring 1 1 [7])).view = (withRb0 (ring 2 1 [9, 7])).view ∧
    withRb0 (ring 1 1 [7]) ≠ withRb0 (ring 2 1 [9, 7]) ∧
    (withRb0 (ring 1 1 [7])).Inv ∧ (withRb0 (ring 2 1 [9, 7])).Inv := by
  have h1 : (ring 1 1 [7]).Inv (rb0Shape tv) := by constructor <;> decide
  have h2 : (ring 2 1 [9, 7]).Inv (rb0Shape tv) := by constructor <;> decide
  refine ⟨by decide, by decide, ?_, ?_⟩
  · constructor <;> first | exact blankInv _ | exact h1 | decide
  · constructor <;> first | exact blankInv _ | exact h2 | decide
theorem witness_PacketCrossesAnErrorFreeLink :
    State.reset.Inv ∧ (receiving [] true .blank).Inv ∧
    State.reset.par.sameFrames (receiving [] true .blank).par ∧ State.reset.txInProgress = false ∧
    ([0xC0, 0x01] : List Byte).length = State.reset.par.P ∧
    (receiving [] true .blank).rxCursor = 0 ∧ (receiving [] true .blank).rxArmed = true :=
  ⟨resetInv, armedInv, by decide⟩
/-- Room for one event, with a null argument, with a reference, in items that hold a code alone; and
no room. -/
theorem witness_DispatchEnqueuesOrDrops :
    1 < (⟨1, 3⟩ : Shape).cap ∧ (HostEvent.mk 7 none).fits 3 ∧
    (HostEvent.mk 7 (some [1, 0])).fits 3 ∧ (HostEvent.mk 7 none).fits 1 ∧
    (⟨1, 3⟩ : Shape).cap ≤ (ring 0 2 [7, 1, 0, 7, 0, 0]).count := by decide
/-- A handler that stops the scan and one that does not, both leaving the table as it is. -/
theorem witness_HandlersRunInRegistrationOrder :
    let h : EventCore := .initial ⟨1, 2⟩ [⟨1, 7, true⟩, ⟨2, 7, true⟩]
    let body : HandlerBody (List Byte) := fun id _ x => .finish (id == 2) (id :: x)
    scanFrom body ⟨7, none⟩ 2 0 (h, []) = some (h, [2, 1]) ∧
    scanFrom body ⟨7, none⟩ 2 0 (h.setEnabled 1 false, []) = some (h.setEnabled 1 false, [2]) ∧
    (body 1 ⟨7, none⟩ []).carryOut h = some (false, (h, [1])) ∧
    (body 2 ⟨7, none⟩ []).carryOut h = some (true, (h, [2])) := by decide
theorem witness_SetEnabledSwitchesExactlyItsEntries :
    (([⟨1, 7, true⟩, ⟨2, 7, true⟩] : List HandlerEntry).map HandlerEntry.id).Nodup := by decide
theorem witness_RunDrainsTheWholeQueue :
    (ring 0 2 [7, 1, 7, 2]).Inv ⟨1, 2⟩ ∧ (ring 0 2 [7, 1, 7, 2]).count ≤ 2 ∧
    ∀ (id : Byte) (e : HostEvent) (y : Nat), ∃ stop z,
      (fun _ _ y => .finish true (y + 1) : HandlerBody Nat) id e y = .finish stop z :=
  ⟨by constructor <;> decide, by decide, fun _ _ y => ⟨true, y + 1, rfl⟩⟩
/-- A handler of code 7 that disables itself and enqueues an event of code 8, which `run` then
drains too. -/
theorem witness_RunKeepsTheTableAndTheQueue :
    let h : EventCore := ⟨⟨1, 2⟩, ring 1 1 [7, 1], [⟨1, 7, true⟩, ⟨2, 8, true⟩]⟩
    let body : HandlerBody Nat := fun id _ x =>
      if id = 1 then .setEnabled 1 false (.dispatch ⟨8, none⟩ fun ok => .finish ok (x + 1))
      else .finish true (x + 10)
    h.evq.Inv h.shape ∧
    (h.run body 2 0).map (fun r => (r.1, r.2.1.table, r.2.2)) =
      some (2, [⟨1, 7, false⟩, ⟨2, 8, true⟩], 11) :=
  ⟨by constructor <;> decide, by decide⟩

end Sys2Proof.Tests
end

section
/-! Proofs for 00_scope.md: a step on a presented command (R7, 20_memory.md R56). -/

namespace Sys2Proof.Machine

theorem State.takeInput_of_inputs_eq_cons {s : State} {x : Input} {rest : List Input}
    (h : s.inputs = x :: rest) : s.takeInput = { s with inputs := rest } := by
  rw [State.takeInput, h, List.tail_cons]

/-- The branch of `step` for a legal command; `step_inversion` reads a step that succeeded the
other way round, and leaves out those that end in a fault. -/
theorem step_of_decode_ok {s : State} {cw : Word} {wdata : Nat} {rest : List Input} {i : Instr}
    (hin : s.inputs = .command cw wdata :: rest) (hdec : decode s.par cw wdata = .ok i) :
    step s = exec i s.takeInput := by
  simp only [step, hin, hdec]

/-- Settles O8: the branch of `step` for a legal command, whose starting state is the one with the
first input dropped. -/
theorem stepRunsTheDecodedCommand : Obligations.StepRunsTheDecodedCommand := by
  intro s cw wdata rest i hin hdec
  rw [step_of_decode_ok hin hdec, State.takeInput_of_inputs_eq_cons hin]

end Sys2Proof.Machine
end

section
/-! Proofs for 10_state.md: which command touches which part of the state (00_scope.md R2,
R26, R30, R35, R41). -/

namespace Sys2Proof

/-! ### The groups of commands -/

/-- The commands on `RB0` (40_ring_buffer.md). -/
abbrev Instr.IsRing (i : Instr) : Prop :=
  i.mnemonic = .put ∨ i.mnemonic = .pop ∨ i.mnemonic = .peek

/-- The commands of the receive direction (41_transport_receive.md). -/
abbrev Instr.IsReceive (i : Instr) : Prop := i.mnemonic = .rxbyte ∨ i.mnemonic = .rxnext

/-- The commands of the transmit direction (42_transport_transmit.md). -/
abbrev Instr.IsTransmit (i : Instr) : Prop :=
  i.mnemonic = .tx ∨ i.mnemonic = .txdone ∨ i.mnemonic = .txnext

theorem Instr.groups (i : Instr) :
    i.IsRing ∨ i.IsReceive ∨ i.IsTransmit ∨ i = .reset := by
  cases i <;> simp [Instr.IsRing, Instr.IsReceive, Instr.IsTransmit, Instr.mnemonic]

end Sys2Proof

namespace Sys2Proof.Machine

/-! ### What each group leaves alone -/

/-- The ring commands change `RB0` and the ports only. -/
theorem exec_ring_frame {i : Instr} {s t : State} (hi : i.IsRing) (h : exec i s = .next t) :
    t = { s with rb0 := t.rb0, rsp := t.rsp, out := [] } := by
  cases i with
  | put m v => rcases execPut_inversion h with ⟨q, _, rfl⟩ | ⟨_, rfl⟩ <;> rfl
  | pop dv => rcases execPop_inversion h with ⟨v, q, _, rfl⟩ | ⟨_, rfl⟩ <;> rfl
  | peek n => rcases execPeek_inversion h with ⟨v, _, rfl⟩ | ⟨_, rfl⟩ <;> rfl
  | _ => simp [Instr.IsRing, Instr.mnemonic] at hi

/-- The receive commands change the receive side and the ports only. -/
theorem exec_receive_frame {i : Instr} {s t : State} (hi : i.IsReceive)
    (h : exec i s = .next t) :
    t = { s with rxq := t.rxq, rxbuf := t.rxbuf, rxCursor := t.rxCursor, rxArmed := t.rxArmed,
                 rsp := t.rsp, out := t.out } := by
  cases i with
  | rxbyte b =>
    rcases execRxbyte_inversion h with ⟨_, rfl⟩ | ⟨_, _, _, rfl⟩ | ⟨_, _, rfl⟩ |
      ⟨w, _, _, _, rfl⟩ | ⟨w, _, _, _, rfl⟩ |
      ⟨pkt, _, _, _, ⟨_, rfl⟩ | ⟨q, _, _, rfl⟩ | ⟨q, v, q', _, _, _, rfl⟩⟩ <;> rfl
  | rxnext => rcases execRxnext_inversion h with ⟨v, q, _, rfl⟩ | ⟨_, rfl⟩ <;> rfl
  | _ => simp [Instr.IsReceive, Instr.mnemonic] at hi

/-- Retiring a frame changes `TXQ`, `txbuf`, `tx_cursor`, `tx_in_progress` and the ports only. -/
theorem RetiredTo.frame {s t : State} {pkt : List Byte} (h : RetiredTo s pkt t) :
    t = { s with txq := t.txq, txbuf := t.txbuf, txCursor := t.txCursor,
                 txInProgress := t.txInProgress, rsp := t.rsp, out := t.out } := by
  rcases h with ⟨v, q, _, rfl⟩ | ⟨_, rfl⟩ <;> rfl

/-- The transmit commands change the transmit side and the ports only. -/
theorem exec_transmit_frame {i : Instr} {s t : State} (hi : i.IsTransmit)
    (h : exec i s = .next t) :
    t = { s with txq := t.txq, txbuf := t.txbuf, txCursor := t.txCursor,
                 txInProgress := t.txInProgress, txBlocking := t.txBlocking,
                 txArmed := t.txArmed, rsp := t.rsp, out := t.out } := by
  cases i with
  | tx pkt => rcases execTx_inversion h with ⟨q, _, _, rfl⟩ | ⟨_, _, rfl⟩ | ⟨_, _, rfl⟩ <;> rfl
  | txdone =>
    rcases execTxdone_inversion h with ⟨_, rfl⟩ | ⟨b, _, _, _, rfl⟩ |
      ⟨pkt, _, _, _, _, hr⟩ | ⟨_, _, _, rfl⟩
    · rfl
    · rfl
    · rw [hr.frame]
    · rfl
  | txnext =>
    rcases execTxnext_inversion h with ⟨pkt, _, _, hr⟩ | ⟨_, rfl⟩
    · rw [hr.frame]
    · rfl
  | _ => simp [Instr.IsTransmit, Instr.mnemonic] at hi

/-! ### What only one group and `RESET` can change -/

/-- The receive side changes in receive commands and `RESET` only. -/
theorem exec_keeps_receive_side {i : Instr} {s t : State} (hi : ¬ i.IsReceive)
    (hr : i ≠ .reset) (h : exec i s = .next t) :
    t = { t with rxq := s.rxq, rxbuf := s.rxbuf, rxCursor := s.rxCursor, rxArmed := s.rxArmed } := by
  rcases i.groups with hg | hg | hg | hg
  · rw [exec_ring_frame hg h]
  · exact absurd hg hi
  · rw [exec_transmit_frame hg h]
  · exact absurd hg hr

/-- The transmit side changes in transmit commands and `RESET` only. -/
theorem exec_keeps_transmit_side {i : Instr} {s t : State} (hi : ¬ i.IsTransmit)
    (hr : i ≠ .reset) (h : exec i s = .next t) :
    t = { t with txq := s.txq, txbuf := s.txbuf, txCursor := s.txCursor,
                 txInProgress := s.txInProgress, txBlocking := s.txBlocking,
                 txArmed := s.txArmed } := by
  rcases i.groups with hg | hg | hg | hg
  · rw [exec_ring_frame hg h]
  · rw [exec_receive_frame hg h]
  · exact absurd hg hi
  · exact absurd hg hr

/-- `RB0` changes in `PUT`, `POP` and `RESET` only. -/
theorem exec_keeps_rb0 {i : Instr} {s t : State} (hput : i.mnemonic ≠ .put)
    (hpop : i.mnemonic ≠ .pop) (hreset : i.mnemonic ≠ .reset) (h : exec i s = .next t) :
    t.rb0 = s.rb0 := by
  rcases i.groups with (hg | hg | hg) | hg | hg | rfl
  · exact absurd hg hput
  · exact absurd hg hpop
  · cases i with
    | peek n => rcases execPeek_inversion h with ⟨v, _, rfl⟩ | ⟨_, rfl⟩ <;> rfl
    | _ => simp [Instr.mnemonic] at hg
  · rw [exec_receive_frame hg h]
  · rw [exec_transmit_frame hg h]
  · exact absurd rfl hreset

/-- No command changes the input port. -/
theorem exec_inputs {i : Instr} {s t : State} (h : exec i s = .next t) : t.inputs = s.inputs := by
  rcases i.groups with hg | hg | hg | rfl
  · rw [exec_ring_frame hg h]
  · rw [exec_receive_frame hg h]
  · rw [exec_transmit_frame hg h]
  · cases h; rfl

/-- Settles O18, from the frames of the three groups. -/
theorem ringCommandsAndTransportAreSeparate : Obligations.RingCommandsAndTransportAreSeparate :=
  fun _ _ _ h => ⟨fun hi => exec_ring_frame hi h,
    fun hput hpop hreset => exec_keeps_rb0 hput hpop hreset h⟩

/-- Settles O52, from the frames of the two directions. -/
theorem directionsAreIndependent : Obligations.DirectionsAreIndependent :=
  fun _ _ _ h => ⟨fun hi => exec_receive_frame hi h, fun hi => exec_transmit_frame hi h⟩

/-! ### Storage -/

theorem RingBuf.pop_slot {g : Shape} {q q' : RingBuf} {v : List Byte}
    (h : q.pop g = .done (v, q')) : q'.slot = q.slot := by
  obtain ⟨_, _, rfl⟩ := (RingBuf.pop_done_iff _ _ _ _).mp h
  rfl

theorem RetiredTo.txq_slot {s t : State} {pkt : List Byte} (h : RetiredTo s pkt t) :
    t.txq.slot = s.txq.slot := by
  rcases h with ⟨v, q, hq, rfl⟩ | ⟨_, rfl⟩
  · exact RingBuf.pop_slot hq
  · rfl

theorem exec_rb0_slot {i : Instr} {s t : State} (hi : i.mnemonic ≠ .put)
    (h : exec i s = .next t) : t.rb0.slot = s.rb0.slot := by
  cases i with
  | put m v => exact absurd rfl hi
  | pop dv =>
    rcases execPop_inversion h with ⟨v, q, hq, rfl⟩ | ⟨_, rfl⟩
    · exact RingBuf.pop_slot hq
    · rfl
  | reset => cases h; rfl
  | _ => rw [exec_keeps_rb0 (by simp [Instr.mnemonic]) (by simp [Instr.mnemonic])
      (by simp [Instr.mnemonic]) h]

theorem exec_receive_storage {i : Instr} {s t : State} (hi : i.mnemonic ≠ .rxbyte)
    (h : exec i s = .next t) : t.rxq.slot = s.rxq.slot ∧ t.rxbuf = s.rxbuf := by
  cases i with
  | rxbyte b => exact absurd rfl hi
  | rxnext =>
    rcases execRxnext_inversion h with ⟨v, q, hq, rfl⟩ | ⟨_, rfl⟩
    · exact ⟨RingBuf.pop_slot hq, rfl⟩
    · exact ⟨rfl, rfl⟩
  | reset => cases h; exact ⟨rfl, rfl⟩
  | _ =>
    rw [exec_keeps_receive_side (by simp [Instr.mnemonic]) (by simp) h]
    exact ⟨rfl, rfl⟩

theorem exec_txq_slot {i : Instr} {s t : State} (hi : i.mnemonic ≠ .tx)
    (h : exec i s = .next t) : t.txq.slot = s.txq.slot := by
  cases i with
  | tx pkt => exact absurd rfl hi
  | txdone =>
    rcases execTxdone_inversion h with ⟨_, rfl⟩ | ⟨b, _, _, _, rfl⟩ |
      ⟨pkt, _, _, _, _, hr⟩ | ⟨_, _, _, rfl⟩
    · rfl
    · rfl
    · exact hr.txq_slot
    · rfl
  | txnext =>
    rcases execTxnext_inversion h with ⟨pkt, _, _, hr⟩ | ⟨_, rfl⟩
    · exact hr.txq_slot
    · rfl
  | reset => cases h; rfl
  | _ => rw [exec_keeps_transmit_side (by simp [Instr.mnemonic]) (by simp) h]

theorem exec_txbuf {i : Instr} {s t : State} (hi : ¬ i.IsTransmit)
    (h : exec i s = .next t) : t.txbuf = s.txbuf := by
  by_cases hr : i = .reset
  · subst hr; cases h; rfl
  · rw [exec_keeps_transmit_side hi hr h]

/-- Settles O51, one lemma per storage. -/
theorem storageIsWrittenOnlyByItsCommands : Obligations.StorageIsWrittenOnlyByItsCommands :=
  fun _ _ _ h =>
    ⟨fun hi => exec_rb0_slot hi h, fun hi => exec_receive_storage hi h,
      fun hi => exec_txq_slot hi h,
      fun htx hdone hnext =>
        exec_txbuf (fun hi => hi.elim htx (fun hi => hi.elim hdone hnext)) h,
      exec_par h, exec_inputs h⟩

/-! ### Flags (R30): all that a command can do to each -/

theorem exec_txInProgress_cases {i : Instr} {s t : State} (h : exec i s = .next t) :
    t.txInProgress = s.txInProgress ∨
    (i.IsTransmit ∧ t.txInProgress = true) ∨
    (i = .reset ∧ t.txInProgress = false) ∨
    (i = .txdone ∧ s.par.F ≤ s.txCursor ∧ s.txArmed = true ∧ s.txq.count = 0 ∧
      t.txInProgress = false) ∨
    (i = .txnext ∧ s.txBlocking = true ∧ s.txq.count = 0 ∧ t.txInProgress = false) := by
  cases i with
  | tx pkt =>
    rcases execTx_inversion h with ⟨q, _, _, rfl⟩ | ⟨_, _, rfl⟩ | ⟨_, _, rfl⟩
    · exact .inl rfl
    · exact .inl rfl
    · exact .inr (.inl ⟨.inl rfl, rfl⟩)
  | txdone =>
    rcases execTxdone_inversion h with ⟨_, rfl⟩ | ⟨b, _, _, _, rfl⟩ |
      ⟨pkt, _, hF, ha, _, hr⟩ | ⟨_, _, _, rfl⟩
    · exact .inl rfl
    · exact .inl rfl
    · rcases hr with ⟨v, q, _, rfl⟩ | ⟨hq, rfl⟩
      · exact .inr (.inl ⟨.inr (.inl rfl), rfl⟩)
      · exact .inr (.inr (.inr (.inl ⟨rfl, hF, ha, (RingBuf.pop_fail_iff _ _).mp hq, rfl⟩)))
    · exact .inl rfl
  | txnext =>
    rcases execTxnext_inversion h with ⟨pkt, hb, _, hr⟩ | ⟨_, rfl⟩
    · rcases hr with ⟨v, q, _, rfl⟩ | ⟨hq, rfl⟩
      · exact .inr (.inl ⟨.inr (.inr rfl), rfl⟩)
      · exact .inr (.inr (.inr (.inr ⟨rfl, hb, (RingBuf.pop_fail_iff _ _).mp hq, rfl⟩)))
    · exact .inl rfl
  | reset => cases h; exact .inr (.inr (.inl ⟨rfl, rfl⟩))
  | _ => rw [exec_keeps_transmit_side (by simp [Instr.mnemonic]) (by simp) h]; exact .inl rfl

theorem exec_txBlocking_cases {i : Instr} {s t : State} (h : exec i s = .next t) :
    t.txBlocking = s.txBlocking ∨
    (i = .txdone ∧ s.par.F ≤ s.txCursor ∧ s.txArmed = false ∧ t.txBlocking = true) ∨
    ((i = .txnext ∨ i = .reset) ∧ t.txBlocking = false) := by
  cases i with
  | tx pkt =>
    rcases execTx_inversion h with ⟨q, _, _, rfl⟩ | ⟨_, _, rfl⟩ | ⟨_, _, rfl⟩ <;> exact .inl rfl
  | txdone =>
    rcases execTxdone_inversion h with ⟨_, rfl⟩ | ⟨b, _, _, _, rfl⟩ |
      ⟨pkt, _, _, _, _, hr⟩ | ⟨_, hF, ha, rfl⟩
    · exact .inl rfl
    · exact .inl rfl
    · exact .inl (by rw [hr.frame])
    · exact .inr (.inl ⟨rfl, hF, ha, rfl⟩)
  | txnext =>
    rcases execTxnext_inversion h with ⟨pkt, _, _, hr⟩ | ⟨_, rfl⟩
    · exact .inr (.inr ⟨.inl rfl, by rw [hr.frame]⟩)
    · exact .inl rfl
  | reset => cases h; exact .inr (.inr ⟨.inr rfl, rfl⟩)
  | _ => rw [exec_keeps_transmit_side (by simp [Instr.mnemonic]) (by simp) h]; exact .inl rfl

theorem exec_rxArmed_cases {i : Instr} {s t : State} (h : exec i s = .next t) :
    t.rxArmed = s.rxArmed ∨
    (i = .rxnext ∧ s.rxq.count = 0 ∧ t.rxArmed = true) ∨
    (i = .rxnext ∧ 1 ≤ s.rxq.count ∧ t.rxArmed = false) ∨
    (i = .reset ∧ t.rxArmed = false) ∨
    (i.mnemonic = .rxbyte ∧ (∃ v, .event (.rxOk v) ∈ t.out) ∧ t.rxArmed = false) := by
  cases i with
  | rxbyte b =>
    rcases execRxbyte_inversion h with ⟨_, rfl⟩ | ⟨_, _, _, rfl⟩ | ⟨_, _, rfl⟩ |
      ⟨w, _, _, _, rfl⟩ | ⟨w, _, _, _, rfl⟩ |
      ⟨pkt, _, _, _, hacc⟩
    iterate 5 exact .inl rfl
    rcases hacc with ⟨_, rfl⟩ | ⟨q, _, _, rfl⟩ | ⟨q, v, q', _, _, _, rfl⟩
    · exact .inl rfl
    · exact .inl rfl
    · exact .inr (.inr (.inr (.inr ⟨rfl, ⟨v, List.mem_singleton_self _⟩, rfl⟩)))
  | rxnext =>
    rcases execRxnext_inversion h with ⟨v, q, hq, rfl⟩ | ⟨hq, rfl⟩
    · obtain ⟨hc, _, _⟩ := (RingBuf.pop_done_iff _ _ _ _).mp hq
      exact .inr (.inr (.inl ⟨rfl, hc, rfl⟩))
    · exact .inr (.inl ⟨rfl, (RingBuf.pop_fail_iff _ _).mp hq, rfl⟩)
  | reset => cases h; exact .inr (.inr (.inr (.inl ⟨rfl, rfl⟩)))
  | _ => rw [exec_keeps_receive_side (by simp [Instr.mnemonic]) (by simp) h]; exact .inl rfl

/-- A retired frame's `TX_OK` leaves in the same command. -/
theorem RetiredTo.event_mem {s t : State} {pkt : List Byte} (h : RetiredTo s pkt t) :
    .event (.txOk pkt) ∈ t.out := by
  rcases h with ⟨v, q, _, rfl⟩ | ⟨_, rfl⟩ <;> exact List.mem_cons_self

theorem exec_txArmed_cases {i : Instr} {s t : State} (h : exec i s = .next t) :
    t.txArmed = s.txArmed ∨
    (i = .txnext ∧ s.txBlocking = false ∧ t.txArmed = true) ∨
    (i = .reset ∧ t.txArmed = false) ∨
    (i = .txdone ∧ (∃ v, .event (.txOk v) ∈ t.out) ∧ t.txArmed = false) := by
  cases i with
  | tx pkt =>
    rcases execTx_inversion h with ⟨q, _, _, rfl⟩ | ⟨_, _, rfl⟩ | ⟨_, _, rfl⟩ <;> exact .inl rfl
  | txdone =>
    rcases execTxdone_inversion h with ⟨_, rfl⟩ | ⟨b, _, _, _, rfl⟩ |
      ⟨pkt, _, _, _, _, hr⟩ | ⟨_, _, _, rfl⟩
    · exact .inl rfl
    · exact .inl rfl
    · exact .inr (.inr (.inr ⟨rfl, ⟨pkt, hr.event_mem⟩, by rw [hr.frame]⟩))
    · exact .inl rfl
  | txnext =>
    rcases execTxnext_inversion h with ⟨pkt, _, _, hr⟩ | ⟨hb, rfl⟩
    · exact .inl (by rw [hr.frame])
    · exact .inr (.inl ⟨rfl, hb, rfl⟩)
  | reset => cases h; exact .inr (.inr (.inl ⟨rfl, rfl⟩))
  | _ => rw [exec_keeps_transmit_side (by simp [Instr.mnemonic]) (by simp) h]; exact .inl rfl

/-- Settles O50: each clause reads off the list of what a command can do to that flag. -/
theorem flagsAreWrittenOnlyByTheirCommands : Obligations.FlagsAreWrittenOnlyByTheirCommands := by
  intro i s t h
  refine ⟨fun ht => ?_, fun ht => ?_, fun ht => ?_, fun ht => ?_, fun ht => ?_, fun ht => ?_,
    fun ht => ?_, fun ht => ?_⟩
  · have := exec_txInProgress_cases h; grind
  · have := exec_txInProgress_cases h; grind
  · have := exec_txBlocking_cases h; grind
  · have := exec_txBlocking_cases h; grind
  · have := exec_rxArmed_cases h; grind
  · have := exec_rxArmed_cases h; grind
  · have := exec_txArmed_cases h; grind
  · have := exec_txArmed_cases h; grind

end Sys2Proof.Machine
end

section
/-! Proofs for 10_state.md: the reset state and the invariants (R21, R38, R39). -/

namespace Sys2Proof.Machine

/-- Settles O43: every value is read off the definition of the initial state. -/
theorem resetStateIsIdle : Obligations.ResetStateIsIdle := by
  refine ⟨rfl, fun c => ?_⟩
  simp [State.initial, RingBuf.blank, State.txIrqEn, State.rxGate, State.txGate, State.rxPhase,
    State.txLine]

/-! ### The invariants by direction -/

/-- The part of `State.Inv` about the receive side: I1 to I3, I7 and what is stored. -/
structure State.ReceiveInv (s : State) : Prop where
  rxq_inv : s.rxq.Inv (queueShape s.par)
  rxCursor_lt : s.rxCursor < s.par.F
  rxArmed_empty : s.rxArmed = true → s.rxq.count = 0
  rx_preamble : 4 ≤ s.rxCursor → s.rxbuf.readBytes 0 4 = some s.par.pre.toList
  rx_stored : (s.rxbuf.readBytes 0 s.rxCursor).isSome = true
  rxbuf_canonical : s.rxbuf.wf
  rxbuf_within : ∀ x ∈ s.rxbuf, x.1 < s.par.F

/-- The part of `State.Inv` about the transmit side: I1, I4 to I6, I8 and what is stored. -/
structure State.TransmitInv (s : State) : Prop where
  txq_inv : s.txq.Inv (queueShape s.par)
  blocking : s.txBlocking = true →
    s.txInProgress = true ∧ s.txArmed = false ∧ s.txCursor = s.par.F
  off_empty : s.txInProgress = false → s.txq.count = 0
  irqEn_cursor : s.txIrqEn = true → 1 ≤ s.txCursor ∧ s.txCursor ≤ s.par.F
  tx_marks : s.txInProgress = true →
    s.txbuf.readBytes 0 4 = some s.par.pre.toList ∧
    s.txbuf.readBytes (s.par.F - 4) 4 = some s.par.post.toList
  tx_stored : s.txInProgress = true → (s.txbuf.readBytes 0 s.par.F).isSome = true
  txbuf_canonical : s.txbuf.wf
  txbuf_within : ∀ x ∈ s.txbuf, x.1 < s.par.F

theorem State.inv_iff (s : State) :
    s.Inv ↔ s.rb0.Inv (rb0Shape s.par) ∧ s.ReceiveInv ∧ s.TransmitInv := by
  constructor
  · rintro ⟨⟩
    refine ⟨?_, ⟨?_, ?_, ?_, ?_, ?_, ?_, ?_⟩, ⟨?_, ?_, ?_, ?_, ?_, ?_, ?_, ?_⟩⟩ <;> assumption
  · rintro ⟨_, ⟨⟩, ⟨⟩⟩
    constructor <;> assumption

section
variable {s t : State}

/-- What lies outside the receive side does not matter to its invariant. -/
theorem State.ReceiveInv.outside (h : s.ReceiveInv) {rb0 txq : RingBuf} {txbuf : Memory}
    {txCursor : Nat} {txInProgress txBlocking txArmed : Bool} {inputs : List Input}
    {rsp : Option Response} {out : List Output} :
    State.ReceiveInv { s with
      rb0, txq, txbuf, txCursor, txInProgress, txBlocking, txArmed, inputs, rsp, out } :=
  ⟨h.rxq_inv, h.rxCursor_lt, h.rxArmed_empty, h.rx_preamble, h.rx_stored, h.rxbuf_canonical,
    h.rxbuf_within⟩

/-- What lies outside the transmit side does not matter to its invariant. -/
theorem State.TransmitInv.outside (h : s.TransmitInv) {rb0 rxq : RingBuf} {rxbuf : Memory}
    {rxCursor : Nat} {rxArmed : Bool} {inputs : List Input} {rsp : Option Response}
    {out : List Output} :
    State.TransmitInv { s with rb0, rxq, rxbuf, rxCursor, rxArmed, inputs, rsp, out } :=
  ⟨h.txq_inv, h.blocking, h.off_empty, h.irqEn_cursor, h.tx_marks, h.tx_stored,
    h.txbuf_canonical, h.txbuf_within⟩

/-- The ports do not matter to the invariants. -/
theorem State.Inv.ports (h : s.Inv) {inputs : List Input} {rsp : Option Response}
    {out : List Output} : State.Inv { s with inputs, rsp, out } := by
  obtain ⟨hrb0, hrx, htx⟩ := s.inv_iff.mp h
  exact (State.inv_iff _).mpr ⟨hrb0, hrx.outside, htx.outside⟩

/-! ### The receive side -/

/-- A window emptied, with whatever queue and gate agree with I1 and I3. -/
theorem State.ReceiveInv.empty_window {u : State} (hq : u.rxq.Inv (queueShape u.par))
    (hc : u.rxCursor = 0) (ha : u.rxArmed = true → u.rxq.count = 0) (hwf : u.rxbuf.wf)
    (hin : ∀ x ∈ u.rxbuf, x.1 < u.par.F) : u.ReceiveInv where
  rxq_inv := hq
  rxCursor_lt := by rw [hc, Params.F_eq]; omega
  rxArmed_empty := ha
  rx_preamble := by rw [hc]; omega
  rx_stored := by rw [hc]; rfl
  rxbuf_canonical := hwf
  rxbuf_within := hin

theorem State.storeRxByte_stored (hs : s.ReceiveInv) (b : Byte) :
    ((s.storeRxByte b).rxbuf.readBytes 0 (s.rxCursor + 1)).isSome = true := by
  rw [Memory.readBytes_isSome_iff]
  intro k hk
  have hold := (Memory.readBytes_isSome_iff _ _ _).mp hs.rx_stored k
  rw [State.storeRxByte_rxbuf, Memory.read_write]
  split
  · rfl
  · exact hold (by omega)

theorem State.storeRxByte_canonical (hs : s.ReceiveInv) (b : Byte) :
    (s.storeRxByte b).rxbuf.wf := Memory.write_wf _ _ hs.rxbuf_canonical

theorem State.storeRxByte_within (hs : s.ReceiveInv) (b : Byte) :
    ∀ x ∈ (s.storeRxByte b).rxbuf, x.1 < s.par.F :=
  Memory.write_within hs.rxbuf_within hs.rxCursor_lt

/-- The byte stored, the frame not yet full, and the preamble in place if it has been compared. -/
theorem State.storeRxByte_inv (hs : s.ReceiveInv) (b : Byte) (hF : s.rxCursor + 1 < s.par.F)
    (hp : 4 ≤ s.rxCursor + 1 → (s.storeRxByte b).rxbuf.readBytes 0 4 = some s.par.pre.toList) :
    (s.storeRxByte b).ReceiveInv where
  rxq_inv := hs.rxq_inv
  rxCursor_lt := hF
  rxArmed_empty := hs.rxArmed_empty
  rx_preamble := hp
  rx_stored := State.storeRxByte_stored hs b
  rxbuf_canonical := State.storeRxByte_canonical hs b
  rxbuf_within := State.storeRxByte_within hs b

/-- The window slid by one byte. -/
theorem State.ReceiveInv.slide (hs : s.ReceiveInv) {b : Byte} {w : List Byte} (hw : w.length = 4)
    {rsp : Option Response} {out : List Output} :
    State.ReceiveInv { s with
      rxbuf := (s.storeRxByte b).rxbuf.writeBytes 0 (w.drop 1), rxCursor := 3, rsp, out } where
  rxq_inv := hs.rxq_inv
  rxCursor_lt := by simp only [Params.F_eq]; omega
  rxArmed_empty := hs.rxArmed_empty
  rx_preamble := by simp
  rx_stored := by
    have := Memory.readBytes_writeBytes_self (s.storeRxByte b).rxbuf 0 (w.drop 1)
    rw [List.length_drop, hw] at this
    exact Option.isSome_of_eq_some this
  rxbuf_canonical := Memory.writeBytes_wf _ _ (State.storeRxByte_canonical hs b)
  rxbuf_within := Memory.writeBytes_within (State.storeRxByte_within hs b) (by
    rw [List.length_drop, hw, Params.F_eq]; omega)

/-- An accepted frame, whichever way it ends. -/
theorem AcceptedTo.keeps_receiveInv {b : Byte} {pkt : List Byte} (hs : s.ReceiveInv)
    (h : AcceptedTo (s.storeRxByte b) pkt t) : t.ReceiveInv := by
  have hwf := State.storeRxByte_canonical hs b
  have hin := State.storeRxByte_within hs b
  rcases h with ⟨_, rfl⟩ | ⟨q, hq, ha, rfl⟩ | ⟨q, v, q', hq, _, hpop, rfl⟩
  · exact .empty_window hs.rxq_inv rfl hs.rxArmed_empty hwf hin
  · rw [State.storeRxByte_rxArmed] at ha
    exact .empty_window (RingBuf.put_inv hs.rxq_inv hq) rfl (by simp [ha]) hwf hin
  · exact .empty_window (RingBuf.pop_inv (RingBuf.put_inv hs.rxq_inv hq) hpop) rfl
      (by simp) hwf hin

theorem execRxbyte_keeps_receiveInv {b : Byte} (hs : s.ReceiveInv)
    (h : exec (.rxbyte b) s = .next t) : t.ReceiveInv := by
  have hF := Params.F_eq s.par
  have hlt := hs.rxCursor_lt
  rcases execRxbyte_inversion h with ⟨_, rfl⟩ | ⟨_, h3, hne, rfl⟩ | ⟨h3, hp, rfl⟩ |
    ⟨w, _, hw, _, rfl⟩ | ⟨w, _, _, _, rfl⟩ | ⟨pkt, _, _, _, hacc⟩
  · exact hs.outside
  · refine (State.storeRxByte_inv hs b (by omega) fun h4 => ?_).outside
    rw [State.storeRxByte_rxbuf, Memory.readBytes_write_outside (.inr (by omega))]
    exact hs.rx_preamble (by omega)
  · exact (State.storeRxByte_inv hs b (by omega) fun _ => hp).outside
  · exact hs.slide (Memory.readBytes_length hw)
  · exact .empty_window hs.rxq_inv rfl hs.rxArmed_empty (State.storeRxByte_canonical hs b)
      (State.storeRxByte_within hs b)
  · exact hacc.keeps_receiveInv hs

theorem execRxnext_keeps_receiveInv (hs : s.ReceiveInv) (h : exec .rxnext s = .next t) :
    t.ReceiveInv := by
  rcases execRxnext_inversion h with ⟨v, q, hq, rfl⟩ | ⟨hq, rfl⟩
  · exact { hs with
      rxq_inv := RingBuf.pop_inv hs.rxq_inv hq
      rxArmed_empty := by simp }
  · exact { hs with rxArmed_empty := fun _ => (RingBuf.pop_fail_iff _ _).mp hq }

theorem State.toReset_receiveInv (hs : s.ReceiveInv) : s.toReset.ReceiveInv :=
  .empty_window (RingBuf.clear_inv hs.rxq_inv) rfl (fun _ => rfl) hs.rxbuf_canonical
    hs.rxbuf_within

theorem exec_keeps_receiveInv {i : Instr} (hs : s.ReceiveInv) (h : exec i s = .next t) :
    t.ReceiveInv := by
  cases i with
  | rxbyte b => exact execRxbyte_keeps_receiveInv hs h
  | rxnext => exact execRxnext_keeps_receiveInv hs h
  | reset => cases h; exact (State.toReset_receiveInv hs).outside
  | _ =>
    rw [exec_keeps_receive_side (by simp [Instr.mnemonic]) (by simp) h, exec_par h]
    exact hs.outside

/-! ### The transmit side -/

theorem State.txIrqEn_eq_true_iff (s : State) :
    s.txIrqEn = true ↔ s.txInProgress = true ∧ s.txBlocking = false := by
  simp [State.txIrqEn]

/-- A frame just started, with nothing held back. -/
theorem State.TransmitInv.frame_started (hs : s.TransmitInv) {pkt : List Byte} {q : RingBuf}
    {rsp : Option Response} {out : List Output} (hq : q.Inv (queueShape s.par))
    (hb : s.txBlocking = false) (hl : pkt.length = s.par.P) :
    State.TransmitInv { s with
      txq := q, txbuf := s.txbuf.writeBytes 0 (frameOf s.par pkt), txCursor := 1,
      txInProgress := true, rsp, out } := by
  have hframe := readBytes_frame s.txbuf hl
  obtain ⟨hpre, _, hpost⟩ := readBytes_regions hl hframe
  exact {
    txq_inv := hq
    blocking := by simp [hb]
    off_empty := by simp
    irqEn_cursor := fun _ => ⟨Nat.le_refl _, by simp only [Params.F_eq]; omega⟩
    tx_marks := fun _ => ⟨hpre, hpost⟩
    tx_stored := fun _ => Option.isSome_of_eq_some hframe
    txbuf_canonical := Memory.writeBytes_wf _ _ hs.txbuf_canonical
    txbuf_within := Memory.writeBytes_within hs.txbuf_within (by simp [frameOf_length hl]) }

/-- The transmitter off, with nothing queued or held back. -/
theorem State.TransmitInv.off {u : State} (hq : u.txq.Inv (queueShape u.par))
    (hp : u.txInProgress = false) (hb : u.txBlocking = false) (hc : u.txq.count = 0)
    (hwf : u.txbuf.wf) (hin : ∀ x ∈ u.txbuf, x.1 < u.par.F) : u.TransmitInv where
  txq_inv := hq
  blocking := by simp [hb]
  off_empty := fun _ => hc
  irqEn_cursor := by simp [State.txIrqEn, hp]
  tx_marks := by simp [hp]
  tx_stored := by simp [hp]
  txbuf_canonical := hwf
  txbuf_within := hin

theorem RetiredTo.keeps_transmitInv {pkt : List Byte} (hs : s.TransmitInv)
    (hb : s.txBlocking = false) (h : RetiredTo s pkt t) : t.TransmitInv := by
  rcases h with ⟨v, q, hq, rfl⟩ | ⟨hq, rfl⟩
  · obtain ⟨_, hv, _⟩ := (RingBuf.pop_done_iff _ _ _ _).mp hq
    exact hs.frame_started (RingBuf.pop_inv hs.txq_inv hq) hb (RingBuf.readSlot_length hv)
  · exact .off hs.txq_inv rfl hb ((RingBuf.pop_fail_iff _ _).mp hq) hs.txbuf_canonical
      hs.txbuf_within

theorem execTx_keeps_transmitInv {pkt : List Byte} (hs : s.TransmitInv)
    (h : exec (.tx pkt) s = .next t) : t.TransmitInv := by
  rcases execTx_inversion h with ⟨q, hp, hq, rfl⟩ | ⟨_, _, rfl⟩ | ⟨hp, hl, rfl⟩
  · exact { hs with
      txq_inv := RingBuf.put_inv hs.txq_inv hq
      off_empty := by simp [hp] }
  · exact hs.outside
  · have hb : s.txBlocking = false := by
      by_contra hb
      obtain ⟨hp', _, _⟩ := hs.blocking (by simpa using hb)
      exact absurd (hp.symm.trans hp') Bool.false_ne_true
    exact hs.frame_started hs.txq_inv hb hl

theorem execTxdone_keeps_transmitInv (hs : s.TransmitInv) (h : exec .txdone s = .next t) :
    t.TransmitInv := by
  rcases execTxdone_inversion h with ⟨_, rfl⟩ | ⟨b, hirq, hlt, _, rfl⟩ |
    ⟨pkt, hirq, _, _, _, hr⟩ | ⟨hirq, hge, ha, rfl⟩
  · exact hs.outside
  · obtain ⟨_, hb⟩ := s.txIrqEn_eq_true_iff.mp hirq
    exact { hs with
      blocking := by simp [hb]
      irqEn_cursor := fun _ => ⟨Nat.le_add_left _ _, hlt⟩ }
  · obtain ⟨_, hb⟩ := s.txIrqEn_eq_true_iff.mp hirq
    have hdisarmed : State.TransmitInv { s with txArmed := false } :=
      { hs with blocking := by simp [hb] }
    exact hr.keeps_transmitInv hdisarmed hb
  · obtain ⟨hp, _⟩ := s.txIrqEn_eq_true_iff.mp hirq
    obtain ⟨_, hle⟩ := hs.irqEn_cursor hirq
    exact { hs with
      blocking := fun _ => ⟨hp, ha, Nat.le_antisymm hle hge⟩
      irqEn_cursor := by simp [State.txIrqEn] }

theorem execTxnext_keeps_transmitInv (hs : s.TransmitInv) (h : exec .txnext s = .next t) :
    t.TransmitInv := by
  rcases execTxnext_inversion h with ⟨pkt, hb, _, hr⟩ | ⟨hb, rfl⟩
  · obtain ⟨_, _, hF⟩ := hs.blocking hb
    have hreleased : State.TransmitInv { s with txBlocking := false } :=
      { hs with
        blocking := by simp
        irqEn_cursor := fun _ => by simp only [hF, Params.F_eq]; omega }
    exact hr.keeps_transmitInv hreleased rfl
  · exact { hs with blocking := by simp [hb] }

theorem State.toReset_transmitInv (hs : s.TransmitInv) : s.toReset.TransmitInv :=
  .off (RingBuf.clear_inv hs.txq_inv) rfl rfl rfl hs.txbuf_canonical hs.txbuf_within

theorem exec_keeps_transmitInv {i : Instr} (hs : s.TransmitInv) (h : exec i s = .next t) :
    t.TransmitInv := by
  cases i with
  | tx pkt => exact execTx_keeps_transmitInv hs h
  | txdone => exact execTxdone_keeps_transmitInv hs h
  | txnext => exact execTxnext_keeps_transmitInv hs h
  | reset => cases h; exact (State.toReset_transmitInv hs).outside
  | _ =>
    rw [exec_keeps_transmit_side (by simp [Instr.mnemonic]) (by simp) h, exec_par h]
    exact hs.outside

/-! ### `RB0` and the whole block -/

theorem exec_keeps_rb0Inv {i : Instr} (hs : s.rb0.Inv (rb0Shape s.par))
    (h : exec i s = .next t) : t.rb0.Inv (rb0Shape t.par) := by
  rw [exec_par h]
  cases i with
  | put m v =>
    rcases execPut_inversion h with ⟨q, hq, rfl⟩ | ⟨_, rfl⟩
    · exact RingBuf.put_inv hs hq
    · exact hs
  | pop dv =>
    rcases execPop_inversion h with ⟨v, q, hq, rfl⟩ | ⟨_, rfl⟩
    · exact RingBuf.pop_inv hs hq
    · exact hs
  | reset => cases h; exact RingBuf.clear_inv hs
  | _ =>
    rw [exec_keeps_rb0 (by simp [Instr.mnemonic]) (by simp [Instr.mnemonic])
      (by simp [Instr.mnemonic]) h]
    exact hs

/-- Every command that runs keeps the invariants, well-formed or not. -/
theorem exec_keeps_inv {i : Instr} (hs : s.Inv) (h : exec i s = .next t) : t.Inv := by
  obtain ⟨hrb0, hrx, htx⟩ := s.inv_iff.mp hs
  exact t.inv_iff.mpr
    ⟨exec_keeps_rb0Inv hrb0 h, exec_keeps_receiveInv hrx h, exec_keeps_transmitInv htx h⟩

theorem State.toReset_inv (hs : s.Inv) : s.toReset.Inv := by
  obtain ⟨hrb0, hrx, htx⟩ := s.inv_iff.mp hs
  exact (State.inv_iff _).mpr ⟨RingBuf.clear_inv hrb0, State.toReset_receiveInv hrx,
    State.toReset_transmitInv htx⟩

theorem step_keeps_inv (hs : s.Inv) (h : step s = .next t) : t.Inv := by
  rcases step_inversion h with ⟨_, rfl⟩ | ⟨_, _, rfl⟩ | ⟨_, _, _, _, _, _, rfl⟩ |
    ⟨_, _, _, _, _, _, he⟩
  · exact hs.ports
  · exact State.toReset_inv hs.ports
  · exact hs.ports
  · exact exec_keeps_inv (s := s.takeInput) hs.ports he

end

theorem State.initial_inv (c : Params) : (State.initial c).Inv := by
  refine (State.inv_iff _).mpr ⟨RingBuf.blank_inv _, ?_, ?_⟩
  · exact .empty_window (RingBuf.blank_inv _) rfl (fun _ => rfl) .nil (List.forall_mem_nil _)
  · exact .off (RingBuf.blank_inv _) rfl rfl rfl .nil (List.forall_mem_nil _)

/-- Settles O44: every ring is blank, the receive window empty, the transmitter off. -/
theorem resetStateMeetsTheInvariants : Obligations.ResetStateMeetsTheInvariants :=
  State.initial_inv

/-- Settles O45: `RB0`, the receive side and the transmit side each keep their part. -/
theorem everyStepKeepsTheInvariants : Obligations.EveryStepKeepsTheInvariants :=
  ⟨State.initial_inv, fun _ _ hs h => step_keeps_inv hs h⟩

end Sys2Proof.Machine
end

section
/-! Proofs for 20_memory.md: the byte lanes of a data port (R52). -/

namespace Sys2Proof

/-- Lane 0 is the byte that was packed first. -/
theorem lane_packLanes_zero (b : Byte) (bs : List Byte) : lane (packLanes (b :: bs)) 0 = b := by
  apply BitVec.eq_of_toNat_eq
  have hb := b.isLt
  simp only [lane, packLanes, BitVec.toNat_ofNat, Nat.mul_zero, Nat.shiftRight_zero]
  omega

/-- Every later lane is a lane of the bytes after the first. -/
theorem lane_packLanes_succ (b : Byte) (bs : List Byte) (k : Nat) :
    lane (packLanes (b :: bs)) (k + 1) = lane (packLanes bs) k := by
  have hshift : (b.toNat + 2 ^ 8 * packLanes bs) >>> 8 = packLanes bs := by
    have hb := b.isLt
    rw [Nat.shiftRight_eq_div_pow]
    omega
  rw [lane, lane, packLanes, Nat.mul_succ, Nat.add_comm (8 * k), Nat.shiftRight_add, hshift]

theorem lane_packLanes (bs : List Byte) (k : Nat) : lane (packLanes bs) k = bs.getD k 0 := by
  induction bs generalizing k with
  | nil => simp [lane, packLanes]
  | cons b bs ih =>
    cases k with
    | zero => exact lane_packLanes_zero b bs
    | succ k => rw [lane_packLanes_succ, ih, List.getD_cons_succ]

theorem packLanes_lt (bs : List Byte) : packLanes bs < 2 ^ (8 * bs.length) := by
  induction bs with
  | nil => simp [packLanes]
  | cons b bs ih =>
    have hb := b.isLt
    rw [packLanes, List.length_cons, Nat.mul_succ, Nat.pow_add]
    omega

/-- Settles O4, by induction on the byte string. -/
theorem dataPortCarriesByteInItsLane : Obligations.DataPortCarriesByteInItsLane :=
  fun bs k => ⟨lane_packLanes bs k, packLanes_lt bs⟩

end Sys2Proof
end

section
/-! Proofs for 20_memory.md: runs, and what is read off their outputs and responses (R59). -/

namespace Sys2Proof.Machine

/-! ### Runs -/

theorem runCommands_nil_iff (s : State) (r : Run) :
    runCommands [] s = some r ↔ r = { state := s, rsps := [], outs := [] } := by
  simp [runCommands, eq_comm]

theorem runCommands_cons_iff (i : Instr) (is : List Instr) (s : State) (r : Run) :
    runCommands (i :: is) s = some r ↔
      ∃ t u, exec i s = .next t ∧ runCommands is t = some u ∧
        r = { u with rsps := t.rsp.toList ++ u.rsps, outs := t.out ++ u.outs } := by
  simp only [runCommands]
  cases exec i s with
  | next t => cases hu : runCommands is t <;> simp [hu, eq_comm]
  | fault f => simp
  | refused f => simp

/-- A run of two lists of commands is a run of the first and then a run of the second. -/
theorem runCommands_append_iff (is js : List Instr) (s : State) (r : Run) :
    runCommands (is ++ js) s = some r ↔
      ∃ u v, runCommands is s = some u ∧ runCommands js u.state = some v ∧
        r = { v with rsps := u.rsps ++ v.rsps, outs := u.outs ++ v.outs } := by
  induction is generalizing s r with
  | nil => simp [runCommands_nil_iff]
  | cons i is ih =>
    simp only [List.cons_append, runCommands_cons_iff, ih]
    constructor
    · rintro ⟨t, _, ht, ⟨u, v, hu, hv, rfl⟩, rfl⟩
      exact ⟨_, v, ⟨t, u, ht, hu, rfl⟩, hv, by simp⟩
    · rintro ⟨_, v, ⟨t, u, ht, hu, rfl⟩, hv, rfl⟩
      exact ⟨t, _, ht, ⟨u, v, hu, hv, rfl⟩, by simp⟩

/-! ### Outputs -/

@[simp] theorem serialBytes_append (o o' : List Output) :
    serialBytes (o ++ o') = serialBytes o ++ serialBytes o' := by
  induction o with
  | nil => rfl
  | cons x o ih => cases x <;> simp [serialBytes, ih]

@[simp] theorem eventsOf_append (o o' : List Output) :
    eventsOf (o ++ o') = eventsOf o ++ eventsOf o' := by
  induction o with
  | nil => rfl
  | cons x o ih => cases x <;> simp [eventsOf, ih]

@[simp] theorem txOkPackets_append (o o' : List Output) :
    txOkPackets (o ++ o') = txOkPackets o ++ txOkPackets o' := by
  induction o with
  | nil => rfl
  | cons x o ih =>
    match x with
    | .event (.txOk _) => simp [txOkPackets, ih]
    | .event (.rxOk _) => simp [txOkPackets, ih]
    | .event (.rxFail _) => simp [txOkPackets, ih]
    | .serOut _ => simp [txOkPackets, ih]

@[simp] theorem rxOkPackets_append (o o' : List Output) :
    rxOkPackets (o ++ o') = rxOkPackets o ++ rxOkPackets o' := by
  induction o with
  | nil => rfl
  | cons x o ih =>
    match x with
    | .event (.rxOk _) => simp [rxOkPackets, ih]
    | .event (.txOk _) => simp [rxOkPackets, ih]
    | .event (.rxFail _) => simp [rxOkPackets, ih]
    | .serOut _ => simp [rxOkPackets, ih]

/-! ### Responses -/

/-- Every command that runs leaves a response (30_encoding.md R76). -/
theorem exec_answers {i : Instr} {s t : State} (h : exec i s = .next t) : ∃ a, t.rsp = some a := by
  cases i with
  | put m v => rcases execPut_inversion h with ⟨q, _, rfl⟩ | ⟨_, rfl⟩ <;> exact ⟨_, rfl⟩
  | pop dv => rcases execPop_inversion h with ⟨v, q, _, rfl⟩ | ⟨_, rfl⟩ <;> exact ⟨_, rfl⟩
  | peek n => rcases execPeek_inversion h with ⟨v, _, rfl⟩ | ⟨_, rfl⟩ <;> exact ⟨_, rfl⟩
  | rxbyte b =>
    rcases execRxbyte_inversion h with ⟨_, rfl⟩ | ⟨_, _, _, rfl⟩ | ⟨_, _, rfl⟩ |
      ⟨w, _, _, _, rfl⟩ | ⟨w, _, _, _, rfl⟩ |
      ⟨pkt, _, _, _, ⟨_, rfl⟩ | ⟨q, _, _, rfl⟩ | ⟨q, v, q', _, _, _, rfl⟩⟩ <;> exact ⟨_, rfl⟩
  | txdone =>
    rcases execTxdone_inversion h with ⟨_, rfl⟩ | ⟨b, _, _, _, rfl⟩ |
      ⟨pkt, _, _, _, _, ⟨v, q, _, rfl⟩ | ⟨_, rfl⟩⟩ | ⟨_, _, _, rfl⟩ <;> exact ⟨_, rfl⟩
  | tx pkt =>
    rcases execTx_inversion h with ⟨q, _, _, rfl⟩ | ⟨_, _, rfl⟩ | ⟨_, _, rfl⟩ <;> exact ⟨_, rfl⟩
  | txnext =>
    rcases execTxnext_inversion h with ⟨pkt, _, _, ⟨v, q, _, rfl⟩ | ⟨_, rfl⟩⟩ | ⟨_, rfl⟩ <;>
      exact ⟨_, rfl⟩
  | rxnext => rcases execRxnext_inversion h with ⟨v, q, _, rfl⟩ | ⟨_, rfl⟩ <;> exact ⟨_, rfl⟩
  | reset => cases h; exact ⟨_, rfl⟩

/-- The packets accepted by a run are those of its first command and those of the rest. -/
theorem packetsAccepted_cons (i : Instr) (is : List Instr) (a : Response) (rs : List Response) :
    packetsAccepted (i :: is) (a :: rs) = packetsAccepted [i] [a] ++ packetsAccepted is rs := by
  cases i with
  | tx p => cases a <;> rfl
  | _ => rfl

/-- Only a `TX` accepts a packet. -/
theorem packetsAccepted_of_ne_tx {i : Instr} (hi : i.mnemonic ≠ .tx) (rs : List Response) :
    packetsAccepted [i] rs = [] := by
  cases i with
  | tx p => exact absurd rfl hi
  | _ => cases rs <;> rfl

/-- The ring and receive commands put out neither a `TX_OK` nor a serial byte. -/
theorem exec_no_transmit_output {i : Instr} {s t : State} (hi : ¬ i.IsTransmit)
    (h : exec i s = .next t) : txOkPackets t.out = [] ∧ serialBytes t.out = [] := by
  cases i with
  | rxbyte b =>
    rcases execRxbyte_inversion h with ⟨_, rfl⟩ | ⟨_, _, _, rfl⟩ | ⟨_, _, rfl⟩ |
      ⟨w, _, _, _, rfl⟩ | ⟨w, _, _, _, rfl⟩ |
      ⟨pkt, _, _, _, ⟨_, rfl⟩ | ⟨q, _, _, rfl⟩ | ⟨q, v, q', _, _, _, rfl⟩⟩ <;>
      exact ⟨rfl, rfl⟩
  | rxnext => rcases execRxnext_inversion h with ⟨v, q, _, rfl⟩ | ⟨_, rfl⟩ <;> exact ⟨rfl, rfl⟩
  | reset => cases h; exact ⟨rfl, rfl⟩
  | put | pop | peek =>
    rw [exec_ring_frame (by simp [Instr.IsRing, Instr.mnemonic]) h]; exact ⟨rfl, rfl⟩
  | tx | txdone | txnext => simp [Instr.IsTransmit, Instr.mnemonic] at hi

end Sys2Proof.Machine
end

section
/-! Proofs for 20_memory.md: received packets are delivered in order or reported lost (R59,
70_reset_and_hazards.md R234). -/

namespace Sys2Proof.Machine

section
variable {s t u : State}

/-! ### A whole frame -/

/-- A byte stored after what the window holds. -/
theorem State.storeRxByte_window {w : List Byte} (b : Byte)
    (hw : s.rxbuf.readBytes 0 s.rxCursor = some w) :
    (s.storeRxByte b).rxbuf.readBytes 0 (s.rxCursor + 1) = some (w ++ [b]) := by
  rw [State.storeRxByte_rxbuf]
  apply Memory.readBytes_append
  · rwa [Memory.readBytes_write_outside (.inr (by omega))]
  · simp [Memory.readBytes]

/-- A byte that goes on with the frame in the window: it is stored, or, being the last, it ends the
frame and the frame's packet is accepted. -/
theorem execRxbyte_inside_frame {b : Byte} {w rest pkt : List Byte}
    (hl : pkt.length = s.par.P) (hw : s.rxbuf.readBytes 0 s.rxCursor = some w)
    (hframe : w ++ b :: rest = frameOf s.par pkt) (h : exec (.rxbyte b) s = .next t) :
    (rest ≠ [] ∧ t = (s.storeRxByte b).answer .ok []) ∨
    (rest = [] ∧ AcceptedTo (s.storeRxByte b) pkt t) := by
  have hwin := State.storeRxByte_window b hw
  have hwl := Memory.readBytes_length hw
  have hlen : s.rxCursor + (rest.length + 1) = s.par.F := by
    rw [← frameOf_length hl, ← hframe, List.length_append, List.length_cons, hwl]
  have hF := Params.F_eq s.par
  have hfull (hE : s.rxCursor + 1 = s.par.F) : rest = [] ∧
      (s.storeRxByte b).rxbuf.readBytes 0 s.par.F = some (frameOf s.par pkt) := by
    obtain rfl : rest = [] := List.length_eq_zero_iff.mp (by omega)
    exact ⟨rfl, by rw [← hframe, ← hE, hwin]⟩
  rcases execRxbyte_inversion h with ⟨hge, _⟩ | ⟨_, _, hne, rfl⟩ | ⟨h3, _, rfl⟩ |
    ⟨v, h3, hv, hmismatch, _⟩ | ⟨v, hE, hv, hmismatch, _⟩ | ⟨p, hE, _, hp, hacc⟩
  · omega
  · exact .inl ⟨by rintro rfl; exact hne hlen, rfl⟩
  · exact .inl ⟨by rintro rfl; simp only [List.length_nil] at hlen; omega, rfl⟩
  · have hpre : w ++ [b] = s.par.pre.toList := by
      rw [← frameOf_take s.par pkt, ← hframe, List.append_cons w b rest,
        List.take_left' (by simp [hwl, h3])]
    rw [h3, hpre] at hwin
    exact absurd (Option.some.inj (hv.symm.trans hwin)) hmismatch
  · obtain ⟨_, hread⟩ := hfull hE
    obtain ⟨_, _, hpost⟩ := readBytes_regions hl hread
    exact absurd (Option.some.inj (hv.symm.trans hpost)) hmismatch
  · obtain ⟨hrest, hread⟩ := hfull hE
    obtain ⟨_, hpkt, _⟩ := readBytes_regions hl hread
    obtain rfl := Option.some.inj (hp.symm.trans hpkt)
    exact .inr ⟨hrest, hacc⟩

/-- The bytes `bs` that complete a frame: nothing is put out before the last of them, which accepts
the frame's packet in a state `u` that differs from the first one in the window only. -/
theorem runCommands_rest_of_frame {bs w pkt : List Byte} {r : Run} (hl : pkt.length = s.par.P)
    (hw : s.rxbuf.readBytes 0 s.rxCursor = some w) (hframe : w ++ bs = frameOf s.par pkt)
    (hbs : bs ≠ []) (h : runCommands (rxBytes bs) s = some r) :
    ∃ u, u = { s with
        rxbuf := u.rxbuf, rxCursor := u.rxCursor, rsp := u.rsp, out := u.out } ∧
      AcceptedTo u pkt r.state ∧ r.outs = r.state.out := by
  induction bs generalizing s w r with
  | nil => exact absurd rfl hbs
  | cons b rest ih =>
    obtain ⟨t, v, ht, hv, rfl⟩ := (runCommands_cons_iff _ _ s r).mp h
    rcases execRxbyte_inside_frame hl hw hframe ht with ⟨hne, rfl⟩ | ⟨rfl, hacc⟩
    · obtain ⟨u, hu, hacc, houts⟩ := ih (s := (s.storeRxByte b).answer .ok []) hl
        (State.storeRxByte_window b hw) ((List.append_cons w b rest).symm.trans hframe) hne hv
      exact ⟨u, hu, hacc, houts⟩
    · obtain rfl := (runCommands_nil_iff t v).mp hv
      exact ⟨s.storeRxByte b, rfl, hacc, List.append_nil _⟩

/-- What a whole frame does from an empty window: its packet is accepted, and what that puts out
is all that is put out. -/
theorem runCommands_rxFrame {pkt : List Byte} {r : Run} (hl : pkt.length = s.par.P)
    (hc : s.rxCursor = 0) (h : runCommands (rxFrame s.par pkt) s = some r) :
    ∃ u, u = { s with
        rxbuf := u.rxbuf, rxCursor := u.rxCursor, rsp := u.rsp, out := u.out } ∧
      AcceptedTo u pkt r.state ∧ r.outs = r.state.out :=
  runCommands_rest_of_frame (w := []) hl (by rw [hc]; rfl) (List.nil_append _)
    (by simp [frameOf, Quad.toList]) h

/-! ### The balance of completed frames and delivered packets -/

/-- From `s` to `t`, both between two frames, the frames of `offered` were completed and `outs` was
put out: what was queued and the packets `kept` have either been delivered or are still queued, in
order, and each packet not kept was reported `BUFFER_FULL`. -/
structure ReceiveBalance (s : State) (offered kept : List (List Byte)) (outs : List Output)
    (t : State) : Prop where
  par : t.par = s.par
  rxCursor : t.rxCursor = 0
  kept_sublist : kept.Sublist offered
  queue : s.rxq.items (queueShape s.par) ++ kept.map some =
    (rxOkPackets outs).map some ++ t.rxq.items (queueShape s.par)
  lost : kept.length + (eventsOf outs).count (.rxFail .bufferFull) = offered.length

theorem ReceiveBalance.refl (hc : s.rxCursor = 0) : ReceiveBalance s [] [] [] s :=
  ⟨rfl, hc, .refl _, by simp [rxOkPackets], rfl⟩

theorem ReceiveBalance.trans {p p' k k' : List (List Byte)} {o o' : List Output}
    (h : ReceiveBalance s p k o t) (h' : ReceiveBalance t p' k' o' u) :
    ReceiveBalance s (p ++ p') (k ++ k') (o ++ o') u where
  par := h'.par.trans h.par
  rxCursor := h'.rxCursor
  kept_sublist := h.kept_sublist.append h'.kept_sublist
  queue := by
    have hq := h'.queue
    rw [h.par] at hq
    rw [List.map_append, ← List.append_assoc, h.queue, List.append_assoc, hq, rxOkPackets_append,
      List.map_append, List.append_assoc]
  lost := by
    have hl := h.lost
    have hl' := h'.lost
    rw [eventsOf_append, List.count_append, List.length_append, List.length_append]
    omega

/-- An accepted frame: lost and reported, queued, or delivered as the armed gate asks. -/
theorem AcceptedTo.receiveBalance {pkt : List Byte} (h : AcceptedTo u pkt t) :
    ∃ kept, ReceiveBalance u [pkt] kept t.out t := by
  rcases h with ⟨_, rfl⟩ | ⟨q, hq, _, rfl⟩ | ⟨q, v, q', hq, _, hpop, rfl⟩
  · exact ⟨[], rfl, rfl, List.nil_sublist _, by simp [rxOkPackets], rfl⟩
  · exact ⟨[pkt], rfl, rfl, .refl _, by simp [rxOkPackets, RingBuf.items_put hq], rfl⟩
  · have hitems : q.items (queueShape u.par) = u.rxq.items (queueShape u.par) ++ [some pkt] :=
      RingBuf.items_put hq
    rw [RingBuf.items_pop hpop] at hitems
    exact ⟨[pkt], rfl, rfl, .refl _, by simp [rxOkPackets, hitems], rfl⟩

theorem runCommands_rxFrame_receiveBalance {pkt : List Byte} {r : Run}
    (hl : pkt.length = s.par.P) (hc : s.rxCursor = 0)
    (h : runCommands (rxFrame s.par pkt) s = some r) :
    ∃ kept, ReceiveBalance s [pkt] kept r.outs r.state := by
  obtain ⟨u, hu, hacc, houts⟩ := runCommands_rxFrame hl hc h
  obtain ⟨kept, hpar, hc', hsub, hqueue, hlost⟩ := hacc.receiveBalance
  rw [houts]
  rw [hu] at hpar hqueue
  exact ⟨kept, hpar, hc', hsub, hqueue, hlost⟩

theorem execRxnext_receiveBalance (hc : s.rxCursor = 0) (h : exec .rxnext s = .next t) :
    ReceiveBalance s [] [] t.out t := by
  rcases execRxnext_inversion h with ⟨v, q, hq, rfl⟩ | ⟨_, rfl⟩
  · exact ⟨rfl, hc, .refl _, by simp [rxOkPackets, RingBuf.items_pop hq], rfl⟩
  · exact ⟨rfl, hc, .refl _, by simp [rxOkPackets], rfl⟩

theorem runCommands_framesAndArms_receiveBalance {l : List (Option (List Byte))} {r : Run}
    (hc : s.rxCursor = 0) (hl : ∀ p, some p ∈ l → p.length = s.par.P)
    (h : runCommands (framesAndArms s.par l) s = some r) :
    ∃ kept, ReceiveBalance s (l.filterMap id) kept r.outs r.state := by
  induction l generalizing s r with
  | nil =>
    obtain rfl := (runCommands_nil_iff s r).mp h
    exact ⟨[], .refl hc⟩
  | cons x l ih =>
    have hl' : ∀ p, some p ∈ l → p.length = s.par.P := fun p hp => hl p (List.mem_cons_of_mem _ hp)
    cases x with
    | some pkt =>
      obtain ⟨u, v, hu, hv, rfl⟩ := (runCommands_append_iff _ _ s r).mp h
      obtain ⟨kept, hframe⟩ := runCommands_rxFrame_receiveBalance (hl pkt List.mem_cons_self) hc hu
      rw [← hframe.par] at hl' hv
      obtain ⟨kept', hrest⟩ := ih hframe.rxCursor hl' hv
      exact ⟨kept ++ kept', hframe.trans hrest⟩
    | none =>
      obtain ⟨t, v, ht, hv, rfl⟩ := (runCommands_cons_iff _ _ s r).mp h
      have harm := execRxnext_receiveBalance hc ht
      rw [← harm.par] at hl' hv
      obtain ⟨kept, hrest⟩ := ih harm.rxCursor hl' hv
      exact ⟨kept, harm.trans hrest⟩

end

/-- Settles O29: the balance of the run, from an empty queue. -/
theorem packetsAreDeliveredInOrderOrReportedLost :
    Obligations.PacketsAreDeliveredInOrderOrReportedLost := by
  intro s l r _ hc hq hl h
  obtain ⟨kept, _, _, hsub, hqueue, hlost⟩ := runCommands_framesAndArms_receiveBalance hc hl h
  have hempty : s.rxq.items (queueShape s.par) = [] := List.length_eq_zero_iff.mp (by simp [hq])
  rw [hempty, List.nil_append] at hqueue
  exact ⟨kept, hsub, hqueue.symm, hlost⟩

end Sys2Proof.Machine
end

section
/-! Proofs for 20_memory.md: the transmit side puts out what it accepted, in order (R59). -/

namespace Sys2Proof.Machine

/-! ### What the transmitter owes -/

/-- The packets in a queue, oldest first. -/
def RingBuf.packets (g : Shape) (q : RingBuf) : List (List Byte) := (q.items g).filterMap id

theorem RingBuf.packets_of_count_zero {g : Shape} {q : RingBuf} (h : q.count = 0) :
    q.packets g = [] := by
  simp [RingBuf.packets, RingBuf.items, h]

theorem RingBuf.packets_put {g : Shape} {q q' : RingBuf} {v : List Byte}
    (h : q.put g v = .done q') : q'.packets g = q.packets g ++ [v] := by
  simp [RingBuf.packets, RingBuf.items_put h]

theorem RingBuf.packets_pop {g : Shape} {q q' : RingBuf} {v : List Byte}
    (h : q.pop g = .done (v, q')) : q.packets g = v :: q'.packets g := by
  simp [RingBuf.packets, RingBuf.items_pop h]

/-- The packet whose frame is in progress, if there is one. -/
def State.currentPackets (s : State) : List (List Byte) :=
  if s.txInProgress then s.sentPacket.toList else []

/-- The bytes of the frame in progress that have not left yet. -/
def State.unsentBytes (s : State) : List Byte :=
  if s.txInProgress then ((s.txbuf.readBytes 0 s.par.F).getD []).drop s.txCursor else []

/-- The packets accepted and not yet reported by a `TX_OK`, in order. -/
def State.owedPackets (s : State) : List (List Byte) :=
  s.currentPackets ++ s.txq.packets (queueShape s.par)

/-- The bytes of the frames of accepted packets that have not left yet, in order. -/
def State.owedBytes (s : State) : List Byte :=
  s.unsentBytes ++ (s.txq.packets (queueShape s.par)).flatMap (frameOf s.par)

section
variable {s t u : State}

theorem State.currentPackets_off (h : s.txInProgress = false) : s.currentPackets = [] := by
  simp [State.currentPackets, h]

theorem State.unsentBytes_off (h : s.txInProgress = false) : s.unsentBytes = [] := by
  simp [State.unsentBytes, h]

theorem State.currentPackets_on {pkt : List Byte} (h : s.txInProgress = true)
    (hp : s.txbuf.readBytes 4 s.par.P = some pkt) : s.currentPackets = [pkt] := by
  simp [State.currentPackets, State.sentPacket, h, hp]

theorem State.unsentBytes_on {f : List Byte} (h : s.txInProgress = true)
    (hf : s.txbuf.readBytes 0 s.par.F = some f) : s.unsentBytes = f.drop s.txCursor := by
  simp [State.unsentBytes, h, hf]

theorem State.unsentBytes_at_end (hF : s.par.F ≤ s.txCursor) : s.unsentBytes = [] := by
  cases hp : s.txInProgress with
  | false => exact State.unsentBytes_off hp
  | true =>
    cases hf : s.txbuf.readBytes 0 s.par.F with
    | none => simp [State.unsentBytes, hf]
    | some f =>
      rw [State.unsentBytes_on hp hf]
      exact List.drop_eq_nil_of_le ((Memory.readBytes_length hf).trans_le hF)

theorem State.nothing_owed_of_off (hp : s.txInProgress = false) (hc : s.txq.count = 0) :
    s.owedPackets = [] ∧ s.owedBytes = [] := by
  have hq := RingBuf.packets_of_count_zero (g := queueShape s.par) hc
  simp [State.owedPackets, State.owedBytes, State.currentPackets_off hp, State.unsentBytes_off hp,
    hq]

/-- A frame that has left whole is owed its report only. -/
theorem State.owed_at_end {pkt : List Byte} (hp : s.txInProgress = true)
    (hF : s.par.F ≤ s.txCursor) (hpkt : s.txbuf.readBytes 4 s.par.P = some pkt) :
    s.owedPackets = pkt :: s.txq.packets (queueShape s.par) ∧
      s.owedBytes = (s.txq.packets (queueShape s.par)).flatMap (frameOf s.par) := by
  simp [State.owedPackets, State.owedBytes, State.currentPackets_on hp hpkt,
    State.unsentBytes_at_end hF]

/-- After `StartFrame(v)` the packet is owed before the queue, and so is all of its frame but the
byte `PRE[0]` that has left. -/
theorem State.owed_of_started (s : State) (q : RingBuf) {v : List Byte}
    (hl : v.length = s.par.P) (rsp : Option Response) (out : List Output) :
    State.owedPackets { s with
        txq := q, txbuf := s.txbuf.writeBytes 0 (frameOf s.par v), txCursor := 1,
        txInProgress := true, rsp, out } = v :: q.packets (queueShape s.par) ∧
      s.par.pre.b0 :: State.owedBytes { s with
        txq := q, txbuf := s.txbuf.writeBytes 0 (frameOf s.par v), txCursor := 1,
        txInProgress := true, rsp, out } =
          frameOf s.par v ++ (q.packets (queueShape s.par)).flatMap (frameOf s.par) := by
  have hf := readBytes_frame s.txbuf hl
  obtain ⟨_, hv, _⟩ := readBytes_regions hl hf
  constructor
  · rw [State.owedPackets, State.currentPackets_on rfl hv]; rfl
  · rw [State.owedBytes, State.unsentBytes_on rfl hf]; rfl

/-- The byte that leaves next is the first unsent one. -/
theorem State.unsentBytes_next {b : Byte} {f : List Byte} (hp : s.txInProgress = true)
    (hf : s.txbuf.readBytes 0 s.par.F = some f) (hlt : s.txCursor < s.par.F)
    (hb : s.txbuf.read s.txCursor = some b) : s.unsentBytes = b :: f.drop (s.txCursor + 1) := by
  obtain ⟨_, hcell⟩ := (Memory.readBytes_eq_some_iff _ _ _ _).mp hf
  have hget : f[s.txCursor]? = some b := by rw [← hcell _ hlt, Nat.zero_add, hb]
  obtain ⟨hlen, rfl⟩ := List.getElem?_eq_some_iff.mp hget
  rw [State.unsentBytes_on hp hf, List.drop_eq_getElem_cons hlen]

/-! ### The balance of accepted and put out -/

/-- From `s` to `t` the packets `accepted` were accepted and `outs` was put out: what was owed and
what was accepted has either been put out or is still owed, in order. -/
structure TransmitBalance (s : State) (accepted : List (List Byte)) (outs : List Output)
    (t : State) : Prop where
  par : t.par = s.par
  packets : s.owedPackets ++ accepted = txOkPackets outs ++ t.owedPackets
  bytes : s.owedBytes ++ accepted.flatMap (frameOf s.par) = serialBytes outs ++ t.owedBytes

theorem TransmitBalance.refl (s : State) : TransmitBalance s [] [] s :=
  ⟨rfl, by simp [txOkPackets], by simp [serialBytes]⟩

theorem TransmitBalance.trans {a a' : List (List Byte)} {o o' : List Output}
    (h : TransmitBalance s a o t) (h' : TransmitBalance t a' o' u) :
    TransmitBalance s (a ++ a') (o ++ o') u where
  par := h'.par.trans h.par
  packets := by
    rw [← List.append_assoc, h.packets, List.append_assoc, h'.packets, txOkPackets_append,
      List.append_assoc]
  bytes := by
    rw [List.flatMap_append, ← List.append_assoc, h.bytes, List.append_assoc, ← h.par, h'.bytes,
      serialBytes_append, List.append_assoc]

/-- A step that changes nothing that is owed and puts nothing out. -/
theorem TransmitBalance.of_owed_eq {o : List Output} (hpar : t.par = s.par)
    (hpk : t.owedPackets = s.owedPackets) (hby : t.owedBytes = s.owedBytes)
    (ho : txOkPackets o = [] ∧ serialBytes o = []) : TransmitBalance s [] o t := by
  obtain ⟨htx, hser⟩ := ho
  exact ⟨hpar, by simp [hpk, htx], by simp [hby, hser]⟩

/-- Retiring a frame that has left whole: its packet is reported, and the next one is started. -/
theorem RetiredTo.transmitBalance {pkt : List Byte} (hp : s.txInProgress = true)
    (hF : s.par.F ≤ s.txCursor) (hpkt : s.txbuf.readBytes 4 s.par.P = some pkt)
    (h : RetiredTo s pkt t) : TransmitBalance s [] t.out t := by
  obtain ⟨hpk, hby⟩ := State.owed_at_end hp hF hpkt
  rcases h with ⟨v, q, hq, rfl⟩ | ⟨hq, rfl⟩
  · obtain ⟨_, hv, _⟩ := (RingBuf.pop_done_iff _ _ _ _).mp hq
    obtain ⟨hpk', hby'⟩ := State.owed_of_started s q (RingBuf.readSlot_length hv) (some .ok)
      [.event (.txOk pkt), .serOut s.par.pre.b0]
    have hpop := RingBuf.packets_pop hq
    exact ⟨rfl, by simp [hpk, hpk', hpop, txOkPackets],
      by simp [hby, hby', hpop, serialBytes]⟩
  · have hc := (RingBuf.pop_fail_iff _ _).mp hq
    have hempty := RingBuf.packets_of_count_zero (g := queueShape s.par) hc
    obtain ⟨hpk', hby'⟩ := State.nothing_owed_of_off
      (s := { s with txInProgress := false, rsp := some .ok, out := [.event (.txOk pkt)] }) rfl hc
    exact ⟨rfl, by simp [hpk, hpk', hempty, txOkPackets], by simp [hby, hby', hempty, serialBytes]⟩

theorem execTx_transmitBalance {pkt : List Byte} (hs : s.TransmitInv)
    (h : exec (.tx pkt) s = .next t) :
    TransmitBalance s (packetsAccepted [.tx pkt] t.rsp.toList) t.out t := by
  rcases execTx_inversion h with ⟨q, _, hq, rfl⟩ | ⟨_, _, rfl⟩ | ⟨hp, hl, rfl⟩
  · have hput := RingBuf.packets_put hq
    refine ⟨rfl, ?_, ?_⟩
    · simp [State.owedPackets, hput, packetsAccepted, txOkPackets, State.currentPackets,
        State.sentPacket]
    · simp [State.owedBytes, hput, packetsAccepted, serialBytes, State.unsentBytes]
  · exact .of_owed_eq rfl rfl rfl ⟨rfl, rfl⟩
  · have hc := hs.off_empty hp
    have hempty := RingBuf.packets_of_count_zero (g := queueShape s.par) hc
    obtain ⟨hpk, hby⟩ := State.nothing_owed_of_off hp hc
    obtain ⟨hpk', hby'⟩ := State.owed_of_started s s.txq hl (some .ok) [.serOut s.par.pre.b0]
    exact ⟨rfl, by simp [hpk, hpk', hempty, packetsAccepted, txOkPackets],
      by simp [hby, hby', hempty, packetsAccepted, serialBytes]⟩

theorem execTxdone_transmitBalance (hs : s.TransmitInv) (h : exec .txdone s = .next t) :
    TransmitBalance s [] t.out t := by
  rcases execTxdone_inversion h with ⟨_, rfl⟩ | ⟨b, hirq, hlt, hb, rfl⟩ |
    ⟨pkt, hirq, hF, _, hpkt, hr⟩ | ⟨_, _, _, rfl⟩
  · exact .of_owed_eq rfl rfl rfl ⟨rfl, rfl⟩
  · obtain ⟨hp, _⟩ := s.txIrqEn_eq_true_iff.mp hirq
    obtain ⟨f, hf⟩ := Option.isSome_iff_exists.mp (hs.tx_stored hp)
    have hfirst := State.unsentBytes_next hp hf hlt hb
    have hrest := State.unsentBytes_on (s := { s with
      txCursor := s.txCursor + 1, rsp := some .ok, out := [.serOut b] }) hp hf
    refine ⟨rfl, List.append_nil _, ?_⟩
    simp [State.owedBytes, hfirst, hrest, serialBytes]
  · obtain ⟨hp, _⟩ := s.txIrqEn_eq_true_iff.mp hirq
    obtain ⟨hpar, hpk, hby⟩ :=
      RetiredTo.transmitBalance (s := { s with txArmed := false }) hp hF hpkt hr
    exact ⟨hpar, hpk, hby⟩
  · exact .of_owed_eq rfl rfl rfl ⟨rfl, rfl⟩

theorem execTxnext_transmitBalance (hs : s.TransmitInv) (h : exec .txnext s = .next t) :
    TransmitBalance s [] t.out t := by
  rcases execTxnext_inversion h with ⟨pkt, hb, hpkt, hr⟩ | ⟨_, rfl⟩
  · obtain ⟨hp, _, hF⟩ := hs.blocking hb
    obtain ⟨hpar, hpk, hby⟩ :=
      RetiredTo.transmitBalance (s := { s with txBlocking := false }) hp hF.ge hpkt hr
    exact ⟨hpar, hpk, hby⟩
  · exact .of_owed_eq rfl rfl rfl ⟨rfl, rfl⟩

theorem exec_transmitBalance {i : Instr} (hs : s.TransmitInv) (hi : i ≠ .reset)
    (h : exec i s = .next t) :
    TransmitBalance s (packetsAccepted [i] t.rsp.toList) t.out t := by
  by_cases htx : i.IsTransmit
  · cases i with
    | tx pkt => exact execTx_transmitBalance hs h
    | txdone =>
      rw [packetsAccepted_of_ne_tx (by simp [Instr.mnemonic])]
      exact execTxdone_transmitBalance hs h
    | txnext =>
      rw [packetsAccepted_of_ne_tx (by simp [Instr.mnemonic])]
      exact execTxnext_transmitBalance hs h
    | _ => simp [Instr.IsTransmit, Instr.mnemonic] at htx
  · rw [packetsAccepted_of_ne_tx (fun hm => htx (.inl hm))]
    have hkeep := exec_keeps_transmit_side htx hi h
    have hpar := exec_par h
    refine .of_owed_eq hpar ?_ ?_ (exec_no_transmit_output htx h)
    · rw [hkeep, hpar]; rfl
    · rw [hkeep, hpar]; rfl

theorem runCommands_transmitBalance {is : List Instr} {r : Run} (hs : s.TransmitInv)
    (hi : Instr.reset ∉ is) (h : runCommands is s = some r) :
    TransmitBalance s (packetsAccepted is r.rsps) r.outs r.state := by
  induction is generalizing s r with
  | nil =>
    obtain rfl := (runCommands_nil_iff s r).mp h
    exact .refl s
  | cons i is ih =>
    have hnot : Instr.reset ∉ is := fun hm => hi (List.mem_cons_of_mem _ hm)
    have hne : i ≠ .reset := fun he => hi (he ▸ List.mem_cons_self)
    obtain ⟨t, u, ht, hu, rfl⟩ := (runCommands_cons_iff i is s r).mp h
    have hstep := exec_transmitBalance hs hne ht
    obtain ⟨a, ha⟩ := exec_answers ht
    simp only [ha, Option.toList_some, List.singleton_append] at hstep ⊢
    rw [packetsAccepted_cons]
    exact hstep.trans (ih (exec_keeps_transmitInv hs ht) hnot hu)

end

/-- Settles O40: with the transmitter off nothing is owed, so by the balance of the run what was
put out begins what was accepted. -/
theorem serialOutputIsTheFramesOfAcceptedPackets :
    Obligations.SerialOutputIsTheFramesOfAcceptedPackets := by
  intro s is r hs hoff _ hreset h
  obtain ⟨_, _, htx⟩ := s.inv_iff.mp hs
  obtain ⟨hpk, hby⟩ := State.nothing_owed_of_off hoff (htx.off_empty hoff)
  obtain ⟨_, hpackets, hbytes⟩ := runCommands_transmitBalance htx hreset h
  rw [hpk, List.nil_append] at hpackets
  rw [hby, List.nil_append] at hbytes
  exact ⟨⟨_, hpackets.symm⟩, ⟨_, hbytes.symm⟩⟩

end Sys2Proof.Machine
end

section
/-! Proofs for 30_encoding.md: the data operand on the port (20_memory.md R52, R74). -/

namespace Sys2Proof

@[simp] theorem unpackLanes_length (n port : Nat) : (unpackLanes n port).length = n := by
  simp [unpackLanes]

/-- The first lane, then the lanes of the port with its first byte shifted out. -/
theorem unpackLanes_succ (n port : Nat) :
    unpackLanes (n + 1) port = lane port 0 :: unpackLanes n (port >>> 8) := by
  have hshift (k : Nat) : lane port (k + 1) = lane (port >>> 8) k := by
    rw [lane, lane, Nat.mul_succ, Nat.add_comm, Nat.shiftRight_add]
  simp [unpackLanes, List.range_succ_eq_map, Function.comp_def, hshift]

theorem unpackLanes_packLanes {n : Nat} {bs : List Byte} (h : bs.length = n) :
    unpackLanes n (packLanes bs) = bs := by
  apply List.ext_getElem (by simp [h])
  intro k _ hk
  simp [unpackLanes, lane_packLanes, hk]

theorem packLanes_unpackLanes (n port : Nat) :
    packLanes (unpackLanes n port) = port % 2 ^ (8 * n) := by
  induction n generalizing port with
  | zero => simp [unpackLanes, packLanes, Nat.mod_one]
  | succ n ih =>
    have hfirst : (lane port 0).toNat = port % 2 ^ 8 := by simp [lane]
    rw [unpackLanes_succ, packLanes, ih, hfirst, Nat.shiftRight_eq_div_pow, ← Nat.mod_mul,
      ← Nat.pow_add, Nat.mul_succ, Nat.add_comm]

/-- The operand depends on its own lanes only. -/
theorem unpackLanes_congr {n w w' : Nat} (h : ∀ k, k < n → lane w k = lane w' k) :
    unpackLanes n w = unpackLanes n w' :=
  List.map_congr_left fun k hk => h k (List.mem_range.mp hk)

end Sys2Proof
end

section
/-! Proofs for 30_encoding.md: the bit fields of a word and the table of exact bit patterns (R72,
R73, R75, R80, R87). -/

namespace Sys2Proof

/-! ### The four fields of a word (R72) -/

/-- A word is its four fields. -/
theorem word_eq_iff_fields (a b : Word) :
    a = b ↔ opField a = opField b ∧ subHighField a = subHighField b ∧
      flagField a = flagField b ∧ immField a = immField b := by
  refine ⟨by rintro rfl; simp, fun ⟨hop, hsub, hflag, himm⟩ => ?_⟩
  replace hop := congrArg BitVec.toNat hop
  replace hsub := congrArg BitVec.toNat hsub
  replace himm := congrArg BitVec.toNat himm
  simp only [opField, subHighField, immField, flagField, BitVec.extractLsb'_toNat,
    Nat.shiftRight_eq_div_pow, BitVec.getLsbD, Nat.testBit_eq_decide_div_mod_eq,
    decide_eq_decide] at hop hsub hflag himm
  apply BitVec.eq_of_toNat_eq
  omega

@[simp] theorem opField_and (a b : Word) : opField (a &&& b) = opField a &&& opField b :=
  BitVec.extractLsb'_and

@[simp] theorem subHighField_and (a b : Word) :
    subHighField (a &&& b) = subHighField a &&& subHighField b :=
  BitVec.extractLsb'_and

@[simp] theorem flagField_and (a b : Word) :
    flagField (a &&& b) = (flagField a && flagField b) :=
  BitVec.getLsbD_and

@[simp] theorem immField_and (a b : Word) : immField (a &&& b) = immField a &&& immField b :=
  BitVec.extractLsb'_and

/-! ### The table read field by field -/

/-- The opcode of each command (R75). -/
def Mnemonic.opcode : Mnemonic → BitVec 4
  | .put => 0x1
  | .pop => 0x2
  | .peek => 0x3
  | .rxbyte => 0x8
  | .txdone => 0x9
  | .tx => 0xA
  | .txnext => 0xB
  | .rxnext => 0xC
  | .reset => 0xF

/-- A word that stands for a command of this name: its opcode, and zero in every bit that the
format does not use (R72, R73, R80). -/
structure Mnemonic.Names (m : Mnemonic) (cw : Word) : Prop where
  op : opField cw = m.opcode
  sub : subHighField cw = 0
  flag : hasFlag m.opcode = false → flagField cw = false
  imm : m.format ≠ .I → immField cw = 0

/-- In every row the mask covers the opcode, `cw[11:9]` and each operand field that the command
does not use, and the pattern is the opcode alone. -/
theorem opRows_fields : ∀ r ∈ opRows,
    opField r.pattern = r.op.opcode ∧ opField r.mask = BitVec.allOnes 4 ∧
    subHighField r.pattern = 0 ∧ subHighField r.mask = BitVec.allOnes 3 ∧
    flagField r.pattern = false ∧ flagField r.mask = !hasFlag r.op.opcode ∧
    immField r.pattern = 0 ∧
    immField r.mask = if r.op.format = .I then 0 else BitVec.allOnes 8 := by decide

theorem Mnemonic.has_row (m : Mnemonic) : ∃ r ∈ opRows, r.op = m := by
  cases m <;> simp [opRows]

theorem opRows_opcode_injective :
    ∀ r ∈ opRows, ∀ r' ∈ opRows, r.op.opcode = r'.op.opcode → r = r' := by decide

/-- A row selects exactly the words that stand for its command. -/
theorem OpRow.selects_iff_names {r : OpRow} (hr : r ∈ opRows) (cw : Word) :
    r.selects cw = true ↔ r.op.Names cw := by
  obtain ⟨hop, hopm, hsub, hsubm, hflag, hflagm, himm, himmm⟩ := opRows_fields r hr
  have hfields : r.selects cw = true ↔
      opField cw = r.op.opcode ∧ subHighField cw = 0 ∧
      (hasFlag r.op.opcode = false → flagField cw = false) ∧
      (r.op.format ≠ .I → immField cw = 0) := by
    rw [OpRow.selects, beq_iff_eq, word_eq_iff_fields, opField_and, subHighField_and,
      flagField_and, immField_and, hop, hopm, hsub, hsubm, hflag, hflagm, himm, himmm,
      BitVec.and_allOnes, BitVec.and_allOnes]
    by_cases hI : r.op.format = .I
    · rw [if_pos hI]
      cases hasFlag r.op.opcode <;> simp [hI]
    · rw [if_neg hI, BitVec.and_allOnes]
      cases hasFlag r.op.opcode <;> simp [hI]
  exact hfields.trans ⟨fun ⟨h1, h2, h3, h4⟩ => ⟨h1, h2, h3, h4⟩,
    fun h => ⟨h.op, h.sub, h.flag, h.imm⟩⟩

/-- Settles O5: the rows' opcodes differ, and a row selects only words with its opcode. -/
theorem atMostOneTableRowSelectsAWord : Obligations.AtMostOneTableRowSelectsAWord := by
  intro cw r r' hr hr' hsel hsel'
  have hop := ((OpRow.selects_iff_names hr cw).mp hsel).op
  have hop' := ((OpRow.selects_iff_names hr' cw).mp hsel').op
  exact opRows_opcode_injective r hr r' hr' (hop.symm.trans hop')

/-- No row selects a word exactly when it stands for no command. -/
theorem no_row_selects_iff (cw : Word) :
    (∀ r ∈ opRows, r.selects cw = false) ↔ ∀ m : Mnemonic, ¬ m.Names cw := by
  constructor
  · intro h m hm
    obtain ⟨r, hr, rfl⟩ := m.has_row
    simpa [h r hr] using (OpRow.selects_iff_names hr cw).mpr hm
  · intro h r hr
    exact Bool.eq_false_iff.mpr fun hs => h r.op ((OpRow.selects_iff_names hr cw).mp hs)

/-- Two words that stand for the same command differ in an operand field of it, if at all. -/
theorem Mnemonic.Names.word_eq {m : Mnemonic} {a b : Word} (ha : m.Names a) (hb : m.Names b)
    (hflag : hasFlag m.opcode = true → flagField a = flagField b)
    (himm : m.format = .I → immField a = immField b) : a = b := by
  refine (word_eq_iff_fields a b).mpr ⟨ha.op.trans hb.op.symm, ha.sub.trans hb.sub.symm, ?_, ?_⟩
  · cases h : hasFlag m.opcode with
    | true => exact hflag h
    | false => rw [ha.flag h, hb.flag h]
  · by_cases h : m.format = .I
    · exact himm h
    · rw [ha.imm h, hb.imm h]

end Sys2Proof
end

section
/-! Proofs for 30_encoding.md: decoding and encoding (R74, R80, R81, R86, R87, 60_exceptions.md
R194). -/

namespace Sys2Proof

/-! ### The decoder by names (R81) -/

/-- The decoder goes by the word alone: the command the word stands for, else the class of R80. -/
theorem decode_cases (cw : Word) :
    (∃ m : Mnemonic, m.Names cw ∧ ∀ c w, decode c cw w = .ok (operandsOf c cw w m)) ∨
    ((∀ m : Mnemonic, ¬ m.Names cw) ∧ ∀ c w, decode c cw w = .error (illegalReason cw)) := by
  cases hfind : opRows.find? (fun r => r.selects cw) with
  | some r =>
    have hr := List.mem_of_find?_eq_some hfind
    have hsel := List.find?_some hfind
    exact .inl ⟨r.op, (OpRow.selects_iff_names hr cw).mp hsel,
      fun c w => by rw [decode, hfind]⟩
  | none =>
    refine .inr ⟨(no_row_selects_iff cw).mp fun r hr => ?_, fun c w => by rw [decode, hfind]⟩
    exact Bool.eq_false_iff.mpr (List.find?_eq_none.mp hfind r hr)

theorem Mnemonic.opcode_injective {m m' : Mnemonic} (h : m.opcode = m'.opcode) : m = m' := by
  obtain ⟨r, hr, rfl⟩ := m.has_row
  obtain ⟨r', hr', rfl⟩ := m'.has_row
  rw [opRows_opcode_injective r hr r' hr' h]

theorem decode_of_names {m : Mnemonic} {cw : Word} (h : m.Names cw) (c : Params) (w : Nat) :
    decode c cw w = .ok (operandsOf c cw w m) := by
  rcases decode_cases cw with ⟨m', hm', hdec⟩ | ⟨hnone, _⟩
  · rw [hdec, Mnemonic.opcode_injective (h.op.symm.trans hm'.op)]
  · exact absurd h (hnone m)

theorem decode_of_no_names {cw : Word} (h : ∀ m : Mnemonic, ¬ m.Names cw) (c : Params) (w : Nat) :
    decode c cw w = .error (illegalReason cw) := by
  rcases decode_cases cw with ⟨m, hm, _⟩ | ⟨_, hdec⟩
  · exact absurd hm (h m)
  · exact hdec c w

theorem decode_eq_ok_iff (c : Params) (cw : Word) (w : Nat) (i : Instr) :
    decode c cw w = .ok i ↔ ∃ m : Mnemonic, m.Names cw ∧ operandsOf c cw w m = i := by
  constructor
  · intro h
    rcases decode_cases cw with ⟨m, hm, hdec⟩ | ⟨_, hdec⟩
    · exact ⟨m, hm, by simpa [hdec] using h⟩
    · simp [hdec] at h
  · rintro ⟨m, hm, rfl⟩
    exact decode_of_names hm c w

/-! ### Encoded words (R86, R87) -/

/-- The word of a command stands for that command. -/
theorem names_encodeWord (i : Instr) : i.mnemonic.Names (encodeWord i) := by
  have hrow : Laws.EncodeSelectsRow.Statement i := by
    cases i with
    | put m item => exact Laws.EncodeSelectsRow.put m item
    | pop dv => exact Laws.EncodeSelectsRow.pop dv
    | peek n => exact Laws.EncodeSelectsRow.peek n
    | rxbyte b => exact Laws.EncodeSelectsRow.rxbyte b
    | txdone => exact Laws.EncodeSelectsRow.txdone
    | tx pkt => exact Laws.EncodeSelectsRow.tx pkt
    | txnext => exact Laws.EncodeSelectsRow.txnext
    | rxnext => exact Laws.EncodeSelectsRow.rxnext
    | reset => exact Laws.EncodeSelectsRow.reset
  obtain ⟨r, hr, hop, hsel⟩ := hrow
  exact hop ▸ (OpRow.selects_iff_names hr _).mp hsel

@[simp] theorem flagField_encodeWord_put (m : Bool) (item : List Byte) :
    flagField (encodeWord (.put m item)) = m := by
  cases m <;> simp [encodeWord, flagField]

@[simp] theorem flagField_encodeWord_pop (dv : Bool) :
    flagField (encodeWord (.pop dv)) = dv := by cases dv <;> rfl

/-- An immediate is put in the low eight bits of a word whose own bits are all above them. -/
theorem immField_or_setWidth {a : Word} (ha : immField a = 0) (n : BitVec 8) :
    immField (a ||| n.setWidth 16) = n := by
  have hn : immField (n.setWidth 16) = n :=
    BitVec.eq_of_toNat_eq (by simpa [immField] using n.isLt)
  have hor : immField (a ||| n.setWidth 16) = immField a ||| immField (n.setWidth 16) :=
    BitVec.extractLsb'_or
  rw [hor, ha, hn]
  exact BitVec.zero_or

@[simp] theorem immField_encodeWord_peek (n : BitVec 8) :
    immField (encodeWord (.peek n)) = n := immField_or_setWidth (by decide) n

@[simp] theorem immField_encodeWord_rxbyte (b : Byte) :
    immField (encodeWord (.rxbyte b)) = b := immField_or_setWidth (by decide) b

/-! ### The round trips -/

/-- Settles O1: the word of a command names it, and each operand is read back from where it was
put. -/
theorem decodeOfEncodeGivesTheCommand : Obligations.DecodeOfEncodeGivesTheCommand := by
  intro c i hwf
  rw [decode_of_names (names_encodeWord i)]
  congr 1
  cases i with
  | put m item =>
    have hlen : item.length = c.S0 := by simpa [Instr.WellFormed] using hwf
    simp [Instr.mnemonic, operandsOf, encodeData, unpackLanes_packLanes hlen]
  | tx pkt =>
    have hlen : pkt.length = c.P := by simpa [Instr.WellFormed] using hwf
    simp [Instr.mnemonic, operandsOf, encodeData, unpackLanes_packLanes hlen]
  | pop | peek | rxbyte => simp [Instr.mnemonic, operandsOf]
  | txdone | txnext | rxnext | reset => rfl

@[simp] theorem operandsOf_mnemonic (c : Params) (cw : Word) (w : Nat) (m : Mnemonic) :
    (operandsOf c cw w m).mnemonic = m := by cases m <;> rfl

theorem operandsOf_wellFormed (c : Params) (cw : Word) (w : Nat) (m : Mnemonic) :
    (operandsOf c cw w m).WellFormed c = true := by
  cases m with
  | put | tx => simp [operandsOf, Instr.WellFormed]
  | _ => rfl

/-- The operands taken from a word are those of the word they encode to. -/
theorem encodeWord_operandsOf {m : Mnemonic} {cw : Word} (h : m.Names cw) (c : Params) (w : Nat) :
    encodeWord (operandsOf c cw w m) = cw := by
  have hnames : m.Names (encodeWord (operandsOf c cw w m)) := by
    simpa using names_encodeWord (operandsOf c cw w m)
  refine hnames.word_eq h (fun hflag => ?_) (fun himm => ?_)
  · cases m with
    | put | pop => simp [operandsOf]
    | _ => exact absurd hflag (by decide)
  · cases m with
    | peek | rxbyte => simp [operandsOf]
    | _ => cases himm

/-- Settles O2. -/
theorem decodedCommandReencodesToItsWord : Obligations.DecodedCommandReencodesToItsWord := by
  intro c cw wdata i hdec
  obtain ⟨m, hm, rfl⟩ := (decode_eq_ok_iff c cw wdata i).mp hdec
  refine ⟨operandsOf_wellFormed c cw wdata m, encodeWord_operandsOf hm c wdata, ?_, ?_⟩
  · intro b item hput
    cases m with
    | put => exact packLanes_unpackLanes c.S0 wdata
    | _ => cases hput
  · intro pkt htx
    cases m with
    | tx => exact packLanes_unpackLanes c.P wdata
    | _ => cases htx

/-- Settles O3: the word alone decides which command is decoded, and only the operands of `PUT`
and `TX` come from the port. -/
theorem dataPortIgnoredOutsideTheOperand : Obligations.DataPortIgnoredOutsideTheOperand := by
  intro c cw w w' hput htx
  rcases decode_cases cw with ⟨m, hm, hdec⟩ | ⟨_, hdec⟩
  · rw [hdec, hdec]
    cases m with
    | put => rw [operandsOf, operandsOf, unpackLanes_congr (hput hm.op)]
    | tx => rw [operandsOf, operandsOf, unpackLanes_congr (htx hm.op)]
    | _ => rfl
  · rw [hdec, hdec]

/-- Settles O7: the decoder is run on each word. -/
theorem writtenOutWordsDecode : Obligations.WrittenOutWordsDecode := by
  refine ⟨?_, ?_, ?_, ?_, ?_, ?_, ?_, ?_, ?_⟩ <;> decide

/-! ### Illegal words (R80, R194) -/

/-- No command has a reserved opcode, and `PEEK` and `RXBYTE` alone have an immediate (R73, R75). -/
theorem Mnemonic.opcode_classes (m : Mnemonic) :
    isReservedOp m.opcode = false ∧
    (m.format = .I ↔ m.opcode = 0x3 ∨ m.opcode = 0x8) := by
  cases m <;> decide

/-- An opcode that is not reserved is some command's. -/
theorem exists_opcode_eq {op : BitVec 4} (h : isReservedOp op = false) :
    ∃ m : Mnemonic, m.opcode = op := by
  have hrows : ∀ op, isReservedOp op = false → ∃ r ∈ opRows, r.op.opcode = op := by decide
  obtain ⟨r, _, hr⟩ := hrows op h
  exact ⟨r.op, hr⟩

/-- The words that stand for a command, by R80. -/
theorem exists_names_iff (cw : Word) :
    (∃ m : Mnemonic, m.Names cw) ↔
      isReservedOp (opField cw) = false ∧ subHighField cw = 0 ∧
      (flagField cw = true → opField cw = 0x1 ∨ opField cw = 0x2) ∧
      (immField cw ≠ 0 → opField cw = 0x3 ∨ opField cw = 0x8) := by
  have hhas (op : BitVec 4) : hasFlag op = true ↔ op = 0x1 ∨ op = 0x2 := by simp [hasFlag]
  constructor
  · rintro ⟨m, hop, hsub, hflag, himm⟩
    obtain ⟨hres, hI⟩ := m.opcode_classes
    rw [hop, ← hhas, ← hI]
    refine ⟨hres, hsub, fun hf => ?_, fun hi => ?_⟩
    · by_contra hno
      simp [hflag (by simpa using hno)] at hf
    · by_contra hno
      exact hi (himm hno)
  · rintro ⟨hres, hsub, hflag, himm⟩
    obtain ⟨m, hm⟩ := exists_opcode_eq hres
    obtain ⟨-, hI⟩ := m.opcode_classes
    rw [← hm, ← hhas] at hflag
    rw [← hm, ← hI] at himm
    refine ⟨m, hm.symm, hsub, fun hno => ?_, fun hno => ?_⟩
    · by_contra hf
      simp [hflag (by simpa using hf)] at hno
    · by_contra hi
      exact hno (himm hi)

end Sys2Proof

namespace Sys2Proof.Machine

/-- The branch of `step` for an illegal word. -/
theorem step_of_no_names {s : State} {cw : Word} {wdata : Nat} {rest : List Input}
    (hin : s.inputs = .command cw wdata :: rest) (h : ∀ m : Mnemonic, ¬ m.Names cw) :
    step s = .next (s.takeInput.answer .illegal []) := by
  simp only [step, hin, decode_of_no_names h, answerIllegal]

/-- Settles O6: the words no row selects are those that stand for no command, and `exists_names_iff`
says which these are. -/
theorem illegalWordsAreAnsweredIllegal : Obligations.IllegalWordsAreAnsweredIllegal := by
  intro s cw wdata rest hin
  refine ⟨?_, fun hnone => ⟨?_, rfl⟩, fun n => ?_⟩
  · rw [no_row_selects_iff, ← not_exists, exists_names_iff]
    simp only [isReservedOp, decide_eq_false_iff_not]
    tauto
  · rw [step_of_no_names hin ((no_row_selects_iff cw).mp hnone),
      State.takeInput_of_inputs_eq_cons hin]
    rfl
  · exact (decode_of_names (names_encodeWord (.peek n)) s.par wdata).trans
      (by simp [Instr.mnemonic, operandsOf])

end Sys2Proof.Machine
end

section
/-! Proofs for 30_encoding.md: the response and the output list of a command (R76, R77,
60_exceptions.md R201). -/

namespace Sys2Proof.Machine

/-! ### Responses (R76) -/

/-- The commands that cannot fail and give no data answer `OK`. -/
theorem exec_answers_ok {i : Instr} {s t : State}
    (hi : i.mnemonic ∉ [Mnemonic.put, .pop, .peek, .tx]) (h : exec i s = .next t) :
    t.rsp = some .ok := by
  cases i with
  | rxbyte b =>
    rcases execRxbyte_inversion h with ⟨_, rfl⟩ | ⟨_, _, _, rfl⟩ | ⟨_, _, rfl⟩ |
      ⟨w, _, _, _, rfl⟩ | ⟨w, _, _, _, rfl⟩ |
      ⟨pkt, _, _, _, ⟨_, rfl⟩ | ⟨q, _, _, rfl⟩ | ⟨q, v, q', _, _, _, rfl⟩⟩ <;> rfl
  | rxnext => rcases execRxnext_inversion h with ⟨v, q, _, rfl⟩ | ⟨_, rfl⟩ <;> rfl
  | txdone =>
    rcases execTxdone_inversion h with ⟨_, rfl⟩ | ⟨b, _, _, _, rfl⟩ |
      ⟨pkt, _, _, _, _, ⟨v, q, _, rfl⟩ | ⟨_, rfl⟩⟩ | ⟨_, _, _, rfl⟩ <;> rfl
  | txnext =>
    rcases execTxnext_inversion h with ⟨pkt, _, _, ⟨v, q, _, rfl⟩ | ⟨_, rfl⟩⟩ | ⟨_, rfl⟩ <;> rfl
  | reset => cases h; rfl
  | put | pop | peek | tx => simp [Instr.mnemonic] at hi

/-- The response of a command: `OK` of one that has no data to give, data, or `FAIL` with nothing
else changed. -/
theorem exec_response_cases {i : Instr} {s t : State} (h : exec i s = .next t) :
    (t.rsp = some .ok ∧ i ≠ .pop true ∧ ∀ n, i ≠ .peek n) ∨
    (∃ v, t.rsp = some (.okData v) ∧ (i = .pop true ∨ ∃ n, i = .peek n)) ∨
    (i.mnemonic ∈ [Mnemonic.put, .pop, .peek, .tx] ∧
      t = { s with rsp := some .fail, out := [] }) := by
  cases i with
  | put m item =>
    rcases execPut_inversion h with ⟨q, _, rfl⟩ | ⟨_, rfl⟩
    · exact .inl ⟨rfl, by simp⟩
    · exact .inr (.inr ⟨by simp [Instr.mnemonic], rfl⟩)
  | pop dv =>
    rcases execPop_inversion h with ⟨v, q, _, rfl⟩ | ⟨_, rfl⟩
    · cases dv with
      | false => exact .inl ⟨rfl, by simp⟩
      | true => exact .inr (.inl ⟨v, rfl, .inl rfl⟩)
    · exact .inr (.inr ⟨by simp [Instr.mnemonic], rfl⟩)
  | peek n =>
    rcases execPeek_inversion h with ⟨v, _, rfl⟩ | ⟨_, rfl⟩
    · exact .inr (.inl ⟨v, rfl, .inr ⟨n, rfl⟩⟩)
    · exact .inr (.inr ⟨by simp [Instr.mnemonic], rfl⟩)
  | tx pkt =>
    rcases execTx_inversion h with ⟨q, _, _, rfl⟩ | ⟨_, _, rfl⟩ | ⟨_, _, rfl⟩
    · exact .inl ⟨rfl, by simp⟩
    · exact .inr (.inr ⟨by simp [Instr.mnemonic], rfl⟩)
    · exact .inl ⟨rfl, by simp⟩
  | rxbyte | rxnext | txdone | txnext | reset =>
    exact .inl ⟨exec_answers_ok (by simp [Instr.mnemonic]) h, by simp⟩

/-- Settles O47, by the kinds of response. -/
theorem responsesAreTheOnesOfTheCommand : Obligations.ResponsesAreTheOnesOfTheCommand := by
  intro i s t h
  rcases exec_response_cases h with ⟨hr, hno⟩ | ⟨v, hr, hi⟩ | ⟨hi, rfl⟩
  · exact ⟨.ok, hr, by simp, by simp, by simp, fun _ => hno⟩
  · exact ⟨.okData v, hr, by simp, by simp, fun _ _ => hi, by simp⟩
  · exact ⟨.fail, rfl, by simp, fun _ => by simpa using hi, by simp, by simp⟩

/-- Settles O48: of the ways a step can go only an illegal word and a failed command give such a
response, and both leave the state with the input taken. -/
theorem failAndIllegalChangeNothing : Obligations.FailAndIllegalChangeNothing := by
  intro s t h hrsp
  rcases step_inversion h with ⟨_, rfl⟩ | ⟨_, _, rfl⟩ | ⟨_, _, _, _, _, _, rfl⟩ |
    ⟨_, _, _, i, _, _, he⟩
  · simp at hrsp
  · simp at hrsp
  · rfl
  · rcases exec_response_cases he with ⟨hr, _⟩ | ⟨v, hr, _⟩ | ⟨_, rfl⟩
    · simp [hr] at hrsp
    · simp [hr] at hrsp
    · rfl

/-! ### Output lists (R77) -/

/-- At most one event, then at most one serial byte. -/
def EventThenByte (o : List Output) : Prop :=
  ∃ (e : Option Event) (b : Option Byte), o = (e.map .event).toList ++ (b.map .serOut).toList

/-- The four shapes, as R77 lists them. -/
theorem EventThenByte.cases {o : List Output} (h : EventThenByte o) :
    (∃ e b, o = [.event e, .serOut b]) ∨ (∃ e, o = [.event e]) ∨ (∃ b, o = [.serOut b]) ∨
      o = [] := by
  obtain ⟨_ | e, _ | b, rfl⟩ := h
  · exact .inr (.inr (.inr rfl))
  · exact .inr (.inr (.inl ⟨b, rfl⟩))
  · exact .inr (.inl ⟨e, rfl⟩)
  · exact .inl ⟨e, b, rfl⟩

theorem EventThenByte.nil : EventThenByte [] := ⟨none, none, rfl⟩

theorem EventThenByte.event (e : Event) : EventThenByte [.event e] := ⟨some e, none, rfl⟩

theorem EventThenByte.serOut (b : Byte) : EventThenByte [.serOut b] := ⟨none, some b, rfl⟩

/-- Retiring a frame puts out its completion, then the first byte of the next frame if any. -/
theorem RetiredTo.eventThenByte {s t : State} {pkt : List Byte} (h : RetiredTo s pkt t) :
    EventThenByte t.out := by
  rcases h with ⟨v, q, _, rfl⟩ | ⟨_, rfl⟩
  · exact ⟨some _, some _, rfl⟩
  · exact .event _

/-- An accepted frame puts out one event or nothing. -/
theorem AcceptedTo.eventThenByte {u t : State} {pkt : List Byte} (h : AcceptedTo u pkt t) :
    EventThenByte t.out := by
  rcases h with ⟨_, rfl⟩ | ⟨q, _, _, rfl⟩ | ⟨q, v, q', _, _, _, rfl⟩
  · exact .event _
  · exact .nil
  · exact .event _

theorem exec_eventThenByte {i : Instr} {s t : State} (h : exec i s = .next t) :
    EventThenByte t.out := by
  cases i with
  | put | pop | peek =>
    rw [exec_ring_frame (by simp [Instr.IsRing, Instr.mnemonic]) h]
    exact .nil
  | rxbyte b =>
    rcases execRxbyte_inversion h with ⟨_, rfl⟩ | ⟨_, _, _, rfl⟩ | ⟨_, _, rfl⟩ |
      ⟨w, _, _, _, rfl⟩ | ⟨w, _, _, _, rfl⟩ | ⟨pkt, _, _, _, ha⟩
    · exact .nil
    · exact .nil
    · exact .nil
    · exact .nil
    · exact .event _
    · exact ha.eventThenByte
  | rxnext =>
    rcases execRxnext_inversion h with ⟨v, q, _, rfl⟩ | ⟨_, rfl⟩
    · exact .event _
    · exact .nil
  | tx pkt =>
    rcases execTx_inversion h with ⟨q, _, _, rfl⟩ | ⟨_, _, rfl⟩ | ⟨_, _, rfl⟩
    · exact .nil
    · exact .nil
    · exact .serOut _
  | txdone =>
    rcases execTxdone_inversion h with ⟨_, rfl⟩ | ⟨b, _, _, _, rfl⟩ | ⟨pkt, _, _, _, _, hr⟩ |
      ⟨_, _, _, rfl⟩
    · exact .nil
    · exact .serOut b
    · exact hr.eventThenByte
    · exact .nil
  | txnext =>
    rcases execTxnext_inversion h with ⟨pkt, _, _, hr⟩ | ⟨_, rfl⟩
    · exact hr.eventThenByte
    · exact .nil
  | reset => cases h; exact .nil

/-- Settles O49: a step that runs no command puts out nothing. -/
theorem outputListHoldsOneEventThenOneByteAtMost :
    Obligations.OutputListHoldsOneEventThenOneByteAtMost := by
  intro s t h
  apply EventThenByte.cases
  rcases step_inversion h with ⟨_, rfl⟩ | ⟨_, _, rfl⟩ | ⟨_, _, _, _, _, _, rfl⟩ |
    ⟨_, _, _, i, _, _, he⟩
  · exact .nil
  · exact .nil
  · exact .nil
  · exact exec_eventThenByte he

end Sys2Proof.Machine
end

section
/-! Proofs for 40_ring_buffer.md: what `PUT`, `POP` and `PEEK` do to `RB0` and answer (R100 to R102,
R107). -/

namespace Sys2Proof.Machine

/-! ### A ring and the list of its items -/

/-- The slot of an item, written as 10_state.md R22 writes it. -/
theorem RingBuf.slotIndex_eq {g : Shape} {q : RingBuf} {n i : Nat}
    (h : (i : Int) = ((q.wcur : Int) - q.count + n) % 2 ^ g.K) : q.slotIndex g n = i := by
  simp [RingBuf.slotIndex, Shape.cap, ← h]

/-- `pop` gives what stands first in the list of items. -/
theorem RingBuf.pop_of_items_eq_cons {g : Shape} {q : RingBuf} {v : List Byte}
    {rest : List (Option (List Byte))} (h : q.items g = some v :: rest) :
    q.pop g = .done (v, { q with count := q.count - 1 }) := by
  have hc : 0 < q.count := by rw [← RingBuf.items_length g q, h]; simp
  have hread := RingBuf.items_getElem? (g := g) hc
  rw [h, List.getElem?_cons_zero, Option.some.injEq] at hread
  exact (RingBuf.pop_done_iff _ _ _ _).mpr ⟨hc, hread.symm, rfl⟩

/-- `peek` gives what stands in the list of items at its place. -/
theorem RingBuf.items_peek {g : Shape} {q : RingBuf} {n : Nat} {v : List Byte}
    (h : q.peek g n = .done v) : (q.items g)[n]? = some (some v) := by
  rcases q.peek_cases g n with ⟨w, hn, hread, e⟩ | ⟨_, e⟩ | ⟨_, _, e⟩
  · rw [e, Attempt.done.injEq] at h
    rw [RingBuf.items_getElem? hn, hread, h]
  · simp [e] at h
  · simp [e] at h

theorem RingBuf.peek_fail_iff (g : Shape) (q : RingBuf) (n : Nat) :
    q.peek g n = .fail ↔ q.count ≤ n := by
  rcases q.peek_cases g n with ⟨v, hn, _, e⟩ | ⟨hn, e⟩ | ⟨hn, _, e⟩
  · simp [e]; omega
  · simp [e, hn]
  · simp [e]; omega

theorem RingBuf.items_eq_nil_iff (g : Shape) (q : RingBuf) : q.items g = [] ↔ q.count = 0 := by
  rw [← List.length_eq_zero_iff, RingBuf.items_length]

theorem RingBuf.items_of_pop_fail {g : Shape} {q : RingBuf} (h : q.pop g = .fail) :
    q.items g = [] :=
  (RingBuf.items_eq_nil_iff _ _).mpr ((RingBuf.pop_fail_iff _ _).mp h)

/-! ### The commands, by what the ring does -/

section
variable {s : State}

theorem exec_put_of_done {item : List Byte} {q : RingBuf}
    (h : s.rb0.put (rb0Shape s.par) item = .done q) (m : Bool) :
    exec (.put m item) s = .next { s with rb0 := q, rsp := some .ok, out := [] } := by
  simp [exec, execPut, h, State.answer]

theorem exec_put_of_full (h : (rb0Shape s.par).cap ≤ s.rb0.count) (m : Bool) (item : List Byte) :
    exec (.put m item) s = .next { s with rsp := some .fail, out := [] } := by
  simp [exec, execPut, (RingBuf.put_fail_iff _ _ item).mpr h, State.answer]

theorem exec_pop_of_done {v : List Byte} {q : RingBuf}
    (h : s.rb0.pop (rb0Shape s.par) = .done (v, q)) (dv : Bool) :
    exec (.pop dv) s = .next
      { s with rb0 := q, rsp := some (if dv then .okData v else .ok), out := [] } := by
  simp [exec, execPop, h, State.answer]

theorem exec_pop_of_empty (h : s.rb0.count = 0) (dv : Bool) :
    exec (.pop dv) s = .next { s with rsp := some .fail, out := [] } := by
  simp [exec, execPop, (RingBuf.pop_fail_iff _ _).mpr h, State.answer]

end

/-- Settles O12: the bytes of a `put` are read off the block written at the cursor. -/
theorem putStoresAtTheWriteCursorOrFails : Obligations.PutStoresAtTheWriteCursorOrFails := by
  intro m item s hlen hw
  refine ⟨fun hc => ?_, fun hc => exec_put_of_full hc m item, rfl⟩
  have hput := (RingBuf.put_done_iff (rb0Shape s.par) s.rb0 _ item).mpr ⟨hc, hw, hlen, rfl⟩
  refine ⟨_, exec_put_of_done hput m, ?_, fun a ha => ?_, rfl, rfl, rfl⟩
  · have := Memory.readBytes_writeBytes_self s.rb0.slot (s.rb0.wcur * s.par.S0) item
    rwa [hlen] at this
  · exact Memory.read_writeBytes_outside (by rw [hlen]; exact ha)

/-- Settles O13, by whether an item is held. -/
theorem popRemovesTheOldestItemOrFails : Obligations.PopRemovesTheOldestItemOrFails := by
  intro dv s
  refine ⟨fun i v hc hi hread => ?_, fun hc => exec_pop_of_empty hc dv⟩
  have hslot : s.rb0.slotIndex (rb0Shape s.par) 0 = i := RingBuf.slotIndex_eq (by simpa using hi)
  exact exec_pop_of_done
    ((RingBuf.pop_done_iff _ _ _ _).mpr ⟨hc, by rw [hslot]; exact hread, rfl⟩) dv

/-- Settles O14, by whether an item of that age is held. -/
theorem peekReturnsTheNthOldestItemOrFails : Obligations.PeekReturnsTheNthOldestItemOrFails := by
  intro n s
  refine ⟨fun i v hn hi hread => ?_, fun hn => ?_⟩
  · have hslot : s.rb0.slotIndex (rb0Shape s.par) n.toNat = i := RingBuf.slotIndex_eq hi
    have hitem : s.rb0.readSlot (rb0Shape s.par) i = some v := hread
    have hpeek : s.rb0.peek (rb0Shape s.par) n.toNat = .done v := by
      simp [RingBuf.peek, hn, hslot, hitem]
    simp [exec, execPeek, hpeek, State.answer]
  · simp [exec, execPeek, (RingBuf.peek_fail_iff _ _ _).mpr hn, State.answer]

end Sys2Proof.Machine
end

section
/-! Proofs for 40_ring_buffer.md: the order and the capacity laws (R104, R105, and the corner
case of R102). -/

namespace Sys2Proof.Machine

/-! ### What a run puts and pops -/

/-- The items accepted by a run are those of its first command and those of the rest. -/
theorem putsAccepted_cons (i : Instr) (is : List Instr) (a : Response) (rs : List Response) :
    putsAccepted (i :: is) (a :: rs) = putsAccepted [i] [a] ++ putsAccepted is rs := by
  cases i with
  | put m v => cases a <;> rfl
  | _ => rfl

theorem popsAnswered_cons (i : Instr) (is : List Instr) (a : Response) (rs : List Response) :
    popsAnswered (i :: is) (a :: rs) = popsAnswered [i] [a] ++ popsAnswered is rs := by
  cases i with
  | pop dv => cases a <;> rfl
  | _ => rfl

theorem putsAccepted_of_ne_put {i : Instr} (hi : i.mnemonic ≠ .put) (rs : List Response) :
    putsAccepted [i] rs = [] := by
  cases i with
  | put m v => exact absurd rfl hi
  | _ => cases rs <;> rfl

theorem popsAnswered_of_ne_pop {i : Instr} (hi : i.mnemonic ≠ .pop) (rs : List Response) :
    popsAnswered [i] rs = [] := by
  cases i with
  | pop dv => exact absurd rfl hi
  | _ => cases rs <;> rfl

/-! ### The balance of items put and popped -/

/-- What a successful `POP` answers agrees with the item it removed: it returns that item, or, with
no destination, nothing. -/
def AnswerOf (answer : Option (List Byte)) (item : List Byte) : Prop :=
  answer = none ∨ answer = some item

/-- From `s` to `t` the items `accepted` were put and the items `removed` were popped, with the
given answers: what `RB0` held and what was accepted has either been removed or is still held, in
order. -/
structure RingBalance (s : State) (accepted : List (List Byte))
    (answers : List (Option (List Byte))) (removed : List (List Byte)) (t : State) : Prop where
  par : t.par = s.par
  answers : List.Forall₂ AnswerOf answers removed
  items : s.rb0.items (rb0Shape s.par) ++ accepted.map some =
    removed.map some ++ t.rb0.items (rb0Shape s.par)

section
variable {s t u : State}

theorem RingBalance.trans {p p' k k' : List (List Byte)} {a a' : List (Option (List Byte))}
    (h : RingBalance s p a k t) (h' : RingBalance t p' a' k' u) :
    RingBalance s (p ++ p') (a ++ a') (k ++ k') u where
  par := h'.par.trans h.par
  answers := List.rel_append h.answers h'.answers
  items := by
    have hi := h'.items
    rw [h.par] at hi
    rw [List.map_append, ← List.append_assoc, h.items, List.append_assoc, hi, List.map_append,
      List.append_assoc]

/-- A command that leaves `RB0` alone. -/
theorem RingBalance.of_rb0_eq (hpar : t.par = s.par) (hrb0 : t.rb0 = s.rb0) :
    RingBalance s [] [] [] t :=
  ⟨hpar, .nil, by simp [hrb0]⟩

theorem execPut_ringBalance {m : Bool} {item : List Byte} (h : exec (.put m item) s = .next t) :
    RingBalance s (putsAccepted [.put m item] t.rsp.toList) [] [] t := by
  rcases execPut_inversion h with ⟨q, hq, rfl⟩ | ⟨_, rfl⟩
  · exact ⟨rfl, .nil, by simp [putsAccepted, RingBuf.items_put hq]⟩
  · exact .of_rb0_eq rfl rfl

theorem execPop_ringBalance {dv : Bool} (h : exec (.pop dv) s = .next t) :
    ∃ removed, RingBalance s [] (popsAnswered [.pop dv] t.rsp.toList) removed t := by
  rcases execPop_inversion h with ⟨v, q, hq, rfl⟩ | ⟨_, rfl⟩
  · refine ⟨[v], rfl, ?_, by simp [RingBuf.items_pop hq]⟩
    cases dv with
    | false => exact .cons (.inl rfl) .nil
    | true => exact .cons (.inr rfl) .nil
  · exact ⟨[], .of_rb0_eq rfl rfl⟩

theorem exec_ringBalance {i : Instr} (hi : i ≠ .reset) (h : exec i s = .next t) :
    ∃ removed, RingBalance s (putsAccepted [i] t.rsp.toList) (popsAnswered [i] t.rsp.toList)
      removed t := by
  cases i with
  | put m item =>
    rw [popsAnswered_of_ne_pop (by simp [Instr.mnemonic])]
    exact ⟨[], execPut_ringBalance h⟩
  | pop dv =>
    rw [putsAccepted_of_ne_put (by simp [Instr.mnemonic])]
    exact execPop_ringBalance h
  | reset => exact absurd rfl hi
  | _ =>
    rw [putsAccepted_of_ne_put (by simp [Instr.mnemonic]),
      popsAnswered_of_ne_pop (by simp [Instr.mnemonic])]
    exact ⟨[], .of_rb0_eq (exec_par h) (exec_keeps_rb0 (by simp [Instr.mnemonic])
      (by simp [Instr.mnemonic]) (by simp [Instr.mnemonic]) h)⟩

/-- The order law for any contents of `RB0` at the start. -/
theorem runCommands_ringBalance {is : List Instr} {r : Run} (hi : Instr.reset ∉ is)
    (h : runCommands is s = some r) :
    ∃ removed, RingBalance s (putsAccepted is r.rsps) (popsAnswered is r.rsps) removed r.state := by
  induction is generalizing s r with
  | nil =>
    obtain rfl := (runCommands_nil_iff s r).mp h
    exact ⟨[], .of_rb0_eq rfl rfl⟩
  | cons i is ih =>
    obtain ⟨hne, hnot⟩ := not_or.mp (mt List.mem_cons.mpr hi)
    obtain ⟨t, u, ht, hu, rfl⟩ := (runCommands_cons_iff i is s r).mp h
    obtain ⟨first, hfirst⟩ := exec_ringBalance (Ne.symm hne) ht
    obtain ⟨rest, hrest⟩ := ih hnot hu
    obtain ⟨a, ha⟩ := exec_answers ht
    simp only [ha, Option.toList_some, List.singleton_append] at hfirst ⊢
    rw [putsAccepted_cons, popsAnswered_cons]
    exact ⟨first ++ rest, hfirst.trans hrest⟩

end

/-- Settles O16: from an empty ring, what was accepted is what was removed and what is left. -/
theorem popsFollowTheOrderOfPuts : Obligations.PopsFollowTheOrderOfPuts := by
  intro s is r _ hempty _ hreset h
  obtain ⟨removed, _, hanswers, hitems⟩ := runCommands_ringBalance hreset h
  rw [(RingBuf.items_eq_nil_iff _ _).mpr hempty, List.nil_append] at hitems
  obtain ⟨first, left, haccepted, hfirst, hleft⟩ := List.map_eq_append_iff.mp hitems
  obtain rfl : first = removed := List.map_injective_iff.mpr (Option.some_injective _) hfirst
  refine ⟨first, left, haccepted, hanswers.length_eq.symm, fun j v hj => ?_, hleft.symm⟩
  obtain ⟨hlt, hget⟩ := List.getElem?_eq_some_iff.mp hj
  have hagree : AnswerOf _ _ := hanswers.get hlt (hanswers.length_eq ▸ hlt)
  rw [List.get_eq_getElem, hget] at hagree
  rcases hagree with hnone | hsome
  · cases hnone
  · rw [Option.some.inj hsome]
    simp

/-- Settles O17: the items removed are those that were older than the one peeked at, so that one
comes first. -/
theorem peekedItemComesOutAfterThatManyPops : Obligations.PeekedItemComesOutAfterThatManyPops := by
  intro s t n v is r _ hpeek hrsp _ hreset hrun hpops
  have hitem : (s.rb0.items (rb0Shape s.par))[n.toNat]? = some (some v) := by
    rcases execPeek_inversion hpeek with ⟨w, hw, rfl⟩ | ⟨_, rfl⟩
    · cases hrsp; exact RingBuf.items_peek hw
    · cases hrsp
  obtain ⟨removed, hpar, hanswers, hitems⟩ := runCommands_ringBalance hreset hrun
  have hremoved : removed.length = n.toNat := hanswers.length_eq.symm.trans hpops
  obtain ⟨hlt, _⟩ := List.getElem?_eq_some_iff.mp hitem
  have hfirst : (r.state.rb0.items (rb0Shape s.par))[0]? = some (some v) := by
    rw [← hitem, ← List.getElem?_append_left (l₂ := (putsAccepted is r.rsps).map some) hlt, hitems,
      List.getElem?_append_right (by simp [hremoved]), List.length_map, hremoved, Nat.sub_self]
  rw [← List.head?_eq_getElem?] at hfirst
  obtain ⟨rest, hrest⟩ := List.head?_eq_some_iff.mp hfirst
  rw [← hpar] at hrest
  exact ⟨_, exec_pop_of_done (RingBuf.pop_of_items_eq_cons hrest) true, rfl⟩

/-! ### The capacity law -/

section
variable {s : State}

/-- As many `PUT`s as there is room for, all accepted. -/
theorem runCommands_puts (m : Bool) {items : List (List Byte)}
    (hw : s.rb0.wcur < (rb0Shape s.par).cap)
    (hroom : s.rb0.count + items.length ≤ (rb0Shape s.par).cap)
    (hlen : ∀ v ∈ items, v.length = s.par.S0) :
    ∃ r, runCommands (items.map (.put m)) s = some r ∧
      r.rsps = List.replicate items.length .ok ∧ r.state.par = s.par ∧
      r.state.rb0.items (rb0Shape s.par) = s.rb0.items (rb0Shape s.par) ++ items.map some := by
  induction items generalizing s with
  | nil => exact ⟨_, rfl, rfl, rfl, by simp⟩
  | cons v items ih =>
    obtain ⟨hv, hlen'⟩ := List.forall_mem_cons.mp hlen
    rw [List.length_cons] at hroom
    obtain ⟨q, hput, hw', hcount⟩ : ∃ q, s.rb0.put (rb0Shape s.par) v = .done q ∧
        q.wcur < (rb0Shape s.par).cap ∧ q.count = s.rb0.count + 1 :=
      ⟨_, (RingBuf.put_done_iff _ _ _ _).mpr ⟨by omega, hw, hv, rfl⟩,
        Nat.mod_lt _ (Shape.cap_pos _), rfl⟩
    obtain ⟨r, hr, hrsps, hpar, hitems⟩ :=
      ih (s := { s with rb0 := q, rsp := some .ok, out := [] }) hw'
        (by simp only [hcount]; omega) hlen'
    refine ⟨_, (runCommands_cons_iff _ _ s _).mpr ⟨_, r, exec_put_of_done hput m, hr, rfl⟩, ?_,
      hpar, ?_⟩
    · simp [hrsps, List.replicate_succ]
    · simp [hitems, RingBuf.items_put hput]

/-- As many `POP`s as there are items, which come back in order and leave the ring empty. -/
theorem runCommands_pops {items : List (List Byte)}
    (h : s.rb0.items (rb0Shape s.par) = items.map some) :
    ∃ u, runCommands (List.replicate items.length (.pop true)) s = some u ∧
      u.rsps = items.map .okData ∧ u.state.rb0.count = 0 := by
  induction items generalizing s with
  | nil => exact ⟨_, rfl, rfl, (RingBuf.items_eq_nil_iff _ _).mp h⟩
  | cons v items ih =>
    have hpop := RingBuf.pop_of_items_eq_cons h
    have hrest := RingBuf.items_pop hpop
    rw [h, List.map_cons, List.cons.injEq] at hrest
    obtain ⟨u, hu, hrsps, hcount⟩ :=
      ih (s := { s with rb0 := _, rsp := some (.okData v), out := [] }) hrest.2.symm
    refine ⟨_, (runCommands_cons_iff _ _ s _).mpr ⟨_, u, exec_pop_of_done hpop true, hu, rfl⟩, ?_,
      hcount⟩
    simp [hrsps]

end

/-- Settles O15: the ring is filled, then emptied. -/
theorem capacityPutsThenCapacityPops : Obligations.CapacityPutsThenCapacityPops := by
  intro s items hw hempty hlen hsize
  have hcap : items.length = (rb0Shape s.par).cap := hlen
  obtain ⟨r, hr, hrsps, hpar, hitems⟩ :=
    runCommands_puts false hw (by omega) hsize
  rw [(RingBuf.items_eq_nil_iff _ _).mpr hempty, List.nil_append, ← hpar] at hitems
  have hfull : r.state.rb0.count = items.length := by
    rw [← RingBuf.items_length (rb0Shape r.state.par), hitems, List.length_map]
  obtain ⟨u, hu, hdata, hcount⟩ := runCommands_pops hitems
  rw [← hlen]
  exact ⟨r, hr, hrsps, hfull,
    exec_put_of_full (by rw [hfull, hpar, hcap]), u, hu, hdata, hcount, exec_pop_of_empty hcount⟩

end Sys2Proof.Machine
end

section
/-! Proofs for 40_ring_buffer.md: storage that nothing can read never reaches an output (R108, R110,
41_transport_receive.md R126, 42_transport_transmit.md R145). The proof gives the commands a second
meaning, on the view of a state alone, and shows that the block follows it. -/

namespace Sys2Proof.Machine

/-- What a command gives that anything outside, or any later command, can depend on. -/
structure Reaction where
  rsp : Option Response
  outs : List Output
  view : View

/-- What the command that led to a state gave. -/
def State.reaction (s : State) : Reaction := { rsp := s.rsp, outs := s.out, view := s.view }

def View.answer (v : View) (r : Response) (o : List Output) : Reaction :=
  { rsp := some r, outs := o, view := v }

/-! ### The commands on views

An item or a byte string that could not be read is taken to be empty: the block stops there, and
from a state that meets the invariants it never does (10_state.md R22, 60_exceptions.md R204). -/

/-- `PUT` (40_ring_buffer.md R100). -/
def View.put (item : List Byte) (v : View) : Reaction :=
  if v.rb0.length < (rb0Shape v.par).cap then
    { v with rb0 := v.rb0 ++ [some item] }.answer .ok []
  else v.answer .fail []

/-- `POP` (40_ring_buffer.md R101). -/
def View.pop (dv : Bool) (v : View) : Reaction :=
  match v.rb0 with
  | [] => v.answer .fail []
  | x :: rest => { v with rb0 := rest }.answer (if dv then .okData (x.getD []) else .ok) []

/-- `PEEK` (40_ring_buffer.md R102). -/
def View.peek (n : Nat) (v : View) : Reaction :=
  match v.rb0[n]? with
  | none => v.answer .fail []
  | some x => v.answer (.okData (x.getD [])) []

/-- The end of a well-formed frame (41_transport_receive.md R123): lost, delivered or queued. The
queue is empty while the gate is armed (10_state.md R38, I3). -/
def View.accept (pkt : List Byte) (v : View) : Reaction :=
  if (queueShape v.par).cap ≤ v.rxq.length then
    { v with window := some [] }.answer .ok [.event (.rxFail .bufferFull)]
  else if v.rxArmed then
    { v with rxArmed := false, window := some [] }.answer .ok [.event (.rxOk pkt)]
  else { v with rxq := v.rxq ++ [some pkt], window := some [] }.answer .ok []

/-- Receive steps 2 and 3 (41_transport_receive.md R122, R123) on a window that holds `w`. -/
def View.checkWindow (w : List Byte) (v : View) : Reaction :=
  if w.length = 4 ∧ w ≠ v.par.pre.toList then
    { v with window := some (w.drop 1) }.answer .ok []
  else if w.length = v.par.F then
    if w.drop (v.par.F - 4) = v.par.post.toList then v.accept ((w.drop 4).take v.par.P)
    else { v with window := some [] }.answer .ok [.event (.rxFail .framing)]
  else v.answer .ok []

/-- The view with a byte appended to the window (41_transport_receive.md R121). -/
def View.storeRxByte (b : Byte) (v : View) : View :=
  { v with window := some (v.window.getD [] ++ [b]) }

/-- `RXBYTE` (41_transport_receive.md R120). -/
def View.rxbyte (b : Byte) (v : View) : Reaction :=
  (v.storeRxByte b).checkWindow (v.window.getD [] ++ [b])

/-- `RXNEXT` (41_transport_receive.md R125). -/
def View.rxnext (v : View) : Reaction :=
  match v.rxq with
  | [] => { v with rxArmed := true }.answer .ok []
  | x :: rest => { v with rxq := rest, rxArmed := false }.answer .ok [.event (.rxOk (x.getD []))]

/-- `StartFrame` (42_transport_transmit.md R140). -/
def View.startFrame (pkt : List Byte) (v : View) : View :=
  { v with frame := some (frameOf v.par pkt), sent := 1, txInProgress := true }

/-- `TX` (42_transport_transmit.md R141). -/
def View.tx (pkt : List Byte) (v : View) : Reaction :=
  if v.txInProgress then
    if v.txq.length < (queueShape v.par).cap then
      { v with txq := v.txq ++ [some pkt] }.answer .ok []
    else v.answer .fail []
  else (v.startFrame pkt).answer .ok [firstByte v.par]

/-- The packet of the frame in progress (10_state.md R27). -/
def View.packet (v : View) : List Byte := ((v.frame.getD []).drop 4).take v.par.P

/-- The report of a completed frame and the start of the next one (42_transport_transmit.md
R148). -/
def View.retireFrame (pkt : List Byte) (v : View) : Reaction :=
  match v.txq with
  | [] =>
    { v with frame := none, sent := 0, txInProgress := false }.answer .ok [.event (.txOk pkt)]
  | x :: rest =>
    (View.startFrame (x.getD []) { v with txq := rest }).answer .ok
      [.event (.txOk pkt), firstByte v.par]

/-- `TXDONE` (42_transport_transmit.md R142). -/
def View.txdone (v : View) : Reaction :=
  if v.txInProgress = true ∧ v.txBlocking = false then
    if v.sent < v.par.F then
      { v with sent := v.sent + 1 }.answer .ok [.serOut ((v.frame.getD []).getD v.sent 0)]
    else if v.txArmed then View.retireFrame v.packet { v with txArmed := false }
    else { v with txBlocking := true }.answer .ok []
  else v.answer .ok []

/-- `TXNEXT` (42_transport_transmit.md R143). -/
def View.txnext (v : View) : Reaction :=
  if v.txBlocking then View.retireFrame v.packet { v with txBlocking := false }
  else { v with txArmed := true }.answer .ok []

/-- The meaning of each command on views. -/
def View.exec (i : Instr) (v : View) : Reaction :=
  match i with
  | .put _ item => v.put item
  | .pop dv => v.pop dv
  | .peek n => v.peek n.toNat
  | .rxbyte b => v.rxbyte b
  | .txdone => v.txdone
  | .tx pkt => v.tx pkt
  | .txnext => v.txnext
  | .rxnext => v.rxnext
  | .reset => (State.initial v.par).view.answer .ok []

/-! ### The view of a state -/

@[simp] theorem State.view_par (s : State) : s.view.par = s.par := rfl
@[simp] theorem State.view_rxArmed (s : State) : s.view.rxArmed = s.rxArmed := rfl
@[simp] theorem State.view_txArmed (s : State) : s.view.txArmed = s.txArmed := rfl
@[simp] theorem State.view_txInProgress (s : State) : s.view.txInProgress = s.txInProgress := rfl
@[simp] theorem State.view_txBlocking (s : State) : s.view.txBlocking = s.txBlocking := rfl
@[simp] theorem State.view_rb0_length (s : State) : s.view.rb0.length = s.rb0.count :=
  RingBuf.items_length _ _
@[simp] theorem State.view_rxq_length (s : State) : s.view.rxq.length = s.rxq.count :=
  RingBuf.items_length _ _
@[simp] theorem State.view_txq_length (s : State) : s.view.txq.length = s.txq.count :=
  RingBuf.items_length _ _

section
variable {s t u : State}

theorem State.view_sent (hp : s.txInProgress = true) : s.view.sent = s.txCursor := by
  simp [State.view, hp]

theorem State.view_frame {f : List Byte} (hp : s.txInProgress = true)
    (hf : s.txbuf.readBytes 0 s.par.F = some f) : s.view.frame = some f := by
  simp [State.view, hp, hf]

theorem State.view_packet {pkt : List Byte} (hs : s.TransmitInv) (hp : s.txInProgress = true)
    (hpkt : s.txbuf.readBytes 4 s.par.P = some pkt) : s.view.packet = pkt := by
  obtain ⟨f, hf⟩ := Option.isSome_iff_exists.mp (hs.tx_stored hp)
  have hpart := Memory.readBytes_part hf (k := 4) (l := s.par.P) (by rw [Params.F_eq]; omega)
  rw [Nat.zero_add, hpkt, Option.some.injEq] at hpart
  rw [hpart, View.packet, State.view_frame hp hf]
  rfl

theorem State.view_storeRxByte {w : List Byte} (b : Byte)
    (hw : s.rxbuf.readBytes 0 s.rxCursor = some w) :
    (s.storeRxByte b).view = s.view.storeRxByte b := by
  have hwin := State.storeRxByte_window b hw
  rw [State.storeRxByte_rxbuf] at hwin
  simp only [State.view, View.storeRxByte, State.storeRxByte_rxbuf, State.storeRxByte_rxCursor, hw,
    hwin, Option.getD_some]
  rfl

/-- The view of a state in which a frame was just started. -/
theorem State.view_startFrame {pkt : List Byte} {q : RingBuf} {rsp : Option Response}
    {out : List Output} (hl : pkt.length = s.par.P) :
    State.view { s with
        txq := q, txbuf := s.txbuf.writeBytes 0 (frameOf s.par pkt), txCursor := 1,
        txInProgress := true, rsp, out } =
      View.startFrame pkt { s.view with txq := q.items (queueShape s.par) } := by
  simp [State.view, View.startFrame, readBytes_frame s.txbuf hl]

/-! ### The block follows the commands on views -/

theorem execPut_reaction {m : Bool} {item : List Byte} (h : exec (.put m item) s = .next t) :
    t.reaction = s.view.put item := by
  rcases execPut_inversion h with ⟨q, hq, rfl⟩ | ⟨hq, rfl⟩
  · obtain ⟨hc, _, _, _⟩ := (RingBuf.put_done_iff _ _ _ _).mp hq
    rw [View.put, if_pos (by simpa using hc)]
    simp [State.reaction, State.view, View.answer, RingBuf.items_put hq]
  · have hfull := (RingBuf.put_fail_iff _ _ _).mp hq
    rw [View.put, if_neg (by simpa using hfull)]
    rfl

theorem execPop_reaction {dv : Bool} (h : exec (.pop dv) s = .next t) :
    t.reaction = s.view.pop dv := by
  rcases execPop_inversion h with ⟨v, q, hq, rfl⟩ | ⟨hq, rfl⟩
  · have hitems : s.view.rb0 = some v :: q.items (rb0Shape s.par) := RingBuf.items_pop hq
    rw [View.pop, hitems]
    rfl
  · have hitems : s.view.rb0 = [] := RingBuf.items_of_pop_fail hq
    rw [View.pop, hitems]
    rfl

theorem execPeek_reaction {n : BitVec 8} (h : exec (.peek n) s = .next t) :
    t.reaction = s.view.peek n.toNat := by
  rcases execPeek_inversion h with ⟨v, hv, rfl⟩ | ⟨hn, rfl⟩
  · have hitem : s.view.rb0[n.toNat]? = some (some v) := RingBuf.items_peek hv
    rw [View.peek, hitem]
    rfl
  · have hitem : s.view.rb0[n.toNat]? = none :=
      List.getElem?_eq_none (by simpa using (RingBuf.peek_fail_iff _ _ _).mp hn)
    rw [View.peek, hitem]
    rfl

/-! #### Receive -/

theorem AcceptedTo.reaction {pkt : List Byte} (ha : u.rxArmed = true → u.rxq.count = 0)
    (h : AcceptedTo u pkt t) : t.reaction = u.view.accept pkt := by
  rcases h with ⟨hq, rfl⟩ | ⟨q, hq, hidle, rfl⟩ | ⟨q, v, q', hq, harmed, hpop, rfl⟩
  · have hfull := (RingBuf.put_fail_iff _ _ _).mp hq
    rw [View.accept, if_pos (by simpa using hfull)]
    rfl
  · obtain ⟨hc, _, _, _⟩ := (RingBuf.put_done_iff _ _ _ _).mp hq
    rw [View.accept, if_neg (by simpa using hc), if_neg (by simp [hidle])]
    simp [State.reaction, State.view, View.answer, RingBuf.items_put hq, Memory.readBytes]
  · obtain ⟨hc, _, _, _⟩ := (RingBuf.put_done_iff _ _ _ _).mp hq
    have hempty := (RingBuf.items_eq_nil_iff (queueShape u.par) _).mpr (ha harmed)
    have hitems := RingBuf.items_put hq
    rw [hempty, RingBuf.items_pop hpop, List.nil_append, List.cons.injEq, Option.some.injEq]
      at hitems
    obtain ⟨rfl, hrest⟩ := hitems
    rw [View.accept, if_neg (by simpa using hc), if_pos (by simp [harmed])]
    simp [State.reaction, State.view, View.answer, hempty, hrest, Memory.readBytes]

/-- The regions of a full window (10_state.md R27). -/
theorem windowEnd_eq {c : Params} {m : Memory} {w x : List Byte} (hw : m.readBytes 0 c.F = some w)
    (hx : m.readBytes (c.F - 4) 4 = some x) : x = w.drop (c.F - 4) := by
  have hF := Params.F_eq c
  have hpart := Memory.readBytes_part hw (k := c.F - 4) (l := 4) (by omega)
  rw [Nat.zero_add, hx, Option.some.injEq,
    List.take_of_length_le (by rw [List.length_drop, Memory.readBytes_length hw]; omega)] at hpart
  exact hpart

theorem windowPacket_eq {c : Params} {m : Memory} {w pkt : List Byte}
    (hw : m.readBytes 0 c.F = some w) (hp : m.readBytes 4 c.P = some pkt) :
    pkt = (w.drop 4).take c.P := by
  have hpart := Memory.readBytes_part hw (k := 4) (l := c.P) (by rw [Params.F_eq]; omega)
  rwa [Nat.zero_add, hp, Option.some.injEq] at hpart

theorem execRxbyte_reaction {b : Byte} (hs : s.ReceiveInv) (h : exec (.rxbyte b) s = .next t) :
    t.reaction = s.view.rxbyte b := by
  obtain ⟨old, hold⟩ := Option.isSome_iff_exists.mp hs.rx_stored
  obtain ⟨w, hw⟩ : ∃ w, w = old ++ [b] := ⟨_, rfl⟩
  have hwin : (s.storeRxByte b).rxbuf.readBytes 0 (s.rxCursor + 1) = some w :=
    hw ▸ State.storeRxByte_window b hold
  have hlen : w.length = s.rxCursor + 1 := Memory.readBytes_length hwin
  have hview : s.view.rxbyte b = (s.storeRxByte b).view.checkWindow w := by
    rw [State.view_storeRxByte b hold, hw]
    simp [View.rxbyte, State.view, hold]
  have hF : s.par.F = s.par.P + 8 := rfl
  rw [hview, View.checkWindow, State.view_par, State.storeRxByte_par]
  rcases execRxbyte_inversion h with ⟨hge, _⟩ | ⟨_, h3, hne, rfl⟩ | ⟨h3, hp, rfl⟩ |
    ⟨x, h3, hx, hmismatch, rfl⟩ | ⟨x, hE, hx, hmismatch, rfl⟩ | ⟨pkt, hE, hpost, hpkt, hacc⟩
  · have := hs.rxCursor_lt
    omega
  · rw [if_neg (by omega), if_neg (by omega)]
    rfl
  · rw [h3, hp, Option.some.injEq] at hwin
    rw [if_neg (by simp [hwin]), if_neg (by omega)]
    rfl
  · rw [h3, hx, Option.some.injEq] at hwin
    subst hwin
    have hslid := Memory.readBytes_writeBytes_self (s.storeRxByte b).rxbuf 0 (x.drop 1)
    rw [List.length_drop, hlen, h3] at hslid
    rw [if_pos ⟨by omega, hmismatch⟩]
    simp only [State.reaction, State.view, hslid]
    rfl
  · rw [hE] at hwin hlen
    rw [windowEnd_eq hwin hx] at hmismatch
    rw [if_neg (by omega), if_pos hlen, if_neg hmismatch]
    rfl
  · rw [hE] at hwin hlen
    rw [if_neg (by omega), if_pos hlen, if_pos (windowEnd_eq hwin hpost).symm,
      ← windowPacket_eq hwin hpkt]
    exact hacc.reaction hs.rxArmed_empty

theorem execRxnext_reaction (h : exec .rxnext s = .next t) : t.reaction = s.view.rxnext := by
  rcases execRxnext_inversion h with ⟨v, q, hq, rfl⟩ | ⟨hq, rfl⟩
  · have hitems : s.view.rxq = some v :: q.items (queueShape s.par) := RingBuf.items_pop hq
    rw [View.rxnext, hitems]
    rfl
  · have hempty := RingBuf.items_of_pop_fail hq
    simp [View.rxnext, State.reaction, State.view, View.answer, hempty]

/-! #### Transmit -/

theorem RetiredTo.reaction {pkt : List Byte} (h : RetiredTo s pkt t) :
    t.reaction = s.view.retireFrame pkt := by
  rcases h with ⟨v, q, hq, rfl⟩ | ⟨hq, rfl⟩
  · obtain ⟨_, hv, _⟩ := (RingBuf.pop_done_iff _ _ _ _).mp hq
    have hitems : s.view.txq = some v :: q.items (queueShape s.par) := RingBuf.items_pop hq
    rw [View.retireFrame, hitems, State.reaction,
      State.view_startFrame (RingBuf.readSlot_length hv)]
    rfl
  · have hempty := RingBuf.items_of_pop_fail hq
    simp [View.retireFrame, State.reaction, State.view, View.answer, hempty]

theorem execTx_reaction {pkt : List Byte} (h : exec (.tx pkt) s = .next t) :
    t.reaction = s.view.tx pkt := by
  rcases execTx_inversion h with ⟨q, hp, hq, rfl⟩ | ⟨hp, hq, rfl⟩ | ⟨hp, hl, rfl⟩
  · obtain ⟨hc, _, _, _⟩ := (RingBuf.put_done_iff _ _ _ _).mp hq
    rw [View.tx, if_pos (by simp [hp]), if_pos (by simpa using hc)]
    simp [State.reaction, State.view, View.answer, RingBuf.items_put hq]
  · have hfull := (RingBuf.put_fail_iff _ _ _).mp hq
    rw [View.tx, if_pos (by simp [hp]), if_neg (by simpa using hfull)]
    rfl
  · rw [View.tx, if_neg (by simp [hp]), State.reaction, State.view_startFrame hl]
    rfl

theorem execTxdone_reaction (hs : s.TransmitInv) (h : exec .txdone s = .next t) :
    t.reaction = s.view.txdone := by
  have hsending := s.txIrqEn_eq_true_iff
  rw [View.txdone]
  rcases execTxdone_inversion h with ⟨hirq, rfl⟩ | ⟨b, hirq, hlt, hb, rfl⟩ |
    ⟨pkt, hirq, hF, ha, hpkt, hr⟩ | ⟨hirq, hF, ha, rfl⟩
  · rw [if_neg (by simpa [hirq] using hsending)]
    rfl
  · obtain ⟨hp, hfree⟩ := hsending.mp hirq
    obtain ⟨f, hf⟩ := Option.isSome_iff_exists.mp (hs.tx_stored hp)
    obtain ⟨_, hcell⟩ := (Memory.readBytes_eq_some_iff _ _ _ _).mp hf
    have hbyte : f[s.txCursor]? = some b := by rw [← hcell _ hlt, Nat.zero_add, hb]
    rw [if_pos ⟨hp, hfree⟩, if_pos (by rwa [State.view_sent hp])]
    simp [State.reaction, State.view, View.answer, hp, hf, hbyte]
  · obtain ⟨hp, hfree⟩ := hsending.mp hirq
    rw [if_pos ⟨hp, hfree⟩, if_neg (by rw [State.view_sent hp]; exact Nat.not_lt.mpr hF),
      if_pos (by simp [ha]), State.view_packet hs hp hpkt]
    exact hr.reaction
  · obtain ⟨hp, hfree⟩ := hsending.mp hirq
    rw [if_pos ⟨hp, hfree⟩, if_neg (by rw [State.view_sent hp]; exact Nat.not_lt.mpr hF),
      if_neg (by simp [ha])]
    rfl

theorem execTxnext_reaction (hs : s.TransmitInv) (h : exec .txnext s = .next t) :
    t.reaction = s.view.txnext := by
  rw [View.txnext]
  rcases execTxnext_inversion h with ⟨pkt, hb, hpkt, hr⟩ | ⟨hb, rfl⟩
  · obtain ⟨hp, _, _⟩ := hs.blocking hb
    rw [if_pos (by simp [hb]), State.view_packet hs hp hpkt]
    exact hr.reaction
  · rw [if_neg (by simp [hb])]
    rfl

/-! #### The whole block -/

/-- What a command gives depends on the view of the state alone. -/
theorem exec_reaction {i : Instr} (hs : s.Inv) (h : exec i s = .next t) :
    t.reaction = s.view.exec i := by
  obtain ⟨_, hrx, htx⟩ := s.inv_iff.mp hs
  cases i with
  | put m item => exact execPut_reaction h
  | pop dv => exact execPop_reaction h
  | peek n => exact execPeek_reaction h
  | rxbyte b => exact execRxbyte_reaction hrx h
  | txdone => exact execTxdone_reaction htx h
  | tx pkt => exact execTx_reaction h
  | txnext => exact execTxnext_reaction htx h
  | rxnext => exact execRxnext_reaction h
  | reset => cases h; rfl

end

/-- Settles O54: both runs give what the command gives on their common view. -/
theorem unreadStorageNeverReachesAnOutput : Obligations.UnreadStorageNeverReachesAnOutput := by
  intro s t s' t' i hs ht hview _ hs' ht'
  have hsame : s'.reaction = t'.reaction := by
    rw [exec_reaction hs hs', exec_reaction ht ht', hview]
  exact ⟨congrArg Reaction.rsp hsame, congrArg Reaction.outs hsame, congrArg Reaction.view hsame⟩

end Sys2Proof.Machine
end

section
/-! Proofs for 41_transport_receive.md: what one `RXBYTE` and one `RXNEXT` do (R120 to R125, R130,
R131, 60_exceptions.md R201). -/

namespace Sys2Proof.Machine

section
variable {s : State}

/-! ### The parts of `RXBYTE`, by what they find -/

/-- A byte stored after a block that ends at the cursor. -/
theorem State.storeRxByte_block {a n : Nat} {w : List Byte} (b : Byte) (ha : a + n = s.rxCursor)
    (hw : s.rxbuf.readBytes a n = some w) :
    (s.storeRxByte b).rxbuf.readBytes a (n + 1) = some (w ++ [b]) := by
  rw [State.storeRxByte_rxbuf]
  apply Memory.readBytes_append
  · rwa [Memory.readBytes_write_outside (.inr (by omega))]
  · simp [ha, Memory.readBytes]

theorem State.checkPreamble_of_ne (h : s.rxCursor ≠ 4) : s.checkPreamble = some s := if_neg h

theorem State.checkPreamble_of_match (hw : s.rxbuf.readBytes 0 4 = some s.par.pre.toList) :
    s.checkPreamble = some s := by
  simp [State.checkPreamble, hw]

theorem State.checkPreamble_of_mismatch {w : List Byte} (h : s.rxCursor = 4)
    (hw : s.rxbuf.readBytes 0 4 = some w) (hne : w ≠ s.par.pre.toList) :
    s.checkPreamble = some { s with rxbuf := s.rxbuf.writeBytes 0 (w.drop 1), rxCursor := 3 } := by
  simp [State.checkPreamble, h, hw, hne]

theorem State.endOfFrame_of_ne (h : s.rxCursor ≠ s.par.F) :
    s.endOfFrame = .next (s.answer .ok []) := if_neg h

theorem State.endOfFrame_of_mismatch {w : List Byte} (h : s.rxCursor = s.par.F)
    (hw : s.rxbuf.readBytes (s.par.F - 4) 4 = some w) (hne : w ≠ s.par.post.toList) :
    s.endOfFrame = .next (s.signalRxFail .framing) := by
  simp [State.endOfFrame, h, hw, hne]

theorem State.endOfFrame_of_match {pkt : List Byte} (h : s.rxCursor = s.par.F)
    (hpost : s.rxbuf.readBytes (s.par.F - 4) 4 = some s.par.post.toList)
    (hpkt : s.rxbuf.readBytes 4 s.par.P = some pkt) : s.endOfFrame = s.acceptPacket pkt := by
  simp [State.endOfFrame, h, hpost, hpkt]

theorem State.acceptPacket_of_full {pkt : List Byte}
    (hq : s.rxq.put (queueShape s.par) pkt = .fail) :
    s.acceptPacket pkt = .next (s.signalRxFail .bufferFull) := by
  simp [State.acceptPacket, hq]

theorem State.acceptPacket_of_idle {pkt : List Byte} {q : RingBuf}
    (hq : s.rxq.put (queueShape s.par) pkt = .done q) (ha : s.rxArmed = false) :
    s.acceptPacket pkt = .next { s with rxq := q, rxCursor := 0, rsp := some .ok, out := [] } := by
  simp [State.acceptPacket, hq, ha, State.answer]

theorem State.acceptPacket_of_armed {pkt v : List Byte} {q q' : RingBuf}
    (hq : s.rxq.put (queueShape s.par) pkt = .done q) (ha : s.rxArmed = true)
    (hpop : q.pop (queueShape s.par) = .done (v, q')) :
    s.acceptPacket pkt = .next { s with
      rxq := q', rxArmed := false, rxCursor := 0, rsp := some .ok,
      out := [.event (.rxOk v)] } := by
  simp [State.acceptPacket, hq, ha, hpop, State.answer]

/-! ### `RXBYTE`, by what the window holds -/

/-- Receive steps 2 and 3 follow step 1 unless the buffer was full already. -/
theorem exec_rxbyte_eq_endOfFrame {b : Byte} {u : State} (hF : s.rxCursor < s.par.F)
    (hu : (s.storeRxByte b).checkPreamble = some u) : exec (.rxbyte b) s = u.endOfFrame := by
  simp only [exec, execRxbyte, if_neg (Nat.not_le.mpr hF), hu]

theorem exec_rxbyte_ignored (b : Byte) (hF : s.par.F ≤ s.rxCursor) :
    exec (.rxbyte b) s = .next (s.answer .ok []) := if_pos hF

theorem exec_rxbyte_stored (b : Byte) (hF : s.rxCursor < s.par.F) (h3 : s.rxCursor ≠ 3)
    (hE : s.rxCursor + 1 ≠ s.par.F) :
    exec (.rxbyte b) s = .next ((s.storeRxByte b).answer .ok []) := by
  rw [exec_rxbyte_eq_endOfFrame hF (State.checkPreamble_of_ne (by simpa using h3)),
    State.endOfFrame_of_ne hE]

theorem exec_rxbyte_locked {b : Byte} (h3 : s.rxCursor = 3)
    (hw : (s.storeRxByte b).rxbuf.readBytes 0 4 = some s.par.pre.toList) :
    exec (.rxbyte b) s = .next ((s.storeRxByte b).answer .ok []) := by
  have hF := Params.F_eq s.par
  rw [exec_rxbyte_eq_endOfFrame (by omega) (State.checkPreamble_of_match hw),
    State.endOfFrame_of_ne (by simp; omega)]

theorem exec_rxbyte_slid {b : Byte} {w : List Byte} (h3 : s.rxCursor = 3)
    (hw : (s.storeRxByte b).rxbuf.readBytes 0 4 = some w) (hne : w ≠ s.par.pre.toList) :
    exec (.rxbyte b) s = .next { s with
      rxbuf := (s.storeRxByte b).rxbuf.writeBytes 0 (w.drop 1), rxCursor := 3,
      rsp := some .ok, out := [] } := by
  have hF := Params.F_eq s.par
  rw [exec_rxbyte_eq_endOfFrame (by omega)
      (State.checkPreamble_of_mismatch (by simpa using h3) hw hne),
    State.endOfFrame_of_ne (by simp; omega)]
  rfl

theorem exec_rxbyte_last (b : Byte) (hE : s.rxCursor + 1 = s.par.F) :
    exec (.rxbyte b) s = (s.storeRxByte b).endOfFrame := by
  have hF := Params.F_eq s.par
  exact exec_rxbyte_eq_endOfFrame (by omega) (State.checkPreamble_of_ne (by simp; omega))

/-- The last byte of a well-formed frame: its packet is accepted (R123). -/
theorem exec_rxbyte_accepts {b : Byte} {pkt w : List Byte} (hE : s.rxCursor + 1 = s.par.F)
    (hl : pkt.length = s.par.P) (hw : s.rxbuf.readBytes 4 (s.par.P + 3) = some (pkt ++ w))
    (hpost : w ++ [b] = s.par.post.toList) :
    exec (.rxbyte b) s = (s.storeRxByte b).acceptPacket pkt := by
  have hF := Params.F_eq s.par
  have htail : (s.storeRxByte b).rxbuf.readBytes 4 (s.par.P + 4) =
      some (pkt ++ s.par.post.toList) := by
    rw [← hpost, ← List.append_assoc]
    exact State.storeRxByte_block b (by omega) hw
  have hpkt := Memory.readBytes_part htail (k := 0) (l := s.par.P) (by omega)
  have hend := Memory.readBytes_part htail (k := s.par.P) (l := 4) (by omega)
  rw [← hl, List.drop_zero, List.take_left, hl] at hpkt
  rw [← hl, List.drop_left, List.take_of_length_le (by simp), hl] at hend
  rw [exec_rxbyte_last b hE]
  exact State.endOfFrame_of_match hE
    (by rwa [State.storeRxByte_par, show s.par.F - 4 = 4 + s.par.P by omega]) hpkt

/-! ### `RXNEXT`, by what the queue holds -/

theorem exec_rxnext_of_done {v : List Byte} {q : RingBuf}
    (hq : s.rxq.pop (queueShape s.par) = .done (v, q)) :
    exec .rxnext s = .next
      { s with rxq := q, rxArmed := false, rsp := some .ok, out := [.event (.rxOk v)] } := by
  simp [exec, execRxnext, hq, State.answer]

theorem exec_rxnext_of_empty (hc : s.rxq.count = 0) :
    exec .rxnext s = .next { s with rxArmed := true, rsp := some .ok, out := [] } := by
  simp [exec, execRxnext, (RingBuf.pop_fail_iff _ _).mpr hc, State.answer]

end

/-- A successful `put` writes the item's bytes at the write cursor and no other cell. -/
theorem RingBuf.put_storage {g : Shape} {q q' : RingBuf} {v : List Byte}
    (h : q.put g v = .done q') :
    q'.slot.readBytes (q.wcur * g.S) g.S = some v ∧
      ∀ a, a < q.wcur * g.S ∨ q.wcur * g.S + g.S ≤ a → q'.slot.read a = q.slot.read a := by
  obtain ⟨_, _, hv, rfl⟩ := (RingBuf.put_done_iff _ _ _ _).mp h
  refine ⟨?_, fun a ha => Memory.read_writeBytes_outside (by rwa [hv])⟩
  rw [← hv]
  exact Memory.readBytes_writeBytes_self _ _ _

/-- What is put into an empty ring is what the next `pop` takes. -/
theorem RingBuf.pop_after_put {g : Shape} {q q' : RingBuf} {v : List Byte} (hc : q.count = 0)
    (h : q.put g v = .done q') : q'.pop g = .done (v, { q' with count := q'.count - 1 }) := by
  apply RingBuf.pop_of_items_eq_cons (rest := [])
  rw [RingBuf.items_put h, (RingBuf.items_eq_nil_iff _ _).mpr hc, List.nil_append]

/-! ### The statements about one command -/

/-- Settles O19, by the two conditions on the cursor. -/
theorem rxbyteStoresTheByte : Obligations.RxbyteStoresTheByte := by
  intro b s
  refine ⟨fun hF h3 hE => ⟨_, exec_rxbyte_stored b hF h3 hE, ?_, fun a ha => ?_, rfl⟩,
    fun hF => exec_rxbyte_ignored b hF⟩
  · exact Memory.read_write_self _ _ _
  · exact Memory.read_write_ne _ _ ha

/-- Settles O20, by the outcome of the comparison. -/
theorem rxbyteComparesThePreambleAndSlides : Obligations.RxbyteComparesThePreambleAndSlides := by
  intro b b0 b1 b2 s h3 hw
  have hold (a : Nat) (ha : 4 ≤ a) : (s.storeRxByte b).rxbuf.read a = s.rxbuf.read a :=
    Memory.read_write_ne _ _ (by omega)
  have hwin : (s.storeRxByte b).rxbuf.readBytes 0 4 = some [b0, b1, b2, b] :=
    State.storeRxByte_block b (by omega) hw
  by_cases hpre : [b0, b1, b2, b] = s.par.pre.toList
  · simp only [if_pos hpre]
    refine ⟨_, exec_rxbyte_locked h3 (hwin.trans (congrArg some hpre)), hold, hwin, ?_⟩
    rw [State.answer, State.storeRxByte, h3]
  · simp only [if_neg hpre]
    refine ⟨_, exec_rxbyte_slid h3 hwin hpre, fun a ha => ?_, ?_, rfl⟩
    · exact (Memory.read_writeBytes_outside (.inr (by simp; omega))).trans (hold a ha)
    · have hlast : (s.storeRxByte b).rxbuf.readBytes 3 1 = some [b] :=
        Memory.readBytes_part hwin (k := 3) (l := 1) (by omega)
      have hslid := Memory.readBytes_writeBytes_self (s.storeRxByte b).rxbuf 0 [b1, b2, b]
      refine Memory.readBytes_append hslid (k := 1) (cs := [b]) ?_
      rwa [Memory.readBytes_writeBytes_disjoint (.inr (by simp))]

/-- Settles O23: the frame's packet is accepted, and the queue takes it. -/
theorem rxbyteQueuesThePacket : Obligations.RxbyteQueuesThePacket := by
  intro b pkt w s hE hl hread hpost hc hw ha
  have hput := (RingBuf.put_done_iff (queueShape s.par) s.rxq _ pkt).mpr ⟨hc, hw, hl, rfl⟩
  obtain ⟨hitem, hrest⟩ := RingBuf.put_storage hput
  exact ⟨_, (exec_rxbyte_accepts hE hl hread hpost).trans (State.acceptPacket_of_idle hput ha),
    Memory.read_write_self _ _ _, fun _ => Memory.read_write_ne _ _, hitem, hrest, rfl, rfl, rfl⟩

/-- Settles O24: the frame's packet is accepted, put into the empty queue and popped again. -/
theorem rxbyteDeliversThePacketWhenArmed : Obligations.RxbyteDeliversThePacketWhenArmed := by
  intro b pkt w s hE hl hread hpost hc hw ha
  have hroom : s.rxq.count < (queueShape s.par).cap := hc ▸ Shape.cap_pos _
  have hput := (RingBuf.put_done_iff (queueShape s.par) s.rxq _ pkt).mpr ⟨hroom, hw, hl, rfl⟩
  obtain ⟨hitem, hrest⟩ := RingBuf.put_storage hput
  exact ⟨_, (exec_rxbyte_accepts hE hl hread hpost).trans
      (State.acceptPacket_of_armed hput ha (RingBuf.pop_after_put hc hput)),
    Memory.read_write_self _ _ _, fun _ => Memory.read_write_ne _ _, hitem, hrest, rfl, hc, rfl,
    rfl, rfl⟩

/-- Settles O25, by whether a packet is queued. -/
theorem rxnextDeliversTheOldestOrArms : Obligations.RxnextDeliversTheOldestOrArms := by
  intro s
  refine ⟨fun i v hc hi hread => ?_, exec_rxnext_of_empty⟩
  have hslot : s.rxq.slotIndex (queueShape s.par) 0 = i :=
    RingBuf.slotIndex_eq (by simpa using hi)
  exact exec_rxnext_of_done
    ((RingBuf.pop_done_iff _ _ _ _).mpr ⟨hc, by rw [hslot]; exact hread, rfl⟩)

/-- A command that puts out a receive failure is an `RXBYTE` that has stored its byte (R201). -/
theorem exec_emits_rxFail {i : Instr} {s t : State} {k : FailKind} (h : exec i s = .next t)
    (hk : .event (.rxFail k) ∈ t.out) :
    ∃ b, i = .rxbyte b ∧ t = (s.storeRxByte b).signalRxFail k := by
  cases i with
  | put | pop | peek =>
    rw [exec_ring_frame (by simp [Instr.IsRing, Instr.mnemonic]) h] at hk
    simp at hk
  | rxbyte b =>
    rcases execRxbyte_inversion h with ⟨_, rfl⟩ | ⟨_, _, _, rfl⟩ | ⟨_, _, rfl⟩ |
      ⟨w, _, _, _, rfl⟩ | ⟨w, _, _, _, rfl⟩ |
      ⟨pkt, _, _, _, ⟨_, rfl⟩ | ⟨q, _, _, rfl⟩ | ⟨q, v, q', _, _, _, rfl⟩⟩ <;> simp at hk
    · exact ⟨b, rfl, by rw [hk]⟩
    · exact ⟨b, rfl, by rw [hk]⟩
  | rxnext => rcases execRxnext_inversion h with ⟨v, q, _, rfl⟩ | ⟨_, rfl⟩ <;> simp at hk
  | tx pkt =>
    rcases execTx_inversion h with ⟨q, _, _, rfl⟩ | ⟨_, _, rfl⟩ | ⟨_, _, rfl⟩ <;> simp at hk
  | txdone =>
    rcases execTxdone_inversion h with ⟨_, rfl⟩ | ⟨b, _, _, _, rfl⟩ |
      ⟨pkt, _, _, _, _, ⟨v, q, _, rfl⟩ | ⟨_, rfl⟩⟩ | ⟨_, _, _, rfl⟩ <;> simp at hk
  | txnext =>
    rcases execTxnext_inversion h with ⟨pkt, _, _, ⟨v, q, _, rfl⟩ | ⟨_, rfl⟩⟩ | ⟨_, rfl⟩ <;>
      simp at hk
  | reset => cases h; simp at hk

/-- Settles O26: storing the byte and signalling the failure touch nothing else. -/
theorem failureEventsBypassGateAndQueue : Obligations.FailureEventsBypassGateAndQueue := by
  intro i s t k h hk
  obtain ⟨b, rfl, rfl⟩ := exec_emits_rxFail h hk
  exact ⟨rfl, fun a ha => Memory.read_write_ne _ _ ha, rfl⟩

end Sys2Proof.Machine
end

section
/-! Proofs for 41_transport_receive.md: whole frames from an empty window (R120, R127, R132). -/

namespace Sys2Proof.Machine

section
variable {s t u : State}

/-! ### A receiver that meets its invariant takes every byte -/

/-- A packet of the right size is accepted one way or the other. -/
theorem State.acceptPacket_progress {pkt : List Byte} (hq : u.rxq.Inv (queueShape u.par))
    (hl : pkt.length = u.par.P) : ∃ t, u.acceptPacket pkt = .next t := by
  rcases RingBuf.put_of_inv hq (v := pkt) hl with ⟨q, hput⟩ | hput
  · cases ha : u.rxArmed with
    | false => exact ⟨_, State.acceptPacket_of_idle hput ha⟩
    | true =>
      rcases RingBuf.pop_of_inv (RingBuf.put_inv hq hput) with ⟨v, q', hpop⟩ | hpop
      · exact ⟨_, State.acceptPacket_of_armed hput ha hpop⟩
      · obtain ⟨_, _, _, rfl⟩ := (RingBuf.put_done_iff _ _ _ _).mp hput
        exact absurd ((RingBuf.pop_fail_iff _ _).mp hpop) (Nat.succ_ne_zero _)
  · exact ⟨_, State.acceptPacket_of_full hput⟩

theorem exec_rxbyte_progress (hs : s.ReceiveInv) (b : Byte) :
    ∃ t, exec (.rxbyte b) s = .next t := by
  have hF := Params.F_eq s.par
  obtain ⟨w, hw⟩ := Option.isSome_iff_exists.mp (State.storeRxByte_stored hs b)
  by_cases h3 : s.rxCursor = 3
  · rw [h3] at hw
    by_cases hpre : w = s.par.pre.toList
    · exact ⟨_, exec_rxbyte_locked h3 (hpre ▸ hw)⟩
    · exact ⟨_, exec_rxbyte_slid h3 hw hpre⟩
  by_cases hE : s.rxCursor + 1 = s.par.F
  · rw [hE] at hw
    have hpkt := Memory.readBytes_part hw (k := 4) (l := s.par.P) (by omega)
    have hend := Memory.readBytes_part hw (k := s.par.F - 4) (l := 4) (by omega)
    rw [Nat.zero_add] at hpkt hend
    rw [exec_rxbyte_last b hE]
    by_cases hpost : (w.drop (s.par.F - 4)).take 4 = s.par.post.toList
    · rw [State.endOfFrame_of_match hE (hpost ▸ hend) hpkt]
      exact State.acceptPacket_progress hs.rxq_inv (Memory.readBytes_length hpkt)
    · exact ⟨_, State.endOfFrame_of_mismatch hE hend hpost⟩
  · exact ⟨_, exec_rxbyte_stored b hs.rxCursor_lt h3 hE⟩

/-- Any bytes at all can be received; every response is `OK`. -/
theorem runCommands_rxBytes (hs : s.ReceiveInv) (bs : List Byte) :
    ∃ r, runCommands (rxBytes bs) s = some r ∧ r.rsps = List.replicate bs.length .ok ∧
      r.state.ReceiveInv := by
  induction bs generalizing s with
  | nil => exact ⟨_, rfl, rfl, hs⟩
  | cons b bs ih =>
    obtain ⟨t, ht⟩ := exec_rxbyte_progress hs b
    obtain ⟨r, hr, hrsps, hinv⟩ := ih (exec_keeps_receiveInv hs ht)
    refine ⟨_, (runCommands_cons_iff _ _ _ _).mpr ⟨t, r, ht, hr, rfl⟩, ?_, hinv⟩
    rw [hrsps, exec_answers_ok (by simp [Instr.mnemonic]) ht]
    rfl

/-! ### What a whole frame leaves -/

/-- The states differ in what the receive window holds, and in the ports, at most. -/
abbrev SameOutsideWindow (s t : State) : Prop :=
  t = { s with rxbuf := t.rxbuf, rxCursor := t.rxCursor, rsp := t.rsp, out := t.out }

/-- What accepting a packet changes. -/
theorem AcceptedTo.frame {pkt : List Byte} (h : AcceptedTo u pkt t) :
    t = { u with
      rxq := t.rxq, rxCursor := 0, rxArmed := t.rxArmed, rsp := some .ok, out := t.out } := by
  rcases h with ⟨_, rfl⟩ | ⟨q, _, _, rfl⟩ | ⟨q, v, q', _, _, _, rfl⟩ <;> rfl

/-- The outcome of an accepted packet, by the queue and the gate it finds (R120, R123). -/
theorem AcceptedTo.outcome {pkt : List Byte} (hq : u.rxq.Inv (queueShape u.par))
    (ha : u.rxArmed = true → u.rxq.count = 0) (h : AcceptedTo u pkt t) :
    if u.rxq.count = (queueShape u.par).cap then
      t.out = [.event (.rxFail .bufferFull)] ∧ t.rxq = u.rxq ∧ t.rxArmed = u.rxArmed
    else if u.rxArmed = true then
      t.out = [.event (.rxOk pkt)] ∧ t.rxArmed = false ∧ t.rxq.count = 0
    else
      t.out = [] ∧ t.rxArmed = false ∧
        t.rxq.items (queueShape u.par) = u.rxq.items (queueShape u.par) ++ [some pkt] := by
  rcases h with ⟨hput, rfl⟩ | ⟨q, hput, hidle, rfl⟩ | ⟨q, v, q', hput, harmed, hpop, rfl⟩
  · rw [if_pos (Nat.le_antisymm hq.count_le ((RingBuf.put_fail_iff _ _ _).mp hput))]
    exact ⟨rfl, rfl, rfl⟩
  · obtain ⟨hroom, _, _, _⟩ := (RingBuf.put_done_iff _ _ _ _).mp hput
    rw [if_neg (Nat.ne_of_lt hroom), if_neg (by simp [hidle])]
    exact ⟨rfl, hidle, RingBuf.items_put hput⟩
  · obtain ⟨hroom, _, _, hcount⟩ := (RingBuf.put_done_iff _ _ _ _).mp hput
    have hpopped := hpop.symm.trans (RingBuf.pop_after_put (ha harmed) hput)
    simp only [Attempt.done.injEq, Prod.mk.injEq] at hpopped
    obtain ⟨rfl, rfl⟩ := hpopped
    rw [if_neg (Nat.ne_of_lt hroom), if_pos harmed]
    exact ⟨rfl, rfl, by simp [hcount, ha harmed]⟩

/-- A whole frame from an empty window runs through, and its packet is accepted. -/
theorem runCommands_rxFrame_accepts {pkt : List Byte} (hs : s.ReceiveInv) (hc : s.rxCursor = 0)
    (hl : pkt.length = s.par.P) :
    ∃ r u, runCommands (rxFrame s.par pkt) s = some r ∧
      r.rsps = List.replicate s.par.F .ok ∧ r.outs = r.state.out ∧
      SameOutsideWindow s u ∧ AcceptedTo u pkt r.state := by
  obtain ⟨r, hr, hrsps, _⟩ := runCommands_rxBytes hs (frameOf s.par pkt)
  obtain ⟨u, hu, hacc, houts⟩ := runCommands_rxFrame hl hc hr
  exact ⟨r, u, hr, by rw [hrsps, frameOf_length hl], houts, hu, hacc⟩

end

/-- Settles O28: the frame's packet is accepted, in a state with the same queue and gate. -/
theorem wholeFrameIsReportedDeliveredOrQueued :
    Obligations.WholeFrameIsReportedDeliveredOrQueued := by
  intro s pkt hinv hc hl
  obtain ⟨_, hs, _⟩ := s.inv_iff.mp hinv
  obtain ⟨r, u, hr, hrsps, houts, hu, hacc⟩ := runCommands_rxFrame_accepts hs hc hl
  have hframe := hacc.frame
  have houtcome := hacc.outcome (by rw [hu]; exact hs.rxq_inv) (by rw [hu]; exact hs.rxArmed_empty)
  rw [hu] at hframe houtcome
  refine ⟨r, hr, hrsps, by rw [hframe], by rw [hframe], houts, ?_⟩
  rw [houts]
  exact houtcome

/-- Settles O30: `RXNEXT` arms the gate, and the frame that follows finds it armed. -/
theorem frameRoundTripDeliversThePacket : Obligations.FrameRoundTripDeliversThePacket := by
  intro s pkt hinv hc hq hl
  have harm := exec_rxnext_of_empty hq
  obtain ⟨r, hr, _, hcursor, _, houts, hcase⟩ :=
    wholeFrameIsReportedDeliveredOrQueued _ pkt (exec_keeps_inv hinv harm) hc hl
  rw [if_neg (by simp only [hq]; positivity), if_pos rfl] at hcase
  obtain ⟨hevent, harmed, hcount⟩ := hcase
  exact ⟨_, (runCommands_cons_iff _ _ _ _).mpr ⟨_, r, harm, hr, rfl⟩, hevent,
    houts.symm.trans hevent, hcursor, harmed, hcount⟩

end Sys2Proof.Machine
end

section
/-! Proofs for 41_transport_receive.md: garbage before a frame leaves no trace (R128). -/

namespace Sys2Proof.Machine

/-! ### No early lock -/

theorem noEarlyLock.of_cons {pre : Quad} {x : Byte} {g : List Byte}
    (h : noEarlyLock pre (x :: g)) : noEarlyLock pre g :=
  fun k hk => h (k + 1) (by simpa using hk)

/-- A window that equals `PRE` is the true preamble. -/
theorem noEarlyLock.eq_nil_of_lock {pre : Quad} {g rest : List Byte} (h : noEarlyLock pre g)
    (hstream : pre.toList ++ rest = g ++ pre.toList) : rest = [] := by
  cases g with
  | nil => simpa using hstream
  | cons x g =>
    refine absurd ?_ (h 0 (by simp))
    rw [List.drop_zero, ← hstream]
    exact List.take_left' (quad_toList_length pre)

/-- With a `PRE` none of whose suffixes begins it, one byte of garbage gives no early lock. -/
theorem noEarlyLock_of_bifixFree {pre : Quad} {g : List Byte} (h : pre.bifixFree)
    (hg : g.length = 1) : noEarlyLock pre g := by
  obtain ⟨x, rfl⟩ := List.length_eq_one_iff.mp hg
  obtain ⟨hne, _, _⟩ := h
  intro k hk heq
  obtain rfl : k = 0 := by simpa using hk
  simp only [Quad.toList, List.cons_append, List.nil_append, List.drop_zero, List.take_succ_cons,
    List.take_zero, List.cons.injEq] at heq
  obtain ⟨_, h01, h12, h23, _⟩ := heq
  exact hne (by rw [h01, h12, h23])

section
variable {s t u : State}

/-! ### The hunt for the preamble -/

/-- A receiver that has not locked yet: with the bytes `w` of its window, of which there are at most
three, the bytes `bs` still to come make up `g ∥ PRE`, in which the true preamble is the first. -/
structure Hunting (s : State) (w bs g : List Byte) : Prop where
  window : s.rxbuf.readBytes 0 s.rxCursor = some w
  cursor_le : s.rxCursor ≤ 3
  stream : w ++ bs = g ++ s.par.pre.toList
  no_early_lock : noEarlyLock s.par.pre g

/-- One more byte: it locks, being the last of the true preamble, or the hunt goes on. -/
theorem Hunting.rxbyte_cases {b : Byte} {w bs g : List Byte} (hs : Hunting s w (b :: bs) g)
    (h : exec (.rxbyte b) s = .next t) :
    t.out = [] ∧ SameOutsideWindow s t ∧
      ((bs = [] ∧ t.rxbuf.readBytes 0 t.rxCursor = some s.par.pre.toList) ∨
        ∃ w' g', Hunting t w' bs g') := by
  obtain ⟨hw, hle, hstream, hno⟩ := hs
  have hF := Params.F_eq s.par
  have hwin := State.storeRxByte_window b hw
  rw [List.append_cons] at hstream
  rcases execRxbyte_inversion h with ⟨hge, _⟩ | ⟨_, h3, _, rfl⟩ | ⟨h3, hpre, rfl⟩ |
    ⟨x, h3, hx, hne, rfl⟩ | ⟨_, hE, _⟩ | ⟨_, hE, _⟩
  · omega
  · exact ⟨rfl, rfl, .inr ⟨w ++ [b], g, hwin, by simp; omega, hstream, hno⟩⟩
  · rw [h3, hpre, Option.some.injEq] at hwin
    rw [← hwin] at hstream
    exact ⟨rfl, rfl, .inl ⟨hno.eq_nil_of_lock hstream, by simpa [h3] using hpre⟩⟩
  · rw [h3, hx, Option.some.injEq] at hwin
    subst hwin
    have hlen : (w ++ [b]).length = 4 := Memory.readBytes_length hx
    have hslid := Memory.readBytes_writeBytes_self (s.storeRxByte b).rxbuf 0 ((w ++ [b]).drop 1)
    rw [List.length_drop, hlen] at hslid
    cases g with
    | nil =>
      rw [List.nil_append, ← List.append_nil s.par.pre.toList] at hstream
      exact absurd (List.append_inj_left hstream hlen) hne
    | cons y g =>
      refine ⟨rfl, rfl, .inr ⟨_, g, hslid, Nat.le_refl _, ?_, hno.of_cons⟩⟩
      rw [← List.drop_append_of_le_length (by omega), hstream]
      rfl
  · omega
  · omega

/-- The hunt ends with the true preamble in the window, nothing having been put out. -/
theorem Hunting.run_locks {bs w g : List Byte} {r : Run} (hs : Hunting s w bs g)
    (h : runCommands (rxBytes bs) s = some r) :
    r.outs = [] ∧ SameOutsideWindow s r.state ∧
      r.state.rxbuf.readBytes 0 r.state.rxCursor = some s.par.pre.toList := by
  induction bs generalizing s w g r with
  | nil =>
    have hlen := congrArg List.length hs.stream
    have hle := hs.cursor_le
    simp [Memory.readBytes_length hs.window] at hlen
    omega
  | cons b bs ih =>
    obtain ⟨t, v, ht, hv, rfl⟩ := (runCommands_cons_iff _ _ s r).mp h
    obtain ⟨hout, hsame, ⟨rfl, hlock⟩ | ⟨w', g', hhunt⟩⟩ := hs.rxbyte_cases ht
    · obtain rfl := (runCommands_nil_iff t v).mp hv
      exact ⟨by simp [hout], hsame, hlock⟩
    · obtain ⟨houts, hsame', hlock⟩ := ih hhunt hv
      rw [exec_par ht] at hlock
      refine ⟨by simp [hout, houts], ?_, hlock⟩
      rw [hsame] at hsame'
      exact hsame'

/-! ### The frame after the garbage -/

/-- When the bytes that complete a frame have come, `rxbuf` holds the frame. -/
theorem runCommands_rest_of_frame_rxbuf {bs w pkt : List Byte} {r : Run}
    (hl : pkt.length = s.par.P) (hw : s.rxbuf.readBytes 0 s.rxCursor = some w)
    (hframe : w ++ bs = frameOf s.par pkt) (hbs : bs ≠ [])
    (h : runCommands (rxBytes bs) s = some r) :
    r.state.rxbuf.readBytes 0 s.par.F = some (frameOf s.par pkt) := by
  induction bs generalizing s w r with
  | nil => exact absurd rfl hbs
  | cons b rest ih =>
    obtain ⟨t, v, ht, hv, rfl⟩ := (runCommands_cons_iff _ _ s r).mp h
    have hwin := State.storeRxByte_window b hw
    rcases execRxbyte_inside_frame hl hw hframe ht with ⟨hne, rfl⟩ | ⟨rfl, hacc⟩
    · exact ih (s := (s.storeRxByte b).answer .ok []) (r := v) hl hwin
        ((List.append_cons w b rest).symm.trans hframe) hne hv
    · obtain rfl := (runCommands_nil_iff t v).mp hv
      have hlen := Memory.readBytes_length hwin
      rw [hframe, frameOf_length hl] at hlen
      rw [hacc.frame, hlen, ← hframe]
      exact hwin

/-- A frame after garbage without an early lock: its packet is accepted, and what that puts out is
all that is put out. -/
theorem runCommands_garbage_rxFrame {g pkt : List Byte} {r : Run} (hc : s.rxCursor = 0)
    (hl : pkt.length = s.par.P) (hno : noEarlyLock s.par.pre g)
    (h : runCommands (rxBytes g ++ rxFrame s.par pkt) s = some r) :
    ∃ u, SameOutsideWindow s u ∧ AcceptedTo u pkt r.state ∧ r.outs = r.state.out ∧
      r.state.rxbuf.readBytes 0 s.par.F = some (frameOf s.par pkt) := by
  have hsplit : rxBytes g ++ rxFrame s.par pkt =
      rxBytes (g ++ s.par.pre.toList) ++ rxBytes (pkt ++ s.par.post.toList) := by
    simp [rxFrame, rxBytes, frameOf]
  rw [hsplit] at h
  obtain ⟨v, z, hv, hz, rfl⟩ := (runCommands_append_iff _ _ s r).mp h
  have hhunt : Hunting s [] (g ++ s.par.pre.toList) g :=
    ⟨by rw [hc]; rfl, by omega, List.nil_append _, hno⟩
  obtain ⟨hnone, hsame, hlock⟩ := hhunt.run_locks hv
  have hpar : v.state.par = s.par := by rw [hsame]
  have hframe : s.par.pre.toList ++ (pkt ++ s.par.post.toList) = frameOf s.par pkt :=
    (List.append_assoc _ _ _).symm
  have hne : pkt ++ s.par.post.toList ≠ [] := by simp [Quad.toList]
  rw [← hpar] at hl hframe hlock hne hz ⊢
  obtain ⟨u, hu, hacc, houts⟩ := runCommands_rest_of_frame (r := z) hl hlock hframe hne hz
  refine ⟨u, ?_, hacc, by simp [hnone, houts],
    runCommands_rest_of_frame_rxbuf (r := z) hl hlock hframe hne hz⟩
  rw [hsame] at hu
  exact hu

/-! ### Where the garbage was does not show -/

theorem AcceptedTo.acceptPacket_eq {pkt : List Byte} (h : AcceptedTo u pkt t) :
    u.acceptPacket pkt = .next t := by
  rcases h with ⟨hput, rfl⟩ | ⟨q, hput, ha, rfl⟩ | ⟨q, v, q', hput, ha, hpop, rfl⟩
  · exact State.acceptPacket_of_full hput
  · exact State.acceptPacket_of_idle hput ha
  · exact State.acceptPacket_of_armed hput ha hpop

/-- What accepting a packet gives does not depend on the window. -/
theorem AcceptedTo.of_sameOutsideWindow {pkt : List Byte} (hu : SameOutsideWindow s u)
    (h : AcceptedTo u pkt t) : AcceptedTo s pkt { t with rxbuf := s.rxbuf } := by
  rw [hu] at h
  rcases h with ⟨hput, rfl⟩ | ⟨q, hput, ha, rfl⟩ | ⟨q, v, q', hput, ha, hpop, rfl⟩
  · exact .inl ⟨hput, rfl⟩
  · exact .inr (.inl ⟨q, hput, ha, rfl⟩)
  · exact .inr (.inr ⟨q, v, q', hput, ha, hpop, rfl⟩)

/-- Storages in canonical form inside a bound are the same when all below the bound is. -/
theorem Memory.eq_of_readBytes_eq {m m' : Memory} {n : Nat} {bs : List Byte} (hwf : m.wf)
    (hwf' : m'.wf) (hin : ∀ x ∈ m, x.1 < n) (hin' : ∀ x ∈ m', x.1 < n)
    (h : m.readBytes 0 n = some bs) (h' : m'.readBytes 0 n = some bs) : m = m' := by
  obtain ⟨_, hcell⟩ := (Memory.readBytes_eq_some_iff _ _ _ _).mp h
  obtain ⟨_, hcell'⟩ := (Memory.readBytes_eq_some_iff _ _ _ _).mp h'
  have hout {m : Memory} (hin : ∀ x ∈ m, x.1 < n) {a : Nat} (ha : n ≤ a) : m.read a = none := by
    by_contra hsome
    obtain ⟨b, hb⟩ := Option.ne_none_iff_exists'.mp hsome
    exact absurd (hin _ (Memory.read_isSome_mem hb)) (Nat.not_lt.mpr ha)
  refine Memory.eq_of_read_eq hwf hwf' fun a => ?_
  rcases Nat.lt_or_ge a n with ha | ha
  · have := (hcell a ha).trans (hcell' a ha).symm
    rwa [Nat.zero_add] at this
  · rw [hout hin ha, hout hin' ha]

theorem State.eq_of_rxbuf_eq {m : Memory} (h : { s with rxbuf := m } = { t with rxbuf := m })
    (hm : s.rxbuf = t.rxbuf) : s = t :=
  calc s = { { s with rxbuf := m } with rxbuf := s.rxbuf } := rfl
    _ = { { t with rxbuf := m } with rxbuf := t.rxbuf } := by rw [h, hm]
    _ = t := rfl

/-- Two ways to come to accept a packet, with the same frame in `rxbuf` after it, end alike. -/
theorem AcceptedTo.unique {v t' : State} {w pkt : List Byte}
    (hu : SameOutsideWindow s u) (hv : SameOutsideWindow s v) (ht : t.ReceiveInv)
    (ht' : t'.ReceiveInv) (hw : t.rxbuf.readBytes 0 s.par.F = some w)
    (hw' : t'.rxbuf.readBytes 0 s.par.F = some w) (h : AcceptedTo u pkt t)
    (h' : AcceptedTo v pkt t') : t = t' := by
  have hsame := (h.of_sameOutsideWindow hu).acceptPacket_eq.symm.trans
    (h'.of_sameOutsideWindow hv).acceptPacket_eq
  have hpar : t.par = s.par := by rw [h.frame, hu]
  have hpar' : t'.par = s.par := by rw [h'.frame, hv]
  exact State.eq_of_rxbuf_eq (Host.Outcome.next.inj hsame)
    (Memory.eq_of_readBytes_eq ht.rxbuf_canonical ht'.rxbuf_canonical
      (hpar ▸ ht.rxbuf_within) (hpar' ▸ ht'.rxbuf_within) hw hw')

end

/-- Settles O31: the frame after the garbage and the frame alone, which follows no garbage at all,
both accept the packet in states that differ in the window only, and both leave the frame there. -/
theorem receiverResynchronisesAfterGarbage : Obligations.ReceiverResynchronisesAfterGarbage := by
  intro s g pkt hinv hc hl
  refine ⟨fun hno => ?_, noEarlyLock_of_bifixFree⟩
  obtain ⟨_, hs, _⟩ := s.inv_iff.mp hinv
  obtain ⟨r, hr, hrsps, hrinv⟩ := runCommands_rxBytes hs (g ++ frameOf s.par pkt)
  obtain ⟨u, hu, _, huinv⟩ := runCommands_rxBytes hs (frameOf s.par pkt)
  have hrun : runCommands (rxBytes g ++ rxFrame s.par pkt) s = some r := by
    rwa [rxFrame, rxBytes, rxBytes, ← List.map_append]
  obtain ⟨a, ha, hacc, houts, hbuf⟩ := runCommands_garbage_rxFrame hc hl hno hrun
  obtain ⟨b, hb, hacc', houts', hbuf'⟩ :=
    runCommands_garbage_rxFrame (g := []) hc hl (fun _ hk => absurd hk (Nat.not_lt_zero _)) hu
  have hstate := hacc.unique ha hb hrinv huinv hbuf hbuf' hacc'
  refine ⟨r, u, hrun, hu, hstate, by rw [houts, houts', hstate], ?_⟩
  rw [hrsps, List.length_append, frameOf_length hl]

end Sys2Proof.Machine
end

section
/-! Proofs for 41_transport_receive.md: no arm call of a gate is used twice, in either direction
(R133, 42_transport_transmit.md R151, 70_reset_and_hazards.md R238). -/

namespace Sys2Proof.Machine

/-- From `s` to `t` by the commands `is`, with `outs` put out: the success events of a gate's
direction, `packets outs`, and the gate if it is left armed, are paid for by the arm calls and the
gate if it was armed at the start. -/
def GateLaw (packets : List Output → List (List Byte)) (gate : State → Bool) (arm : Instr)
    (s : State) (is : List Instr) (outs : List Output) (t : State) : Prop :=
  (packets outs).length + (gate t).toNat ≤ is.count arm + (gate s).toNat

/-- A law of each command is a law of every run. -/
theorem runCommands_gateLaw {packets : List Output → List (List Byte)} {gate : State → Bool}
    {arm : Instr} (hnil : packets [] = [])
    (happend : ∀ o o', packets (o ++ o') = packets o ++ packets o')
    (hexec : ∀ i s t, exec i s = .next t → GateLaw packets gate arm s [i] t.out t)
    {s : State} {is : List Instr} {r : Run} (h : runCommands is s = some r) :
    GateLaw packets gate arm s is r.outs r.state := by
  induction is generalizing s r with
  | nil =>
    obtain rfl := (runCommands_nil_iff s r).mp h
    simp [GateLaw, hnil]
  | cons i is ih =>
    obtain ⟨t, u, ht, hu, rfl⟩ := (runCommands_cons_iff i is s r).mp h
    have hfirst : (packets t.out).length + (gate t).toNat ≤ [i].count arm + (gate s).toNat :=
      hexec i s t ht
    have hrest : (packets u.outs).length + (gate u.state).toNat ≤ is.count arm + (gate t).toNat :=
      ih hu
    have hcount : (i :: is).count arm = [i].count arm + is.count arm := by
      rw [← List.count_append, List.singleton_append]
    show (packets (t.out ++ u.outs)).length + (gate u.state).toNat ≤ _
    rw [happend, List.length_append, hcount]
    omega

/-- Only `RXBYTE` and `RXNEXT` put out an `RX_OK`. -/
theorem exec_no_receive_success {i : Instr} {s t : State} (hi : ¬ i.IsReceive)
    (h : exec i s = .next t) : rxOkPackets t.out = [] := by
  cases i with
  | put | pop | peek =>
    rw [exec_ring_frame (by simp [Instr.IsRing, Instr.mnemonic]) h]; rfl
  | tx pkt => rcases execTx_inversion h with ⟨q, _, _, rfl⟩ | ⟨_, _, rfl⟩ | ⟨_, _, rfl⟩ <;> rfl
  | txdone =>
    rcases execTxdone_inversion h with ⟨_, rfl⟩ | ⟨b, _, _, _, rfl⟩ |
      ⟨pkt, _, _, _, _, ⟨v, q, _, rfl⟩ | ⟨_, rfl⟩⟩ | ⟨_, _, _, rfl⟩ <;> rfl
  | txnext =>
    rcases execTxnext_inversion h with ⟨pkt, _, _, ⟨v, q, _, rfl⟩ | ⟨_, rfl⟩⟩ | ⟨_, rfl⟩ <;> rfl
  | reset => cases h; rfl
  | rxbyte | rxnext => simp [Instr.IsReceive, Instr.mnemonic] at hi

/-- The receive gate: an `RX_OK` uses up the armed gate, or the `RXNEXT` that asks for it. -/
theorem exec_rxGateLaw (i : Instr) (s t : State) (h : exec i s = .next t) :
    GateLaw rxOkPackets State.rxArmed .rxnext s [i] t.out t := by
  cases i with
  | rxbyte b =>
    rcases execRxbyte_inversion h with ⟨_, rfl⟩ | ⟨_, _, _, rfl⟩ | ⟨_, _, rfl⟩ |
      ⟨w, _, _, _, rfl⟩ | ⟨w, _, _, _, rfl⟩ | ⟨pkt, _, _, _, hacc⟩
    iterate 5 simp [GateLaw, rxOkPackets]
    rcases hacc with ⟨_, rfl⟩ | ⟨q, _, _, rfl⟩ | ⟨q, v, q', _, harmed, _, rfl⟩
    · simp [GateLaw, rxOkPackets]
    · simp [GateLaw, rxOkPackets]
    · rw [State.storeRxByte_rxArmed] at harmed
      simp [GateLaw, rxOkPackets, harmed]
  | rxnext =>
    rcases execRxnext_inversion h with ⟨v, q, _, rfl⟩ | ⟨_, rfl⟩ <;> simp [GateLaw, rxOkPackets]
  | reset => cases h; simp [GateLaw, rxOkPackets]
  | _ =>
    rw [GateLaw, exec_no_receive_success (by simp [Instr.IsReceive, Instr.mnemonic]) h,
      exec_keeps_receive_side (by simp [Instr.mnemonic]) (by simp) h]
    simp

/-- Retiring a frame puts out one `TX_OK`. -/
theorem RetiredTo.txOkPackets_eq {s t : State} {pkt : List Byte} (h : RetiredTo s pkt t) :
    txOkPackets t.out = [pkt] := by
  rcases h with ⟨v, q, _, rfl⟩ | ⟨_, rfl⟩ <;> rfl

/-- The transmit gate: a `TX_OK` uses up the armed gate, or the `TXNEXT` that asks for it. -/
theorem exec_txGateLaw (i : Instr) (s t : State) (h : exec i s = .next t) :
    GateLaw txOkPackets State.txArmed .txnext s [i] t.out t := by
  cases i with
  | tx pkt =>
    rcases execTx_inversion h with ⟨q, _, _, rfl⟩ | ⟨_, _, rfl⟩ | ⟨_, _, rfl⟩ <;>
      simp [GateLaw, txOkPackets]
  | txdone =>
    rcases execTxdone_inversion h with ⟨_, rfl⟩ | ⟨b, _, _, _, rfl⟩ |
      ⟨pkt, _, _, harmed, _, hr⟩ | ⟨_, _, _, rfl⟩
    · simp [GateLaw, txOkPackets]
    · simp [GateLaw, txOkPackets]
    · rw [GateLaw, hr.txOkPackets_eq, hr.frame]
      simp [harmed]
    · simp [GateLaw, txOkPackets]
  | txnext =>
    rcases execTxnext_inversion h with ⟨pkt, _, _, hr⟩ | ⟨_, rfl⟩
    · rw [GateLaw, hr.txOkPackets_eq, hr.frame]
      simp
    · simp [GateLaw, txOkPackets]
  | reset => cases h; simp [GateLaw, txOkPackets]
  | _ =>
    obtain ⟨hnone, _⟩ := exec_no_transmit_output (by simp [Instr.IsTransmit, Instr.mnemonic]) h
    rw [GateLaw, hnone, exec_keeps_transmit_side (by simp [Instr.mnemonic]) (by simp) h]
    simp

/-- Settles O41: the law of both gates, command by command. -/
theorem successEventsNeverExceedArmCalls : Obligations.SuccessEventsNeverExceedArmCalls := by
  intro s is r h
  have hrx := runCommands_gateLaw rfl rxOkPackets_append exec_rxGateLaw h
  have htx := runCommands_gateLaw rfl txOkPackets_append exec_txGateLaw h
  simp only [GateLaw, Bool.toNat, Bool.cond_eq_ite] at hrx htx
  exact ⟨hrx, htx⟩

end Sys2Proof.Machine
end

section
/-! Proofs for 42_transport_transmit.md: what one `TX`, one `TXDONE` and one `TXNEXT` do (R140 to
R149). -/

namespace Sys2Proof.Machine

section
variable {s : State} {pkt : List Byte}

/-! ### The frame in `txbuf` -/

/-- A frame written into `txbuf` is there whole, and no cell beyond it changes. -/
theorem frame_written {c : Params} (m : Memory) (hl : pkt.length = c.P) :
    (m.writeBytes 0 (frameOf c pkt)).readBytes 0 c.F = some (frameOf c pkt) ∧
      ∀ a, c.F ≤ a → (m.writeBytes 0 (frameOf c pkt)).read a = m.read a :=
  ⟨readBytes_frame m hl, fun _ ha =>
    Memory.read_writeBytes_outside (.inr (by rwa [frameOf_length hl, Nat.zero_add]))⟩

/-! ### `TX`, by the line state and the room in `TXQ` -/

theorem exec_tx_of_off (hoff : s.txInProgress = false) (hl : pkt.length = s.par.P) :
    exec (.tx pkt) s = .next { s with
      txbuf := s.txbuf.writeBytes 0 (frameOf s.par pkt), txCursor := 1, txInProgress := true,
      rsp := some .ok, out := [.serOut s.par.pre.b0] } := by
  simp [exec, execTx, hoff, State.startFrame, hl, State.answer, firstByte]

theorem exec_tx_of_done {q : RingBuf} (hp : s.txInProgress = true)
    (hq : s.txq.put (queueShape s.par) pkt = .done q) :
    exec (.tx pkt) s = .next { s with txq := q, rsp := some .ok, out := [] } := by
  simp [exec, execTx, hp, hq, State.answer]

theorem exec_tx_of_full (pkt : List Byte) (hp : s.txInProgress = true)
    (hc : (queueShape s.par).cap ≤ s.txq.count) :
    exec (.tx pkt) s = .next { s with rsp := some .fail, out := [] } := by
  simp [exec, execTx, hp, (RingBuf.put_fail_iff _ _ pkt).mpr hc, State.answer]

/-! ### `TXDONE` and `TXNEXT`, by the line state, the cursor and the gate -/

theorem exec_txdone_of_idle (hirq : s.txIrqEn = false) :
    exec .txdone s = .next { s with rsp := some .ok, out := [] } := if_pos hirq

theorem exec_txdone_of_unsent {b : Byte} (hirq : s.txIrqEn = true) (hlt : s.txCursor < s.par.F)
    (hb : s.txbuf.read s.txCursor = some b) :
    exec .txdone s = .next
      { s with txCursor := s.txCursor + 1, rsp := some .ok, out := [.serOut b] } := by
  simp [exec, execTxdone, hirq, hlt, hb, State.answer]

theorem exec_txdone_of_unarmed (hirq : s.txIrqEn = true) (hF : s.par.F ≤ s.txCursor)
    (ha : s.txArmed = false) :
    exec .txdone s = .next { s with txBlocking := true, rsp := some .ok, out := [] } := by
  simp [exec, execTxdone, hirq, Nat.not_lt.mpr hF, ha, State.answer]

theorem exec_txdone_of_armed (hirq : s.txIrqEn = true) (hF : s.par.F ≤ s.txCursor)
    (ha : s.txArmed = true) (hpkt : s.txbuf.readBytes 4 s.par.P = some pkt) :
    exec .txdone s = State.retireFrame { s with txArmed := false } pkt := by
  simp [exec, execTxdone, hirq, Nat.not_lt.mpr hF, ha, State.sentPacket, hpkt]

theorem exec_txnext_of_free (hb : s.txBlocking = false) :
    exec .txnext s = .next { s with txArmed := true, rsp := some .ok, out := [] } := by
  simp [exec, execTxnext, hb, State.answer]

theorem exec_txnext_of_held (hb : s.txBlocking = true)
    (hpkt : s.txbuf.readBytes 4 s.par.P = some pkt) :
    exec .txnext s = State.retireFrame { s with txBlocking := false } pkt := by
  simp [exec, execTxnext, hb, State.sentPacket, hpkt]

/-! ### The end of a frame, by what `TXQ` holds (R148) -/

theorem State.retireFrame_of_empty (pkt : List Byte) (hc : s.txq.count = 0) :
    s.retireFrame pkt = .next
      { s with txInProgress := false, rsp := some .ok, out := [.event (.txOk pkt)] } := by
  simp [State.retireFrame, (RingBuf.pop_fail_iff _ _).mpr hc, State.answer]

/-- The oldest queued packet is taken off `TXQ` and its frame started. -/
theorem State.retireFrame_of_queued {i : Nat} {v : List Byte} (pkt : List Byte)
    (hc : 1 ≤ s.txq.count) (hi : (i : Int) = ((s.txq.wcur : Int) - s.txq.count) % 2 ^ s.par.KQ)
    (hv : s.txq.slot.readBytes (i * s.par.P) s.par.P = some v) :
    ∃ t, s.retireFrame pkt = .next t ∧
      t.txbuf.readBytes 0 s.par.F = some (frameOf s.par v) ∧
      (∀ a, s.par.F ≤ a → t.txbuf.read a = s.txbuf.read a) ∧
      t = { s with
        txq := { s.txq with count := s.txq.count - 1 }
        txbuf := t.txbuf
        txCursor := 1
        txInProgress := true
        rsp := some .ok
        out := [.event (.txOk pkt), .serOut s.par.pre.b0] } := by
  have hl : v.length = s.par.P := Memory.readBytes_length hv
  have hslot : s.txq.slotIndex (queueShape s.par) 0 = i := RingBuf.slotIndex_eq (by simpa using hi)
  have hpop := (RingBuf.pop_done_iff (queueShape s.par) s.txq _ v).mpr
    ⟨hc, by rw [hslot]; exact hv, rfl⟩
  obtain ⟨hframe, hrest⟩ := frame_written s.txbuf hl
  exact ⟨_, by simp only [State.retireFrame, hpop, State.startFrame, if_pos hl]; rfl,
    hframe, hrest, rfl⟩

end

/-! ### The statements about one command -/

/-- Settles O32: the frame is the block written at the start of `txbuf`. -/
theorem txStartsAFrameWhenOff : Obligations.TxStartsAFrameWhenOff := by
  intro pkt s hoff hl
  obtain ⟨hframe, hrest⟩ := frame_written s.txbuf hl
  exact ⟨_, exec_tx_of_off hoff hl, hframe, hrest, rfl⟩

/-- Settles O33, by whether `TXQ` has room. -/
theorem txQueuesOrRejectsWhileInProgress : Obligations.TxQueuesOrRejectsWhileInProgress := by
  intro pkt s hp
  refine ⟨fun hl hw hc => ?_, fun hc => exec_tx_of_full pkt hp hc⟩
  have hput := (RingBuf.put_done_iff (queueShape s.par) s.txq _ pkt).mpr ⟨hc, hw, hl, rfl⟩
  obtain ⟨hitem, hrest⟩ := RingBuf.put_storage hput
  exact ⟨_, exec_tx_of_done hp hput, hitem, hrest, rfl, rfl, rfl⟩

/-- Settles O34: the interrupt source is idle when no frame is in progress or one is held. -/
theorem txdoneDoesNothingWhileIdle : Obligations.TxdoneDoesNothingWhileIdle := by
  intro s hidle
  rw [← State.txIrqEn_eq_true_iff, Bool.not_eq_true] at hidle
  exact exec_txdone_of_idle hidle

/-- Settles O35: the cursor is the next byte's cell. -/
theorem txdoneSendsTheNextByte : Obligations.TxdoneSendsTheNextByte :=
  fun _ s hp hb hlt hread => exec_txdone_of_unsent (s.txIrqEn_eq_true_iff.mpr ⟨hp, hb⟩) hlt hread

/-- Settles O36, by the gate, and if it is armed by whether a packet is queued. -/
theorem txdoneCompletesTheFrame : Obligations.TxdoneCompletesTheFrame := by
  intro pkt s hp hb hF hpkt
  have hirq := s.txIrqEn_eq_true_iff.mpr ⟨hp, hb⟩
  refine ⟨exec_txdone_of_unarmed hirq hF.ge, fun ha hc => ?_, fun i v ha hc hi hv => ?_⟩
  · rw [exec_txdone_of_armed hirq hF.ge ha hpkt]
    exact State.retireFrame_of_empty (s := { s with txArmed := false }) pkt hc
  · obtain ⟨t, ht, hframe, hrest, hstate⟩ :=
      State.retireFrame_of_queued (s := { s with txArmed := false }) pkt hc hi hv
    rw [exec_txdone_of_armed hirq hF.ge ha hpkt]
    exact ⟨t, ht, hframe, hrest, hstate.trans (by rw [hp])⟩

/-- Settles O37, by whether a completion is held, and if so by whether a packet is queued. -/
theorem txnextDeliversTheHeldCompletionOrArms :
    Obligations.TxnextDeliversTheHeldCompletionOrArms := by
  intro pkt s
  refine ⟨exec_txnext_of_free, fun hb hpkt => ?_⟩
  rw [exec_txnext_of_held hb hpkt]
  exact ⟨State.retireFrame_of_empty (s := { s with txBlocking := false }) pkt,
    fun i v => State.retireFrame_of_queued (s := { s with txBlocking := false }) pkt⟩

end Sys2Proof.Machine
end

section
/-! Proofs for 42_transport_transmit.md: a whole frame leaves, byte by byte (R142, R147). -/

namespace Sys2Proof.Machine

theorem State.TransmitInv.not_blocking_of_off {s : State} (hs : s.TransmitInv)
    (hoff : s.txInProgress = false) : s.txBlocking = false := by
  by_contra hb
  obtain ⟨hp, _⟩ := hs.blocking (by simpa using hb)
  simp [hoff] at hp

/-- The states differ in how much of the frame has left, and in the ports, at most. -/
abbrev SameButSent (s t : State) : Prop :=
  t = { s with txCursor := t.txCursor, rsp := t.rsp, out := t.out }

/-- As many `TXDONE`s as there are unsent bytes of the frame in `txbuf` put out just those. -/
theorem runCommands_txDones {s : State} {f : List Byte} {k : Nat} (hirq : s.txIrqEn = true)
    (hf : s.txbuf.readBytes 0 s.par.F = some f) (hk : s.txCursor + k = s.par.F) :
    ∃ r, runCommands (txDones k) s = some r ∧ r.outs = (f.drop s.txCursor).map .serOut ∧
      r.rsps = List.replicate k .ok ∧ SameButSent s r.state ∧ r.state.txCursor = s.par.F := by
  obtain ⟨hlen, hcell⟩ := (Memory.readBytes_eq_some_iff _ _ _ _).mp hf
  induction k generalizing s with
  | zero =>
    refine ⟨_, rfl, ?_, rfl, rfl, hk⟩
    rw [List.drop_eq_nil_of_le (by omega), List.map_nil]
  | succ k ih =>
    have hlt : s.txCursor < f.length := by omega
    have hb : s.txbuf.read s.txCursor = some f[s.txCursor] := by
      rw [← List.getElem?_eq_getElem hlt, ← hcell _ (hlen ▸ hlt), Nat.zero_add]
    obtain ⟨r, hr, houts, hrsps, hsame, hcursor⟩ :=
      ih (s := { s with
          txCursor := s.txCursor + 1, rsp := some .ok, out := [.serOut f[s.txCursor]] })
        hirq hf (by simp only; omega) hlen hcell
    refine ⟨_, (runCommands_cons_iff _ _ s _).mpr
      ⟨_, r, exec_txdone_of_unsent hirq (hlen ▸ hlt) hb, hr, rfl⟩, ?_, ?_, hsame, hcursor⟩
    · rw [houts, List.drop_eq_getElem_cons hlt]; rfl
    · rw [hrsps]; rfl

/-- Settles O38: `TX` puts out the frame's first byte, and the `TXDONE`s the bytes after it. -/
theorem transmitterPutsOutTheWholeFrame : Obligations.TransmitterPutsOutTheWholeFrame := by
  intro s pkt hinv hoff hl
  obtain ⟨_, _, hs⟩ := s.inv_iff.mp hinv
  have hb := hs.not_blocking_of_off hoff
  have hframe := readBytes_frame s.txbuf hl
  obtain ⟨_, hpkt, _⟩ := readBytes_regions hl hframe
  have htx := exec_tx_of_off hoff hl
  obtain ⟨r, hr, houts, hrsps, hsame, hcursor⟩ :=
    runCommands_txDones (s := { s with
        txbuf := s.txbuf.writeBytes 0 (frameOf s.par pkt), txCursor := 1, txInProgress := true,
        rsp := some .ok, out := [.serOut s.par.pre.b0] })
      (k := s.par.F - 1) (by simp [State.txIrqEn, hb]) hframe
      (Nat.add_sub_cancel' (by simp [Params.F_eq]))
  refine ⟨_, (runCommands_cons_iff _ _ s _).mpr ⟨_, r, htx, hr, rfl⟩, ?_, ?_, hcursor, ?_, ?_⟩
  · rw [houts]; rfl
  · rw [hrsps]; rfl
  · rw [hsame]; simp [State.txLine, hb]
  · rw [hsame]; exact hpkt

end Sys2Proof.Machine
end

section
/-! Proofs for 42_transport_transmit.md: the gate and the interrupt source across every command, and
the stall without `TXNEXT` (R144, R150, R152). -/

namespace Sys2Proof.Machine

/-! ### The gate (10_state.md R32) -/

theorem State.txGate_eq_armed_iff (s : State) : s.txGate = .armed ↔ s.txArmed = true := by
  unfold State.txGate
  split_ifs <;> simp [*]

theorem State.txGate_eq_blocked_iff (s : State) :
    s.txGate = .blocked ↔ s.txArmed = false ∧ s.txBlocking = true := by
  unfold State.txGate
  split_ifs <;> simp [*]

/-- Settles O53: an armed gate is not blocked before the command (I4), and no command blocks it; a
blocked one is not armed, and no command arms it. -/
theorem txGateNeverPassesBetweenArmedAndBlocked :
    Obligations.TxGateNeverPassesBetweenArmedAndBlocked := by
  intro i s t hs h
  rw [s.txGate_eq_armed_iff, t.txGate_eq_armed_iff, s.txGate_eq_blocked_iff,
    t.txGate_eq_blocked_iff]
  refine ⟨fun ⟨harmed, _, hblocked⟩ => ?_, fun ⟨⟨hidle, hblocked⟩, harmed⟩ => ?_⟩
  · rcases exec_txBlocking_cases h with hsame | ⟨_, _, hunarmed, _⟩ | ⟨_, hfree⟩
    · obtain ⟨_, hunarmed, _⟩ := hs.blocking (hsame ▸ hblocked)
      simp [harmed] at hunarmed
    · simp [harmed] at hunarmed
    · simp [hblocked] at hfree
  · rcases exec_txArmed_cases h with hsame | ⟨_, hfree, _⟩ | ⟨_, hunarmed⟩ | ⟨_, _, hunarmed⟩
    · simp [hsame, hidle] at harmed
    · simp [hblocked] at hfree
    · simp [harmed] at hunarmed
    · simp [harmed] at hunarmed

/-! ### The byte in flight (10_state.md R33) -/

section
variable {s t : State} {pkt : List Byte}

/-- `tx_irq_en` as a number, `1` while a byte is in flight. -/
def State.bytesInFlight (s : State) : Nat := if s.txIrqEn = true then 1 else 0

theorem State.bytesInFlight_of_irqEn (h : s.txIrqEn = true) : s.bytesInFlight = 1 := if_pos h

theorem State.bytesInFlight_of_blocking (h : s.txBlocking = true) : s.bytesInFlight = 0 := by
  simp [State.bytesInFlight, State.txIrqEn, h]

theorem State.bytesInFlight_of_off (h : s.txInProgress = false) : s.bytesInFlight = 0 := by
  simp [State.bytesInFlight, State.txIrqEn, h]

/-- From `s` to `t` by the command `i`: what was in flight and what the command put out has either
been answered by it or is in flight. -/
def FlightBalance (i : Instr) (s t : State) : Prop :=
  t.bytesInFlight + (if i = .txdone ∧ s.txIrqEn = true then 1 else 0) =
    s.bytesInFlight + (serialBytes t.out).length

/-- A command other than `TXDONE` answers no byte. -/
theorem flightBalance_iff_of_ne_txdone {i : Instr} (hi : i ≠ .txdone) :
    FlightBalance i s t ↔ t.bytesInFlight = s.bytesInFlight + (serialBytes t.out).length := by
  simp [FlightBalance, hi]

/-- A `TXDONE` with a byte in flight answers it. -/
theorem flightBalance_txdone_iff (hirq : s.txIrqEn = true) :
    FlightBalance .txdone s t ↔ t.bytesInFlight = (serialBytes t.out).length := by
  simp only [FlightBalance, hirq, State.bytesInFlight_of_irqEn hirq, and_self, if_true]
  omega

/-- Retiring a frame with nothing held back leaves the first byte of the next frame in flight, if
there is a next one. -/
theorem RetiredTo.bytesInFlight_eq (hb : s.txBlocking = false) (h : RetiredTo s pkt t) :
    t.bytesInFlight = (serialBytes t.out).length := by
  rcases h with ⟨v, q, _, rfl⟩ | ⟨_, rfl⟩
  · exact State.bytesInFlight_of_irqEn (by simp [State.txIrqEn, hb])
  · exact State.bytesInFlight_of_off rfl

theorem execTx_flightBalance (hs : s.TransmitInv) (h : exec (.tx pkt) s = .next t) :
    FlightBalance (.tx pkt) s t := by
  rw [flightBalance_iff_of_ne_txdone (by simp)]
  rcases execTx_inversion h with ⟨q, _, _, rfl⟩ | ⟨_, _, rfl⟩ | ⟨hoff, _, rfl⟩
  · rfl
  · rfl
  · have hb := hs.not_blocking_of_off hoff
    rw [State.bytesInFlight_of_off hoff]
    exact State.bytesInFlight_of_irqEn (by simp [State.txIrqEn, hb])

theorem execTxdone_flightBalance (h : exec .txdone s = .next t) : FlightBalance .txdone s t := by
  rcases execTxdone_inversion h with ⟨hidle, rfl⟩ | ⟨b, hirq, _, _, rfl⟩ |
    ⟨pkt, hirq, _, _, _, hr⟩ | ⟨hirq, _, _, rfl⟩
  · rw [FlightBalance, if_neg (by simp [hidle])]; rfl
  · rw [flightBalance_txdone_iff hirq]
    exact State.bytesInFlight_of_irqEn hirq
  · obtain ⟨_, hb⟩ := s.txIrqEn_eq_true_iff.mp hirq
    rw [flightBalance_txdone_iff hirq]
    exact RetiredTo.bytesInFlight_eq (s := { s with txArmed := false }) hb hr
  · rw [flightBalance_txdone_iff hirq]
    exact State.bytesInFlight_of_blocking rfl

theorem execTxnext_flightBalance (h : exec .txnext s = .next t) : FlightBalance .txnext s t := by
  rw [flightBalance_iff_of_ne_txdone (by simp)]
  rcases execTxnext_inversion h with ⟨pkt, hb, _, hr⟩ | ⟨_, rfl⟩
  · rw [State.bytesInFlight_of_blocking hb, Nat.zero_add]
    exact hr.bytesInFlight_eq rfl
  · rfl

theorem exec_flightBalance {i : Instr} (hs : s.TransmitInv) (hi : i ≠ .reset)
    (h : exec i s = .next t) : FlightBalance i s t := by
  by_cases htx : i.IsTransmit
  · cases i with
    | tx pkt => exact execTx_flightBalance hs h
    | txdone => exact execTxdone_flightBalance h
    | txnext => exact execTxnext_flightBalance h
    | _ => simp [Instr.IsTransmit, Instr.mnemonic] at htx
  · obtain ⟨_, hser⟩ := exec_no_transmit_output htx h
    have hne : i ≠ .txdone := by rintro rfl; simp [Instr.IsTransmit, Instr.mnemonic] at htx
    rw [flightBalance_iff_of_ne_txdone hne, hser, exec_keeps_transmit_side htx hi h]
    rfl

end

/-- Settles O39, command by command. -/
theorem irqEnableCountsTheByteInFlight : Obligations.IrqEnableCountsTheByteInFlight := by
  intro i s t hs hi h
  obtain ⟨_, _, htx⟩ := s.inv_iff.mp hs
  exact exec_flightBalance htx hi h

/-! ### The stall (R152) -/

/-- The frames of the packets in progress, of which there is one at most. -/
theorem State.currentPackets_frames_length (s : State) :
    (s.currentPackets.flatMap (frameOf s.par)).length ≤ s.par.F := by
  cases hp : s.txInProgress with
  | false => simp [State.currentPackets_off hp]
  | true =>
    cases hpkt : s.txbuf.readBytes 4 s.par.P with
    | none => simp [State.currentPackets, State.sentPacket, hpkt]
    | some pkt =>
      simp [State.currentPackets_on hp hpkt, frameOf_length (Memory.readBytes_length hpkt)]

/-- When nothing was owed at the start and no `TX_OK` was put out, all that was put out belongs to
the frame in progress. -/
theorem TransmitBalance.serialBytes_of_no_txOk {s t : State} {accepted : List (List Byte)}
    {outs : List Output} (h : TransmitBalance s accepted outs t) (hpk : s.owedPackets = [])
    (hby : s.owedBytes = []) (hnone : txOkPackets outs = []) :
    serialBytes outs ++ t.unsentBytes = t.currentPackets.flatMap (frameOf s.par) := by
  obtain ⟨hpar, hpackets, hbytes⟩ := h
  rw [hpk, hnone, List.nil_append, List.nil_append] at hpackets
  rw [hby, List.nil_append, hpackets, State.owedPackets, State.owedBytes, List.flatMap_append,
    ← List.append_assoc, hpar] at hbytes
  exact (List.append_cancel_right hbytes).symm

/-- Settles O42: by the gate law there is no `TX_OK`, so all bytes put out are of one frame. -/
theorem transmitterStallsWithoutTxnext : Obligations.TransmitterStallsWithoutTxnext := by
  intro s is r hs hoff hunarmed hnext hreset h
  obtain ⟨_, _, htx⟩ := s.inv_iff.mp hs
  have hnone : txOkPackets r.outs = [] := by
    obtain ⟨_, hlaw⟩ := successEventsNeverExceedArmCalls s is r h
    simp only [List.count_eq_zero_of_not_mem hnext, hunarmed, Bool.false_eq_true, if_false] at hlaw
    exact List.length_eq_zero_iff.mp (by omega)
  obtain ⟨hpk, hby⟩ := State.nothing_owed_of_off hoff (htx.off_empty hoff)
  have hbalance := runCommands_transmitBalance htx hreset h
  have hlen := congrArg List.length (hbalance.serialBytes_of_no_txOk hpk hby hnone)
  have hframe := r.state.currentPackets_frames_length
  rw [hbalance.par] at hframe
  rw [List.length_append] at hlen
  exact ⟨hnone, by omega⟩

end Sys2Proof.Machine
end

section
/-! Proofs for 43_system.md: the `RESET` command (R160). -/

namespace Sys2Proof.Machine

/-- The branch of `exec` for `RESET`: all it does beyond the reset it shares with `rst`
(70_reset_and_hazards.md R220) is to answer. -/
theorem exec_reset (s : State) : exec .reset s = .next (s.toReset.answer .ok []) := rfl

/-- Settles O11: the shared reset sets each field to its reset value, and emptying a ring keeps its
slots. -/
theorem resetCommandClearsCountsCursorsFlags :
    Obligations.ResetCommandClearsCountsCursorsFlags := by
  intro s
  simp only [exec_reset, State.answer, State.toReset, RingBuf.clear]

end Sys2Proof.Machine
end

section
/-! Proofs for 44_host_event_dispatch.md: `dispatch` and the enabled flags (R174, R175). -/

namespace Sys2Proof.Machine

/-! ### `dispatch`, by what the queue does -/

theorem EventCore.dispatch_of_put {h : EventCore} {e : HostEvent} {q : RingBuf}
    (hput : h.evq.put h.shape (e.toItem h.shape.S) = .done q) :
    h.dispatch e = .done (true, { h with evq := q }) := by
  simp [EventCore.dispatch, hput]

theorem EventCore.dispatch_of_full {h : EventCore} (hfull : h.shape.cap ≤ h.evq.count)
    (e : HostEvent) : h.dispatch e = .done (false, h) := by
  simp [EventCore.dispatch, (RingBuf.put_fail_iff _ _ (e.toItem h.shape.S)).mpr hfull]

/-- Settles O56: the item of an event that fits is one that `put` appends, and it is read back as
that event. -/
theorem dispatchEnqueuesOrDrops : Obligations.DispatchEnqueuesOrDrops := by
  intro h e
  refine ⟨fun hroom hw hfits => ?_, fun hfull => h.dispatch_of_full hfull e, fun hS => ⟨hS, nofun⟩⟩
  have hput := (RingBuf.put_done_iff h.shape h.evq _ (e.toItem h.shape.S)).mpr
    ⟨hroom, hw, HostEvent.toItem_length hfits, rfl⟩
  exact ⟨_, _, EventCore.dispatch_of_put hput, RingBuf.items_put hput,
    HostEvent.ofItem_toItem hfits⟩

/-! ### The enabled flags -/

/-- A table none of whose entries has the id is as it was. -/
theorem map_enabled_of_no_id {id : Byte} {l : List HandlerEntry} (h : id ∉ l.map HandlerEntry.id)
    (b : Bool) : l.map (fun e => if e.id = id then { e with enabled := b } else e) = l := by
  have hne : ∀ e ∈ l, (if e.id = id then { e with enabled := b } else e) = e := fun e he =>
    if_neg fun hid => h (List.mem_map.mpr ⟨e, he, hid⟩)
  exact (List.map_congr_left hne).trans (List.map_id l)

/-- On unique ids the first entry with an id is the only one, so a `map` over all the table does the
same. -/
theorem enableFirst_eq_map {l : List HandlerEntry} (hl : (l.map HandlerEntry.id).Nodup)
    (id : Byte) (b : Bool) :
    enableFirst id b l = l.map fun e => if e.id = id then { e with enabled := b } else e := by
  induction l with
  | nil => rfl
  | cons e l ih =>
    obtain ⟨hnotin, hrest⟩ := List.nodup_cons.mp hl
    by_cases hid : e.id = id
    · subst hid
      simp only [enableFirst, List.map_cons, if_true, map_enabled_of_no_id hnotin]
    · simp only [enableFirst, List.map_cons, if_neg hid, ih hrest]

/-- Settles O58: on unique ids the first entry with the id, which `set_enabled` switches, is the
only one. -/
theorem setEnabledSwitchesExactlyItsEntries : Obligations.SetEnabledSwitchesExactlyItsEntries :=
  fun h id _ v => ⟨fun hids => enableFirst_eq_map hids id v, rfl, h.setEnabled_evq id v,
    h.setEnabledByCode_evq _ v⟩

end Sys2Proof.Machine
end

section
/-! Proofs for 44_host_event_dispatch.md: the scan of the table and the drain of the queue (R172,
R173, R176, R181). -/

namespace Sys2Proof.Machine

section
variable {σ : Type} {body : HandlerBody σ}

/-! ### The scan, entry by entry -/

theorem scanFrom_of_no_entry {k : Nat} {w : EventCore × σ} (hk : w.1.table[k]? = none)
    (e : HostEvent) (n : Nat) : scanFrom body e n k w = some w := by
  cases n with
  | zero => rfl
  | succ n => rw [scanFrom, hk]

/-- An entry that is disabled or of another code is passed over. -/
theorem scanFrom_of_skipped {e : HostEvent} {k : Nat} {w : EventCore × σ} {entry : HandlerEntry}
    (hk : w.1.table[k]? = some entry) (hskip : ¬ (entry.enabled = true ∧ entry.code = e.code))
    (n : Nat) : scanFrom body e (n + 1) k w = scanFrom body e n (k + 1) w := by
  rw [scanFrom, hk]
  exact if_neg hskip

/-- An enabled entry of the event's code is invoked, and the scan goes on unless it returned
true. -/
theorem scanFrom_of_invoked {e : HostEvent} {k : Nat} {w : EventCore × σ} {entry : HandlerEntry}
    (hk : w.1.table[k]? = some entry) (hen : entry.enabled = true) (hcode : entry.code = e.code)
    (n : Nat) : scanFrom body e (n + 1) k w =
      ((body entry.id e w.2).carryOut w.1).bind fun r =>
        if r.1 = true then some r.2 else scanFrom body e n (k + 1) r.2 := by
  rw [scanFrom, hk]
  simp only [hen, hcode, and_self, if_true]
  rcases (body entry.id e w.2).carryOut w.1 with _ | ⟨_ | _, w'⟩ <;> rfl

/-- After the last entry of a scan its result no longer matters. -/
theorem scanFrom_of_invoked_last {e : HostEvent} {k : Nat} {w : EventCore × σ}
    {entry : HandlerEntry} (hk : w.1.table[k]? = some entry) (hen : entry.enabled = true)
    (hcode : entry.code = e.code) : scanFrom body e 1 k w =
      ((body entry.id e w.2).carryOut w.1).map Prod.snd := by
  rw [scanFrom_of_invoked hk hen hcode]
  simp only [scanFrom, ite_self]
  exact Option.map_eq_bind.symm

/-- What a scan leaves of what the dispatch core owns: all that each handler leaves. -/
theorem scanFrom_keeps {e : HostEvent} {n k : Nat} {w w' : EventCore × σ}
    (hq : w.1.evq.Inv w.1.shape) (h : scanFrom body e n k w = some w') :
    w'.1.fixed = w.1.fixed ∧ w'.1.evq.Inv w'.1.shape := by
  induction n generalizing k w with
  | zero => cases h; exact ⟨rfl, hq⟩
  | succ n ih =>
    cases hk : w.1.table[k]? with
    | none =>
      rw [scanFrom_of_no_entry hk] at h
      cases h; exact ⟨rfl, hq⟩
    | some entry =>
      by_cases hinvoked : entry.enabled = true ∧ entry.code = e.code
      · rw [scanFrom_of_invoked hk hinvoked.1 hinvoked.2] at h
        obtain ⟨⟨stop, u⟩, hrun, hrest⟩ := Option.bind_eq_some_iff.mp h
        obtain ⟨hfixed, hinv⟩ := HandlerRun.carryOut_keeps hq hrun
        cases stop with
        | true => cases hrest; exact ⟨hfixed, hinv⟩
        | false =>
          obtain ⟨hfixed', hinv'⟩ := ih hinv hrest
          exact ⟨hfixed'.trans hfixed, hinv'⟩
      · rw [scanFrom_of_skipped hk hinvoked] at h
        exact ih hq h

/-! ### The drain, event by event -/

theorem drain_of_empty {w : EventCore × σ} (hempty : w.1.evq.pop w.1.shape = .fail) (fuel : Nat) :
    drain body fuel w = some (0, w) := by
  cases fuel <;> rw [drain, hempty]

theorem drain_zero_of_pop {w : EventCore × σ} {v : List Byte} {q : RingBuf}
    (hpop : w.1.evq.pop w.1.shape = .done (v, q)) : drain body 0 w = none := by
  rw [drain, hpop]

/-- The event popped is scanned for, and the rest is drained after it. -/
theorem drain_succ_of_pop {w : EventCore × σ} {v : List Byte} {q : RingBuf}
    (hpop : w.1.evq.pop w.1.shape = .done (v, q)) (fuel : Nat) :
    drain body (fuel + 1) w =
      (scanFrom body (HostEvent.ofItem v) w.1.table.length 0 ({ w.1 with evq := q }, w.2)).bind
        fun w' => (drain body fuel w').map fun r => (r.1 + 1, r.2) := by
  rw [drain, hpop]
  dsimp only
  cases scanFrom body (HostEvent.ofItem v) w.1.table.length 0 ({ w.1 with evq := q }, w.2) with
  | none => rfl
  | some w' =>
    dsimp only [Option.bind_some]
    cases drain body fuel w' <;> rfl

/-- A drain that ends has emptied the queue, and leaves what the dispatch core owns as each scan
does. -/
theorem drain_keeps {fuel : Nat} {w : EventCore × σ} {r : Nat × (EventCore × σ)}
    (hq : w.1.evq.Inv w.1.shape) (h : drain body fuel w = some r) :
    r.2.1.fixed = w.1.fixed ∧ r.2.1.evq.Inv r.2.1.shape ∧ r.2.1.evq.count = 0 := by
  induction fuel generalizing w r with
  | zero =>
    rcases RingBuf.pop_of_inv hq with ⟨v, q, hpop⟩ | hempty
    · rw [drain_zero_of_pop hpop] at h; cases h
    · rw [drain_of_empty hempty] at h; cases h
      exact ⟨rfl, hq, (RingBuf.pop_fail_iff _ _).mp hempty⟩
  | succ fuel ih =>
    rcases RingBuf.pop_of_inv hq with ⟨v, q, hpop⟩ | hempty
    · rw [drain_succ_of_pop hpop] at h
      obtain ⟨w', hscan, hrest⟩ := Option.bind_eq_some_iff.mp h
      obtain ⟨r', hdrain, rfl⟩ := Option.map_eq_some_iff.mp hrest
      obtain ⟨hfixed, hinv⟩ := scanFrom_keeps
        (w := ({ w.1 with evq := q }, w.2)) (RingBuf.pop_inv hq hpop) hscan
      obtain ⟨hfixed', hinv', hcount⟩ := ih hinv hdrain
      exact ⟨hfixed'.trans hfixed, hinv', hcount⟩
    · rw [drain_of_empty hempty] at h; cases h
      exact ⟨rfl, hq, (RingBuf.pop_fail_iff _ _).mp hempty⟩

/-! ### Handlers that call nothing of the dispatch core -/

/-- Every handler returns without a call of the dispatch core's operations. -/
def HandlerBody.CallsNothing (body : HandlerBody σ) : Prop :=
  ∀ id e y, ∃ stop z, body id e y = .finish stop z

theorem HandlerBody.CallsNothing.carryOut_keeps_core (hbody : body.CallsNothing) (id : Byte)
    (e : HostEvent) (w : EventCore × σ) :
    ∃ stop z, (body id e w.2).carryOut w.1 = some (stop, (w.1, z)) := by
  obtain ⟨stop, z, hrun⟩ := hbody id e w.2
  exact ⟨stop, z, by rw [hrun, HandlerRun.carryOut]⟩

/-- A scan with such handlers always ends, and changes the rest of the world alone. -/
theorem HandlerBody.CallsNothing.scanFrom_keeps_core (hbody : body.CallsNothing) (e : HostEvent)
    (n k : Nat) (w : EventCore × σ) : ∃ z, scanFrom body e n k w = some (w.1, z) := by
  induction n generalizing k w with
  | zero => exact ⟨w.2, rfl⟩
  | succ n ih =>
    cases hk : w.1.table[k]? with
    | none => exact ⟨w.2, scanFrom_of_no_entry hk e _⟩
    | some entry =>
      by_cases hinvoked : entry.enabled = true ∧ entry.code = e.code
      · obtain ⟨stop, z, hrun⟩ := hbody.carryOut_keeps_core entry.id e w
        rw [scanFrom_of_invoked hk hinvoked.1 hinvoked.2, hrun]
        cases stop with
        | true => exact ⟨z, rfl⟩
        | false => exact ih (k + 1) (w.1, z)
      · rw [scanFrom_of_skipped hk hinvoked]
        exact ih (k + 1) w

/-- A drain with such handlers processes each event held, once, and only empties the queue. -/
theorem HandlerBody.CallsNothing.drain_eq (hbody : body.CallsNothing) {fuel : Nat}
    {w : EventCore × σ} (hq : w.1.evq.Inv w.1.shape) (hfuel : w.1.evq.count ≤ fuel) :
    ∃ z, drain body fuel w =
      some (w.1.evq.count, ({ w.1 with evq := { w.1.evq with count := 0 } }, z)) := by
  induction fuel generalizing w with
  | zero =>
    have hzero : w.1.evq.count = 0 := Nat.le_zero.mp hfuel
    refine ⟨w.2, ?_⟩
    rw [drain_of_empty ((RingBuf.pop_fail_iff _ _).mpr hzero), ← hzero]
  | succ fuel ih =>
    rcases RingBuf.pop_of_inv hq with ⟨v, q, hpop⟩ | hempty
    · obtain ⟨hc, _, rfl⟩ := (RingBuf.pop_done_iff _ _ _ _).mp hpop
      obtain ⟨y, hscan⟩ := hbody.scanFrom_keeps_core (HostEvent.ofItem v) w.1.table.length 0
        ({ w.1 with evq := { w.1.evq with count := w.1.evq.count - 1 } }, w.2)
      obtain ⟨z, hdrain⟩ := ih
        (w := ({ w.1 with evq := { w.1.evq with count := w.1.evq.count - 1 } }, y))
        (RingBuf.pop_inv hq hpop) (Nat.sub_le_of_le_add hfuel)
      refine ⟨z, ?_⟩
      rw [drain_succ_of_pop hpop, hscan, Option.bind_some, hdrain, Option.map_some,
        Nat.sub_add_cancel hc]
    · refine ⟨w.2, ?_⟩
      rw [drain_of_empty hempty, ← (RingBuf.pop_fail_iff _ _).mp hempty]

end

theorem runResult_of_le {n : Nat} (h : n ≤ 255) : runResult n = BitVec.ofNat 8 n := if_pos h

/-! ### The statements -/

/-- Settles O60: `run` is a drain, and what it leaves fixed is the shape with the ids and codes. -/
theorem runKeepsTheTableAndTheQueue : Obligations.RunKeepsTheTableAndTheQueue := by
  intro σ body h x fuel r hq hrun
  obtain ⟨d, hdrain, rfl⟩ := Option.map_eq_some_iff.mp hrun
  obtain ⟨hfixed, hinv, hcount⟩ := drain_keeps (w := (h, x)) hq hdrain
  obtain ⟨hshape, htable⟩ := Prod.mk.inj hfixed
  exact ⟨hshape, htable, hshape ▸ hinv, hcount⟩

/-- Settles O59, by the drain with handlers that call nothing. -/
theorem runDrainsTheWholeQueue : Obligations.RunDrainsTheWholeQueue := by
  intro σ body h x fuel hbody hq hfuel
  obtain ⟨z, hdrain⟩ := HandlerBody.CallsNothing.drain_eq hbody (w := (h, x)) hq hfuel
  exact ⟨_, Option.map_eq_some_iff.mpr ⟨_, hdrain, rfl⟩, rfl, rfl, runResult_of_le⟩

/-- Settles O57: a scan of two entries is an invocation of the first, or its omission, and of the
second. -/
theorem handlersRunInRegistrationOrder : Obligations.HandlersRunInRegistrationOrder := by
  intro σ body e a b h x htable ha hb hacode hbcode
  have hfirst := scanFrom_of_invoked (body := body) (w := (h, x)) (k := 0) (by simp [htable]) ha
    hacode 1
  refine ⟨fun w hrun => ?_, fun w hrun hw => ?_, fun _ => ?_⟩
  · rw [hfirst, hrun]; rfl
  · rw [hfirst, hrun]
    exact scanFrom_of_invoked_last (by simp [hw]) hb hbcode
  · have hswitched : (h.setEnabled a.id false).table = [{ a with enabled := false }, b] := by
      simp [EventCore.setEnabled, enableFirst, htable]
    rw [scanFrom_of_skipped (entry := { a with enabled := false }) (by simp [hswitched]) (by simp)]
    exact scanFrom_of_invoked_last (by simp [hswitched]) hb hbcode

end Sys2Proof.Machine
end

section
/-! Proofs for 60_exceptions.md: the receive failures (R191, R192, R193, R201). -/

namespace Sys2Proof.Machine

/-- Settles O21: the stored byte completes the last four, which do not match. -/
theorem rxbyteReportsAFramingError : Obligations.RxbyteReportsAFramingError := by
  intro b w s hE hw hne
  have hF := Params.F_eq s.par
  have hlast : (s.storeRxByte b).rxbuf.readBytes (s.par.F - 4) 4 = some (w ++ [b]) :=
    State.storeRxByte_block b (by omega) hw
  exact ⟨_, (exec_rxbyte_last b hE).trans (State.endOfFrame_of_mismatch hE hlast hne),
    Memory.read_write_self _ _ _, fun _ => Memory.read_write_ne _ _, rfl, rfl, rfl, rfl⟩

/-- Settles O22: the frame's packet is accepted, and the full queue refuses it. -/
theorem rxbyteReportsAFullBuffer : Obligations.RxbyteReportsAFullBuffer := by
  intro b pkt w s hE hl hw hpost hfull
  have hput : s.rxq.put (queueShape s.par) pkt = .fail := (RingBuf.put_fail_iff _ _ _).mpr hfull
  exact ⟨_, (exec_rxbyte_accepts hE hl hw hpost).trans (State.acceptPacket_of_full hput),
    Memory.read_write_self _ _ _, fun _ => Memory.read_write_ne _ _, rfl, rfl, rfl, rfl⟩

/-- The receive failures that a command can put out. -/
theorem exec_rxFail_kind {i : Instr} {s t : State} {k : FailKind} (h : exec i s = .next t)
    (hk : .event (.rxFail k) ∈ t.out) : k = .framing ∨ k = .bufferFull := by
  obtain ⟨b, rfl, -⟩ := exec_emits_rxFail h hk
  rcases execRxbyte_inversion h with ⟨_, rfl⟩ | ⟨_, _, _, rfl⟩ | ⟨_, _, rfl⟩ |
    ⟨w, _, _, _, rfl⟩ | ⟨w, _, _, _, rfl⟩ |
    ⟨pkt, _, _, _, ⟨_, rfl⟩ | ⟨q, _, _, rfl⟩ | ⟨q, v, q', _, _, _, rfl⟩⟩ <;> simp at hk
  · exact .inl hk
  · exact .inr hk

/-- A step that runs no command puts out no receive failure. -/
theorem step_rxFail_kind {s t : State} {k : FailKind} (h : step s = .next t)
    (hk : .event (.rxFail k) ∈ t.out) : k = .framing ∨ k = .bufferFull := by
  rcases step_inversion h with ⟨_, rfl⟩ | ⟨_, _, rfl⟩ | ⟨_, _, _, _, _, _, rfl⟩ |
    ⟨_, _, _, i, _, _, he⟩
  · simp at hk
  · simp at hk
  · simp at hk
  · exact exec_rxFail_kind he hk

/-- Settles O27: the other two kinds are the only ones a step puts out. -/
theorem parityAndOverrunAreNeverEmitted : Obligations.ParityAndOverrunAreNeverEmitted :=
  ⟨rfl, rfl, fun _ _ h =>
    ⟨fun hk => by simpa using step_rxFail_kind h hk,
      fun hk => by simpa using step_rxFail_kind h hk⟩⟩

end Sys2Proof.Machine
end

section
/-! Proofs for 60_exceptions.md: no command and no step is fatal (R204, 20_memory.md R61). -/

namespace Sys2Proof

theorem decode_wellFormed {c : Params} {cw : Word} {wdata : Nat} {i : Instr}
    (h : decode c cw wdata = .ok i) : i.WellFormed c = true := by
  obtain ⟨m, _, rfl⟩ := (decode_eq_ok_iff c cw wdata i).mp h
  exact operandsOf_wellFormed c cw wdata m

end Sys2Proof

namespace Sys2Proof.Machine

section
variable {s : State}

/-! ### Ring-buffer commands -/

theorem exec_put_progress (hq : s.rb0.Inv (rb0Shape s.par)) (m : Bool) {item : List Byte}
    (hl : item.length = s.par.S0) : ∃ t, exec (.put m item) s = .next t := by
  rcases RingBuf.put_of_inv hq (v := item) hl with ⟨q, hput⟩ | hput
  · exact ⟨_, exec_put_of_done hput m⟩
  · exact ⟨_, exec_put_of_full ((RingBuf.put_fail_iff _ _ _).mp hput) m item⟩

theorem exec_pop_progress (hq : s.rb0.Inv (rb0Shape s.par)) (dv : Bool) :
    ∃ t, exec (.pop dv) s = .next t := by
  rcases RingBuf.pop_of_inv hq with ⟨v, q, hpop⟩ | hpop
  · exact ⟨_, exec_pop_of_done hpop dv⟩
  · exact ⟨_, exec_pop_of_empty ((RingBuf.pop_fail_iff _ _).mp hpop) dv⟩

theorem exec_peek_progress (hq : s.rb0.Inv (rb0Shape s.par)) (n : BitVec 8) :
    ∃ t, exec (.peek n) s = .next t := by
  rcases RingBuf.peek_of_inv hq n.toNat with ⟨v, hpeek⟩ | hpeek
  · exact ⟨s.answer (.okData v) [], by simp only [exec, execPeek, hpeek]⟩
  · exact ⟨s.answer .fail [], by simp only [exec, execPeek, hpeek]⟩

/-! ### The receive command beside `RXBYTE` -/

theorem exec_rxnext_progress (hs : s.ReceiveInv) : ∃ t, exec .rxnext s = .next t := by
  rcases RingBuf.pop_of_inv hs.rxq_inv with ⟨v, q, hpop⟩ | hpop
  · exact ⟨_, exec_rxnext_of_done hpop⟩
  · exact ⟨_, exec_rxnext_of_empty ((RingBuf.pop_fail_iff _ _).mp hpop)⟩

/-! ### Transmit commands -/

/-- The packet of a frame in progress can be read back (42_transport_transmit.md R145). -/
theorem State.TransmitInv.packet_stored (hs : s.TransmitInv) (hp : s.txInProgress = true) :
    ∃ pkt, s.txbuf.readBytes 4 s.par.P = some pkt := by
  have hF := Params.F_eq s.par
  obtain ⟨f, hf⟩ := Option.isSome_iff_exists.mp (hs.tx_stored hp)
  have hpkt := Memory.readBytes_part hf (k := 4) (l := s.par.P) (by omega)
  rw [Nat.zero_add] at hpkt
  exact ⟨_, hpkt⟩

/-- Every byte of a frame in progress can be sent. -/
theorem State.TransmitInv.byte_stored (hs : s.TransmitInv) (hp : s.txInProgress = true)
    (hlt : s.txCursor < s.par.F) : ∃ b, s.txbuf.read s.txCursor = some b := by
  have hcell := (Memory.readBytes_isSome_iff _ _ _).mp (hs.tx_stored hp) s.txCursor hlt
  rw [Nat.zero_add] at hcell
  exact Option.isSome_iff_exists.mp hcell

/-- The oldest packet of `TXQ`, if there is one, can be read and started. -/
theorem State.retireFrame_progress (hq : s.txq.Inv (queueShape s.par)) (pkt : List Byte) :
    ∃ t, s.retireFrame pkt = .next t := by
  rcases s.retireFrame_cases pkt with ⟨v, _, _, h⟩ | ⟨_, h⟩ | ⟨hc, hnone, _⟩
  · exact ⟨_, h⟩
  · exact ⟨_, h⟩
  · have hsome := hq.occupied 0 hc
    simp [hnone] at hsome

theorem exec_tx_progress (hs : s.TransmitInv) {pkt : List Byte} (hl : pkt.length = s.par.P) :
    ∃ t, exec (.tx pkt) s = .next t := by
  cases hp : s.txInProgress with
  | false => exact ⟨_, exec_tx_of_off hp hl⟩
  | true =>
    rcases RingBuf.put_of_inv hs.txq_inv (v := pkt) hl with ⟨q, hput⟩ | hput
    · exact ⟨_, exec_tx_of_done hp hput⟩
    · exact ⟨_, exec_tx_of_full pkt hp ((RingBuf.put_fail_iff _ _ _).mp hput)⟩

theorem exec_txdone_progress (hs : s.TransmitInv) : ∃ t, exec .txdone s = .next t := by
  cases hirq : s.txIrqEn with
  | false => exact ⟨_, exec_txdone_of_idle hirq⟩
  | true =>
    obtain ⟨hp, _⟩ := s.txIrqEn_eq_true_iff.mp hirq
    by_cases hlt : s.txCursor < s.par.F
    · obtain ⟨b, hb⟩ := hs.byte_stored hp hlt
      exact ⟨_, exec_txdone_of_unsent hirq hlt hb⟩
    · have hF : s.par.F ≤ s.txCursor := Nat.not_lt.mp hlt
      cases ha : s.txArmed with
      | false => exact ⟨_, exec_txdone_of_unarmed hirq hF ha⟩
      | true =>
        obtain ⟨pkt, hpkt⟩ := hs.packet_stored hp
        rw [exec_txdone_of_armed hirq hF ha hpkt]
        exact State.retireFrame_progress (s := { s with txArmed := false }) hs.txq_inv pkt

theorem exec_txnext_progress (hs : s.TransmitInv) : ∃ t, exec .txnext s = .next t := by
  cases hb : s.txBlocking with
  | false => exact ⟨_, exec_txnext_of_free hb⟩
  | true =>
    obtain ⟨hp, _⟩ := hs.blocking hb
    obtain ⟨pkt, hpkt⟩ := hs.packet_stored hp
    rw [exec_txnext_of_held hb hpkt]
    exact State.retireFrame_progress (s := { s with txBlocking := false }) hs.txq_inv pkt

/-! ### The whole block -/

theorem exec_progress {i : Instr} (hs : s.Inv) (hi : i.WellFormed s.par = true) :
    ∃ t, exec i s = .next t := by
  obtain ⟨hrb0, hrx, htx⟩ := s.inv_iff.mp hs
  cases i with
  | put m item => exact exec_put_progress hrb0 m (by simpa [Instr.WellFormed] using hi)
  | pop dv => exact exec_pop_progress hrb0 dv
  | peek n => exact exec_peek_progress hrb0 n
  | rxbyte b => exact exec_rxbyte_progress hrx b
  | rxnext => exact exec_rxnext_progress hrx
  | tx pkt => exact exec_tx_progress htx (by simpa [Instr.WellFormed] using hi)
  | txdone => exact exec_txdone_progress htx
  | txnext => exact exec_txnext_progress htx
  | reset => exact ⟨_, exec_reset s⟩

/-- A decoded command is well-formed, so it runs; nothing else presented can stop the block. -/
theorem step_progress (hs : s.Inv) : ∃ t, step s = .next t := by
  cases hin : s.inputs with
  | nil => exact ⟨s.quiet, by simp only [step, hin, stayIdle]⟩
  | cons x rest =>
    cases x with
    | rst => exact ⟨s.takeInput.toReset, by simp only [step, hin, takeRst]⟩
    | command cw wdata =>
      cases hdec : decode s.par cw wdata with
      | ok i =>
        rw [step_of_decode_ok hin hdec]
        exact exec_progress (s := s.takeInput) hs.ports (decode_wellFormed hdec)
      | error e =>
        exact ⟨s.takeInput.answer .illegal [], by simp only [step, hin, hdec, answerIllegal]⟩

end

/-- Settles O46: a command that runs keeps the invariants, and from them every one runs. -/
theorem noCommandIsFatal : Obligations.NoCommandIsFatal := by
  refine ⟨fun i s hs hi => ?_, fun s hs => ?_⟩
  · obtain ⟨t, ht⟩ := exec_progress hs hi
    exact ⟨t, ht, exec_keeps_inv hs ht⟩
  · obtain ⟨t, ht⟩ := step_progress hs
    exact ⟨t, ht, step_keeps_inv hs ht⟩

end Sys2Proof.Machine
end

section
/-! Proofs for 60_exceptions.md: a packet crosses an error-free link (R205). -/

namespace Sys2Proof.Machine

@[simp] theorem serialBytes_map_serOut (bs : List Byte) : serialBytes (bs.map .serOut) = bs := by
  induction bs with
  | nil => rfl
  | cons b bs ih => simp [serialBytes, ih]

/-- What an error-free link presents is the pseudo-command `RXBYTES` (30_encoding.md R85). -/
theorem linkInputs_eq_map_present (o : List Output) :
    linkInputs o = (rxBytes (serialBytes o)).map present := by
  simp [linkInputs, receivedInputs, rxBytes]

theorem frameOf_of_sameFrames {c d : Params} (h : c.sameFrames d) (pkt : List Byte) :
    frameOf c pkt = frameOf d pkt := by
  obtain ⟨_, hpre, hpost⟩ := h
  rw [frameOf, frameOf, hpre, hpost]

/-- With the gate armed `RXQ` is empty (I3), so a whole frame is delivered at once. -/
theorem runCommands_rxFrame_delivers {s : State} {pkt : List Byte} (hs : s.Inv)
    (hc : s.rxCursor = 0) (ha : s.rxArmed = true) (hl : pkt.length = s.par.P) :
    ∃ r, runCommands (rxFrame s.par pkt) s = some r ∧ r.outs = [.event (.rxOk pkt)] := by
  obtain ⟨r, hr, _, _, _, _, hcase⟩ := wholeFrameIsReportedDeliveredOrQueued s pkt hs hc hl
  have hroom : s.rxq.count ≠ 2 ^ s.par.KQ := by
    rw [hs.rxArmed_empty ha]; exact (Nat.two_pow_pos _).ne
  rw [if_neg hroom, if_pos ha] at hcase
  obtain ⟨hevent, _, _⟩ := hcase
  exact ⟨r, hr, hevent⟩

/-- Settles O55: the bytes node `a` puts out are the frame of the packet, which is the same frame
at node `b`. -/
theorem packetCrossesAnErrorFreeLink : Obligations.PacketCrossesAnErrorFreeLink := by
  intro a b pkt ha hb hsame hoff hl hc harmed
  obtain ⟨ra, hra, houts, _⟩ := transmitterPutsOutTheWholeFrame a pkt ha hoff hl
  have hlb : pkt.length = b.par.P := hl.trans hsame.left
  obtain ⟨rb, hrb, hdelivered⟩ := runCommands_rxFrame_delivers hb hc harmed hlb
  have hbytes : rxBytes (serialBytes ra.outs) = rxFrame b.par pkt := by
    rw [houts, serialBytes_map_serOut, frameOf_of_sameFrames hsame, rxFrame]
  exact ⟨ra, rb, hra, hbytes ▸ hrb, hdelivered, linkInputs_eq_map_present ra.outs⟩

end Sys2Proof.Machine
end

section
/-! Proofs for 70_reset_and_hazards.md: the `rst` input (R220) and the idle block (R221). -/

namespace Sys2Proof.Machine

/-- The branch of `step` with nothing presented. -/
theorem step_of_inputs_eq_nil {s : State} (hin : s.inputs = []) : step s = .next s.quiet := by
  simp only [step, hin, stayIdle]

/-- The branch of `step` for the `rst` input. -/
theorem step_of_rst {s : State} {rest : List Input} (hin : s.inputs = .rst :: rest) :
    step s = .next s.takeInput.toReset := by
  simp only [step, hin, takeRst]

/-- A reset leaves the output port empty, so an answer that emits nothing only adds the response. -/
theorem State.toReset_answer_nil (s : State) (r : Response) :
    s.toReset.answer r [] = { s.toReset with rsp := some r } := rfl

/-- Settles O9: the idle branch of `step` only quiets the output ports. -/
theorem nothingPresentedNothingHappens : Obligations.NothingPresentedNothingHappens := by
  intro s hin
  rw [step_of_inputs_eq_nil hin, State.quiet]

/-- Settles O10: `rst` and `RESET` share one reset, to which `RESET` adds its answer. -/
theorem rstInputActsAsResetCommand : Obligations.RstInputActsAsResetCommand := by
  intro s rest hin
  have htake : s.takeInput = { s with inputs := rest } := State.takeInput_of_inputs_eq_cons hin
  refine ⟨s.takeInput.toReset, step_of_rst hin, ?_, State.toReset_rsp _, State.toReset_out _, ?_⟩
  · rw [State.toReset_inputs, htake]
  · rw [← htake, exec_reset, State.toReset_answer_nil]

end Sys2Proof.Machine
end
